-- ==== Sys2Proof/Word.lean ====
section
/-! DEFINITION. The two bit-vector widths of the hardware (00_scope R9): a register is 32 bits, a DMEM cell is 8. -/

namespace Sys2Proof

/-- A register value: 32-bit unsigned (00_scope R9). -/
abbrev Word := BitVec 32

/-- A DMEM byte: 8-bit unsigned (00_scope R9). -/
abbrev Byte := BitVec 8

end Sys2Proof
end

