-- ==== Sys2Proof/Syntax.lean ====
section
/-! DEFINITION. The 15 commands of 30_encoding R71, one constructor per row of opcode_table.json. The fields are the
command word's own (30_encoding R70); every other operand is in a register (R76). -/

namespace Sys2Proof

/-- A command. -/
inductive Instr
  /-- `CFG_COMMIT`: validate the staged configuration and make it active (41_quantization R100). -/
  | cfgCommit
  /-- `Q_ICOUNT`: read the interval count (R106). -/
  | qIcount
  /-- `Q_BPS`: read bits per symbol (R107). -/
  | qBps
  /-- `Q_ANCHOR`: the anchor of an interval (R108). -/
  | qAnchor
  /-- `Q_ISFILLER`: the filler test (R109). -/
  | qIsfiller
  /-- `Q_TOSYMBOL`: the symbol of a channel value (R110). -/
  | qTosymbol
  /-- `BYTES2BITS`: expand bytes into bit cells (42_bit_packing R120). -/
  | bytes2bits
  /-- `BITS2BYTES`: pack bit cells into bytes (R121). -/
  | bits2bytes
  /-- `BITS2SYMS`: group bits into symbols of the width that field K gives (R122). -/
  | bits2syms (k : BitVec 4)
  /-- `SYMS2BITS`: expand symbols into bits; K is the width, AUTO the expected-count mode (R123). -/
  | syms2bits (k : BitVec 4) (auto : Bool)
  /-- `FEC_ENC`: append redundancy to a payload (43_fec R142). -/
  | fecEnc
  /-- `FEC_DEC`: verify and correct an FEC buffer (R145). -/
  | fecDec
  /-- `LAYOUT`: write symbols onto a pixel grid; CH is the channel count (44_pixel_layout R171). -/
  | layout (ch : BitVec 4)
  /-- `EXTRACT`: read a pixel grid back into symbols; CH is the channel count (R172). -/
  | extract (ch : BitVec 4)
  /-- `PLAN`: the grid for a payload (45_dimension_planner R190). -/
  | plan
deriving DecidableEq, Repr

end Sys2Proof
end

