-- ==== Sys2Proof/WellFormed.lean ====
section
/-! DEFINITION. The check on a command's own fields. -/

namespace Sys2Proof

/-- Whether field K names a symbol width: 0 (the configured one) or 1 to 8 (30_encoding R72). -/
abbrev legalK (k : BitVec 4) : Prop := k.toNat ≤ 8

/-- Whether field CH is a channel count the block admits: 3 or 4 (30_encoding R73). -/
abbrev legalCh (ch : BitVec 4) : Prop := ch = 3 ∨ ch = 4

/-- Whether a command's fields hold legal operand values. Every value of a field is a legal ENCODING (30_encoding R72,
R73): an ill-formed command still decodes, and completes with ERR_OPERAND. -/
def Instr.wellFormed : Instr → Bool
  | .bits2syms k => decide (legalK k)
  | .syms2bits k _ => decide (legalK k)
  | .layout ch => decide (legalCh ch)
  | .extract ch => decide (legalCh ch)
  | .cfgCommit | .qIcount | .qBps | .qAnchor | .qIsfiller | .qTosymbol | .bytes2bits | .bits2bytes
  | .fecEnc | .fecDec | .plan => true

/-- `Instr.wellFormed` as a proposition. -/
abbrev Instr.WellFormed (i : Instr) : Prop := i.wellFormed = true

end Sys2Proof
end

