-- ==== Sys2Proof/Decode.lean ====
section
/-! DEFINITION. Command words (30_encoding): the decoder, total on every 32-bit word and refusing by name, the encoder,
and the opcode table's rows. -/

namespace Sys2Proof

/-- Why a word is illegal (30_encoding R75). The engine answers each with ERR_ILLEGAL (60_exceptions R221). -/
inductive IllegalWord
  /-- (a) OP is unassigned. -/
  | unassignedOp
  /-- (b) a bit of [31:17] is 1. -/
  | reservedBits
  /-- (c) K ≠ 0 and the opcode does not decode K. -/
  | strayK
  /-- (d) CH ≠ 0 and the opcode does not decode CH. -/
  | strayCh
  /-- (e) AUTO = 1 and the opcode does not decode AUTO. -/
  | strayAuto
deriving DecidableEq, Repr

/-- Field OP, bits [7:0] (30_encoding R70). -/
def fieldOp (w : Word) : BitVec 8 := w.extractLsb' 0 8
/-- Field K, bits [11:8]. -/
def fieldK (w : Word) : BitVec 4 := w.extractLsb' 8 4
/-- Field CH, bits [15:12]. -/
def fieldCh (w : Word) : BitVec 4 := w.extractLsb' 12 4
/-- Field AUTO, bit 16. -/
def fieldAuto (w : Word) : Bool := w.getLsbD 16
/-- The reserved bits [31:17]. -/
def fieldReserved (w : Word) : BitVec 15 := w.extractLsb' 17 15

/-- The opcode's command with the fields of the word in it, legal or not: which commands decode which field is R71's
table. -/
def decodeOp (w : Word) : Option Instr :=
  match (fieldOp w).toNat with
  | 0x01 => some .cfgCommit
  | 0x10 => some .qIcount
  | 0x11 => some .qBps
  | 0x12 => some .qAnchor
  | 0x13 => some .qIsfiller
  | 0x14 => some .qTosymbol
  | 0x20 => some .bytes2bits
  | 0x21 => some .bits2bytes
  | 0x22 => some (.bits2syms (fieldK w))
  | 0x23 => some (.syms2bits (fieldK w) (fieldAuto w))
  | 0x30 => some .fecEnc
  | 0x31 => some .fecDec
  | 0x40 => some (.layout (fieldCh w))
  | 0x41 => some (.extract (fieldCh w))
  | 0x50 => some .plan
  | _ => none

/-- Field K is decoded only for BITS2SYMS and SYMS2BITS (30_encoding R72). -/
def Instr.decodesK : Instr → Bool
  | .bits2syms _ | .syms2bits _ _ => true
  | .cfgCommit | .qIcount | .qBps | .qAnchor | .qIsfiller | .qTosymbol | .bytes2bits | .bits2bytes
  | .fecEnc | .fecDec | .layout _ | .extract _ | .plan => false

/-- Field CH is decoded only for LAYOUT and EXTRACT (30_encoding R73). -/
def Instr.decodesCh : Instr → Bool
  | .layout _ | .extract _ => true
  | .cfgCommit | .qIcount | .qBps | .qAnchor | .qIsfiller | .qTosymbol | .bytes2bits | .bits2bytes
  | .bits2syms _ | .syms2bits _ _ | .fecEnc | .fecDec | .plan => false

/-- Field AUTO is decoded only for SYMS2BITS (30_encoding R74). -/
def Instr.decodesAuto : Instr → Bool
  | .syms2bits _ _ => true
  | .cfgCommit | .qIcount | .qBps | .qAnchor | .qIsfiller | .qTosymbol | .bytes2bits | .bits2bytes
  | .bits2syms _ | .fecEnc | .fecDec | .layout _ | .extract _ | .plan => false

/-- The decoder (30_encoding R75, R77). Which reason is named where several hold is of no effect: every one of them is
ERR_ILLEGAL. -/
def decode (w : Word) : Except IllegalWord Instr :=
  match decodeOp w with
  | none => .error .unassignedOp
  | some i =>
    if fieldReserved w ≠ 0 then .error .reservedBits
    else if fieldK w ≠ 0 ∧ i.decodesK = false then .error .strayK
    else if fieldCh w ≠ 0 ∧ i.decodesCh = false then .error .strayCh
    else if fieldAuto w = true ∧ i.decodesAuto = false then .error .strayAuto
    else .ok i

/-- The opcode of a command (30_encoding R71). -/
def Instr.opcode : Instr → BitVec 8
  | .cfgCommit => 0x01
  | .qIcount => 0x10
  | .qBps => 0x11
  | .qAnchor => 0x12
  | .qIsfiller => 0x13
  | .qTosymbol => 0x14
  | .bytes2bits => 0x20
  | .bits2bytes => 0x21
  | .bits2syms _ => 0x22
  | .syms2bits _ _ => 0x23
  | .fecEnc => 0x30
  | .fecDec => 0x31
  | .layout _ => 0x40
  | .extract _ => 0x41
  | .plan => 0x50

/-- The command word with the given fields: `OP | K<<8 | C<<12 | AUTO<<16` (30_encoding R70, R78). -/
def packWord (auto : Bool) (ch k : BitVec 4) (op : BitVec 8) : Word :=
  op.setWidth 32 ||| k.setWidth 32 <<< 8 ||| ch.setWidth 32 <<< 12 ||| (BitVec.ofBool auto).setWidth 32 <<< 16

/-- The command word of a command; a field the command does not decode is 0 (30_encoding R70). -/
def encode (i : Instr) : Word :=
  match i with
  | .bits2syms k => packWord false 0 k i.opcode
  | .syms2bits k auto => packWord auto 0 k i.opcode
  | .layout ch => packWord false ch 0 i.opcode
  | .extract ch => packWord false ch 0 i.opcode
  | .cfgCommit | .qIcount | .qBps | .qAnchor | .qIsfiller | .qTosymbol | .bytes2bits | .bits2bytes
  | .fecEnc | .fecDec | .plan => packWord false 0 0 i.opcode

/-- A command's row of opcode_table.json: its mask and its match. -/
def Instr.tableRow : Instr → Word × Word
  | .cfgCommit => (0xFFFFFFFF, 0x00000001)
  | .qIcount => (0xFFFFFFFF, 0x00000010)
  | .qBps => (0xFFFFFFFF, 0x00000011)
  | .qAnchor => (0xFFFFFFFF, 0x00000012)
  | .qIsfiller => (0xFFFFFFFF, 0x00000013)
  | .qTosymbol => (0xFFFFFFFF, 0x00000014)
  | .bytes2bits => (0xFFFFFFFF, 0x00000020)
  | .bits2bytes => (0xFFFFFFFF, 0x00000021)
  | .bits2syms _ => (0xFFFFF0FF, 0x00000022)
  | .syms2bits _ _ => (0xFFFEF0FF, 0x00000023)
  | .fecEnc => (0xFFFFFFFF, 0x00000030)
  | .fecDec => (0xFFFFFFFF, 0x00000031)
  | .layout _ => (0xFFFF0FFF, 0x00000040)
  | .extract _ => (0xFFFF0FFF, 0x00000041)
  | .plan => (0xFFFFFFFF, 0x00000050)

/-- The host's question about one table row: what the decoder reads from an instruction whose bits are `w`. A command is
one 32-bit word written to CMD, so nothing is laid out in memory (assumption 9). -/
def decodeTableWord (nbits w : Nat) : Option Instr :=
  match decode (BitVec.ofNat 32 (w % 2 ^ nbits)) with
  | .ok i => some i
  | .error _ => none

end Sys2Proof
end

