-- ==== Sys2Proof/Machine/Arith.lean ====
section
/-! DEFINITION. The arithmetic of 00_scope R9, on exact naturals. -/

namespace Sys2Proof.Machine

/-- `cdiv(a, b)`: the ceiling of a/b for b > 0 (00_scope R9). -/
def cdiv (a b : Nat) : Nat := (a + b - 1) / b

/-- `floor_log2(x)`: the largest e with 2^e ≤ x, for x ≥ 1 (00_scope R9). -/
def floorLog2 (x : Nat) : Nat := x.log2

/-- The next square-root digit: from the root `r` of p/4 to the root of p. -/
def sqrtDigit (p r : Nat) : Nat := if (2 * r + 1) * (2 * r + 1) ≤ p then 2 * r + 1 else 2 * r

/-- The floor of the square root of p, for p < 4^digits, one binary digit of the root per unit of `digits`. -/
def floorSqrt (digits p : Nat) : Nat :=
  match digits with
  | 0 => 0
  | d + 1 => sqrtDigit p (floorSqrt d (p / 4))

/-- `ceil_sqrt(p)`: the smallest s ≥ 0 with s*s ≥ p (00_scope R9, 45_dimension_planner R192). -/
def ceilSqrt (p : Nat) : Nat :=
  let r := floorSqrt (p.log2 / 2 + 1) p
  if r * r = p then r else r + 1

/-- `round(65536*m / d)` with ties up (43_fec R146): floor(x + 1/2), computed exactly. -/
def roundRatio (m d : Nat) : Nat := (2 * m * 65536 + d) / (2 * d)

end Sys2Proof.Machine
end

