-- ==== Sys2Proof/Config.lean ====
section
/-! DEFINITION. What an implementation fixes (00_scope R8) and the free values the spec leaves open. -/

namespace Sys2Proof

/-- The parameter UNWRITTEN_READ (00_scope R8, 20_memory R51): what a read of a byte that nothing has written gives. -/
inductive UnwrittenRead
  /-- The read is a fault of the model (the spec's default). -/
  | fault
  /-- The read returns an unconstrained byte, a fresh draw on every read. -/
  | any
deriving DecidableEq, Repr

/-- The three hardware parameters of 00_scope R8. No step of the machine changes them. -/
structure Params where
  /-- DMEM_SIZE: the bytes in DMEM; the addresses are 0 to DMEM_SIZE-1. -/
  dmemSize : Nat
  /-- FEC_SYNDROME_RECHECK: whether FEC_DEC re-tests a mismatching index before correcting it. -/
  recheck : Bool
  /-- UNWRITTEN_READ. -/
  unwritten : UnwrittenRead
deriving DecidableEq, Repr

/-- The defaults of 00_scope R8. -/
def Params.default : Params := { dmemSize := 0x100000, recheck := true, unwritten := .fault }

/-- The legal values of 00_scope R8: DMEM_SIZE lies between 1 and 2^32 (every value of the other two is legal). -/
abbrev Params.Legal (p : Params) : Prop := 1 ≤ p.dmemSize ∧ p.dmemSize ≤ 2 ^ 32

/-- The byte that the `n`th draw gives where UNWRITTEN_READ is `any` (20_memory R51). FREE VALUE: no body, so no proof
sees what it is (assumption 5). -/
opaque Config.freeByte : Nat → Byte

/-- What R0 holds after a LAYOUT whose byte count does not fit 32 bits (assumption 6). FREE VALUE: the spec states no
value there. DESIGN CHOICE. -/
opaque Config.freeResult : Nat → Word

end Sys2Proof
end

