-- ==== Sys2Proof/Machine/State.lean ====
section
/-! DEFINITION. The state of the block and of its host, as plain data (10_state, 20_memory R50, 70_reset_and_hazards R255),
and the state after reset. -/

namespace Sys2Proof.Machine

/-- The error codes of 60_exceptions R220; the codes 8 to 15 are reserved and never produced. -/
inductive ErrCode
  | none | illegal | config | operand | range | format | capacity | domain
deriving DecidableEq, Repr

/-- The fields of STATUS (10_state R32); the reserved bits hold nothing and read 0 (`Status.toWord`). -/
structure Status where
  busy : Bool
  cfgValid : Bool
  allCorr : Bool
  omitted : Bool
  short : Bool
  ambig : Bool
  err : ErrCode
deriving DecidableEq, Repr

/-- The staged configuration registers CFG_* (10_state R21 to R25). CFG_SPCG is hard-wired and has no storage (R26). -/
structure Staged where
  l : BitVec 8
  filler : BitVec 8
  ratio : Word
  maxWarn : Word
  minDim : Word
deriving DecidableEq, Repr

/-- The active configuration registers ACT_* (10_state R27, R28). -/
structure Active where
  l : BitVec 8
  filler : BitVec 8
  ratio : Word
  maxWarn : Word
  minDim : Word
  icount : BitVec 8
  bps : BitVec 3
deriving DecidableEq, Repr

/-- The 24 registers of the register map (10_state R39). -/
inductive Reg
  | cfgL | cfgFiller | cfgRatio | cfgMaxwarn | cfgMindim | cfgSpcg
  | actL | actFiller | actRatio | actMaxwarn | actMindim | actIcount | actBps
  | cmd | a0 | a1 | a2 | a3 | a4 | r0 | r1 | r2 | r3 | status
deriving DecidableEq, Repr

/-- DMEM: the written bytes, strictly rising by address; an address not listed is UNWRITTEN (20_memory R51). -/
abbrev Memory := List Host.Cell

/-- One interaction of the host with the block (70_reset_and_hazards R255). `wait` is the polling loop of 30_encoding R79.
A register access carries its width in bits and its byte offset, so that the protocol violations of 10_state R20 can be
expressed. -/
inductive HostOp
  | regRead (width offset : Nat)
  | regWrite (width offset : Nat) (v : Word)
  | memRead (addr : Nat)
  | memWrite (addr : Nat) (b : Byte)
  | wait
  | reset
deriving DecidableEq, Repr

/-- The two agents of 00_scope R3. -/
inductive Agent
  | host | engine
deriving DecidableEq, Repr

/-- What the host gets back from a read (70_reset_and_hazards R255). -/
inductive Reply
  | reg (v : Word)
  | mem (b : Byte)
deriving DecidableEq, Repr

/-- Why the machine stops with a fault. -/
inductive Fault
  /-- A read of a DMEM byte never written since reset, under UNWRITTEN_READ = fault (20_memory R51). Raised by every
  command and host read of DMEM. Safe: the spec calls it a fault of the model. -/
  | unwrittenRead (addr : Nat)
  /-- A host register access whose width is not 32 bits (70_reset_and_hazards R258). Raised by the host port. Safe. -/
  | regWidth (width : Nat)
  /-- A host register access at a misaligned offset (R258). Raised by the host port. Safe. -/
  | regMisaligned (offset : Nat)
  /-- A host register access at an offset not in the map (R258). Raised by the host port. Safe. -/
  | regUnmapped (offset : Nat)
  /-- A host register write while BUSY = 1 (R258). Raised by the host port. Safe. -/
  | regWriteBusy
  /-- A host DMEM access while BUSY = 1 (R258). Raised by the host port. Safe. -/
  | dmemBusy
  /-- A host DMEM access at an address ≥ DMEM_SIZE (R258). Raised by the host port. Safe. -/
  | dmemOutOfRange (addr : Nat)
deriving DecidableEq, Repr

/-- Why the model gives no meaning. -/
inductive Refusal
  /-- A command with no meaning yet. Raised by no arm of `exec`: every command of the opcode table has its meaning. Safe. -/
  | notModelled (mnemonic : String)
deriving DecidableEq, Repr

/-- The whole state. The fields from `hostOps` on are the model's own (assumptions 1, 2, 5, 8). -/
structure State where
  /-- The hardware parameters (00_scope R8); no step changes them (assumption 4). -/
  params : Params
  /-- CFG_L, CFG_FILLER, CFG_RATIO, CFG_MAXWARN, CFG_MINDIM. -/
  cfg : Staged
  /-- ACT_L to ACT_BPS. -/
  act : Active
  /-- CMD (10_state R29). -/
  cmd : Word
  /-- The operand registers A0 to A4 (10_state R30). -/
  a0 : Word
  a1 : Word
  a2 : Word
  a3 : Word
  a4 : Word
  /-- The result registers R0 to R3 (10_state R31). -/
  r0 : Word
  r1 : Word
  r2 : Word
  r3 : Word
  /-- STATUS (10_state R32). -/
  status : Status
  /-- DMEM (20_memory R50). -/
  dmem : Memory
  /-- The host's coming interactions, in its program order. DESIGN CHOICE (assumption 1). -/
  hostOps : List HostOp
  /-- Who moves next at each step in which both agents are enabled; the engine once it is empty. DESIGN CHOICE
  (assumption 2). -/
  turns : List Agent
  /-- What the host has got back, oldest first. DESIGN CHOICE (assumption 8). -/
  replies : List Reply
  /-- How many free values have been drawn. DESIGN CHOICE (assumption 5). -/
  draws : Nat
deriving DecidableEq, Repr

/-- What a step or a meaning answers. -/
abbrev Result := Host.Outcome State Fault Refusal

/-- The state after reset of a block with the given parameters (70_reset_and_hazards R250; 10_state R39): every register
0, DMEM unwritten, no host interaction placed. -/
def State.resetWith (p : Params) : State where
  params := p
  cfg := { l := 0, filler := 0, ratio := 0, maxWarn := 0, minDim := 0 }
  act := { l := 0, filler := 0, ratio := 0, maxWarn := 0, minDim := 0, icount := 0, bps := 0 }
  cmd := 0
  a0 := 0
  a1 := 0
  a2 := 0
  a3 := 0
  a4 := 0
  r0 := 0
  r1 := 0
  r2 := 0
  r3 := 0
  status := { busy := false, cfgValid := false, allCorr := false, omitted := false, short := false,
              ambig := false, err := .none }
  dmem := []
  hostOps := []
  turns := []
  replies := []
  draws := 0

/-- The state after reset, with the default parameters of 00_scope R8. -/
def State.reset : State := State.resetWith Params.default

end Sys2Proof.Machine
end

