-- ==== Sys2Proof/Machine/Flags.lean ====
section
/-! DEFINITION. STATUS: its word view and every change of its flags (10_state R32 to R36). -/

namespace Sys2Proof.Machine

/-- The numeric code of an error (60_exceptions R220). -/
def ErrCode.code : ErrCode → BitVec 4
  | .none => 0
  | .illegal => 1
  | .config => 2
  | .operand => 3
  | .range => 4
  | .format => 5
  | .capacity => 6
  | .domain => 7

/-- A flag at its bit of STATUS. -/
def statusBit (b : Bool) (n : Nat) : Word := (BitVec.ofBool b).setWidth 32 <<< n

/-- STATUS as the host reads it (10_state R32): ERR in [11:8], [7:6] and [31:12] reserved, AMBIG 5, SHORT 4, OMITTED 3,
ALLCORR 2, CFG_VALID 1, BUSY 0. -/
def Status.toWord (st : Status) : Word :=
  statusBit st.busy 0 ||| statusBit st.cfgValid 1 ||| statusBit st.allCorr 2 ||| statusBit st.omitted 3
    ||| statusBit st.short 4 ||| statusBit st.ambig 5 ||| st.err.code.setWidth 32 <<< 8

/-- The STATUS writes of a CMD write (10_state R33): ERR and the four result flags to 0, BUSY to 1. -/
def Status.started (st : Status) : Status :=
  { st with busy := true, allCorr := false, omitted := false, short := false, ambig := false, err := .none }

/-- The STATUS writes of a command's end with the given code (10_state R33, R35). -/
def Status.ended (st : Status) (e : ErrCode) : Status := { st with busy := false, err := e }

/-- A command's end (10_state R33): BUSY ← 0, and ERR says how it ended (R35). -/
def State.finish (s : State) (e : ErrCode) : State := { s with status := s.status.ended e }

/-- `CFG_VALID <- b`, by CFG_COMMIT alone (10_state R34). -/
def State.setCfgValid (s : State) (b : Bool) : State := { s with status := { s.status with cfgValid := b } }

/-- `flag ALLCORR <- b` (10_state R36). -/
def State.setAllCorr (s : State) (b : Bool) : State := { s with status := { s.status with allCorr := b } }

/-- `flag OMITTED <- b` (10_state R36). -/
def State.setOmitted (s : State) (b : Bool) : State := { s with status := { s.status with omitted := b } }

/-- `flag SHORT <- b` (10_state R36). -/
def State.setShort (s : State) (b : Bool) : State := { s with status := { s.status with short := b } }

/-- `flag AMBIG <- b` (10_state R36). -/
def State.setAmbig (s : State) (b : Bool) : State := { s with status := { s.status with ambig := b } }

end Sys2Proof.Machine
end

