-- ==== Sys2Proof/Machine/Ops.lean ====
section
/-! DEFINITION. The named operations every command is written over: DMEM, the result registers, the two ways a command ends,
the register map, the CMD write and reset. -/

namespace Sys2Proof.Machine

/-! ## DMEM (20_memory) -/

/-- The canonical form: addresses strictly rising, so that equal memories are equal data. -/
abbrev Memory.wf (m : Memory) : Prop := m.Pairwise fun c d => c.1 < d.1

/-- The byte at an address, if anything has written it (20_memory R51). -/
def Memory.read (m : Memory) (a : Nat) : Option Byte :=
  match m with
  | [] => none
  | (b, v) :: rest => if b = a then some v else Memory.read rest a

/-- One byte written, the canonical form kept. -/
def Memory.write (m : Memory) (a : Nat) (v : Byte) : Memory :=
  match m with
  | [] => [(a, v)]
  | (b, w) :: rest =>
    if a < b then (a, v) :: (b, w) :: rest
    else if b = a then (a, v) :: rest
    else (b, w) :: Memory.write rest a v

/-- Consecutive bytes written from an address up (00_scope R11, `MemWrite`). -/
def Memory.writeBytes (m : Memory) (a : Nat) : List Byte → Memory
  | [] => m
  | b :: bs => Memory.writeBytes (Memory.write m a b) (a + 1) bs

/-- A 32-bit value as the four bytes a multi-byte store writes, most significant first (20_memory R53). -/
def bigEndian (w : Word) : List Byte :=
  [w.extractLsb' 24 8, w.extractLsb' 16 8, w.extractLsb' 8 8, w.extractLsb' 0 8]

/-- One DMEM read (20_memory R51). `d` counts the free values drawn so far: an unwritten byte is a fault or a fresh draw. -/
def readByte (p : Params) (m : Memory) (d a : Nat) : Except Fault (Byte × Nat) :=
  match m.read a with
  | some b => .ok (b, d)
  | none =>
    match p.unwritten with
    | .fault => .error (.unwrittenRead a)
    | .any => .ok (Config.freeByte d, d + 1)

/-- The reads of a list of places, in order. A place that is not read (`none`) gives 0 without touching DMEM
(44_pixel_layout R173). -/
def readPlaces (p : Params) (m : Memory) (d : Nat) : List (Option Nat) → Except Fault (List Byte × Nat)
  | [] => .ok ([], d)
  | none :: rest =>
    match readPlaces p m d rest with
    | .error f => .error f
    | .ok (bs, d') => .ok (0 :: bs, d')
  | some a :: rest =>
    match readByte p m d a with
    | .error f => .error f
    | .ok (b, d₁) =>
      match readPlaces p m d₁ rest with
      | .error f => .error f
      | .ok (bs, d₂) => .ok (b :: bs, d₂)

/-- The places base, base+1, ..., base+len-1, all read. -/
def places (base len : Nat) : List (Option Nat) := (List.range' base len).map some

/-- DMEM replaced. -/
def State.setDmem (s : State) (m : Memory) : State := { s with dmem := m }

/-- The count of free values drawn. -/
def State.setDraws (s : State) (d : Nat) : State := { s with draws := d }

/-- A command's stores: the bytes from an address up. -/
def State.store (s : State) (a : Nat) (bs : List Byte) : State := s.setDmem (s.dmem.writeBytes a bs)

/-- A command's reads: the places' bytes handed on, or the fault of 20_memory R51. -/
def withPlaces (s : State) (ps : List (Option Nat)) (k : List Byte → State → Result) : Result :=
  match readPlaces s.params s.dmem s.draws ps with
  | .error f => .fault f
  | .ok (bs, d) => k bs (s.setDraws d)

/-! ## Result registers (10_state R31) -/

/-- `R[0] <- w`. -/
def State.setR0 (s : State) (w : Word) : State := { s with r0 := w }
/-- `R[1] <- w`. -/
def State.setR1 (s : State) (w : Word) : State := { s with r1 := w }
/-- `R[2] <- w`. -/
def State.setR2 (s : State) (w : Word) : State := { s with r2 := w }
/-- `R[3] <- w`. -/
def State.setR3 (s : State) (w : Word) : State := { s with r3 := w }

/-- A natural as a 32-bit register value. -/
def toReg (n : Nat) : Word := BitVec.ofNat 32 n

/-! ## The two ways a command ends -/

/-- Completion with ERR = 0 (10_state R33, R35): the command's writes are made and BUSY is cleared. -/
def complete (s : State) : Result := .next (s.finish .none)

/-- ERROR COMPLETION (60_exceptions R224), this hardware's whole exception mechanism (R232): ERR gets the code and BUSY is
cleared; no DMEM byte, no result register and no flag is written. -/
def fail (e : ErrCode) (s : State) : Result := .next (s.finish e)

/-! ## The register map (10_state R20, R39) -/

/-- The registers in the order of the map. -/
def Reg.all : List Reg :=
  [.cfgL, .cfgFiller, .cfgRatio, .cfgMaxwarn, .cfgMindim, .cfgSpcg,
   .actL, .actFiller, .actRatio, .actMaxwarn, .actMindim, .actIcount, .actBps,
   .cmd, .a0, .a1, .a2, .a3, .a4, .r0, .r1, .r2, .r3, .status]

/-- A register's byte offset (10_state R39). -/
def Reg.offset : Reg → Nat
  | .cfgL => 0x00 | .cfgFiller => 0x04 | .cfgRatio => 0x08 | .cfgMaxwarn => 0x0C | .cfgMindim => 0x10
  | .cfgSpcg => 0x14
  | .actL => 0x20 | .actFiller => 0x24 | .actRatio => 0x28 | .actMaxwarn => 0x2C | .actMindim => 0x30
  | .actIcount => 0x34 | .actBps => 0x38
  | .cmd => 0x40 | .a0 => 0x44 | .a1 => 0x48 | .a2 => 0x4C | .a3 => 0x50 | .a4 => 0x54
  | .r0 => 0x60 | .r1 => 0x64 | .r2 => 0x68 | .r3 => 0x6C
  | .status => 0x70

/-- The register at a byte offset, if the map has one there. -/
def Reg.ofOffset (o : Nat) : Option Reg := Reg.all.find? fun r => r.offset == o

/-- The value a read of a register returns: reserved bits read 0 and CFG_SPCG reads 3 (10_state R20, R26, R39). -/
def readReg (s : State) : Reg → Word
  | .cfgL => s.cfg.l.setWidth 32
  | .cfgFiller => s.cfg.filler.setWidth 32
  | .cfgRatio => s.cfg.ratio
  | .cfgMaxwarn => s.cfg.maxWarn
  | .cfgMindim => s.cfg.minDim
  | .cfgSpcg => 3
  | .actL => s.act.l.setWidth 32
  | .actFiller => s.act.filler.setWidth 32
  | .actRatio => s.act.ratio
  | .actMaxwarn => s.act.maxWarn
  | .actMindim => s.act.minDim
  | .actIcount => s.act.icount.setWidth 32
  | .actBps => s.act.bps.setWidth 32
  | .cmd => s.cmd
  | .a0 => s.a0
  | .a1 => s.a1
  | .a2 => s.a2
  | .a3 => s.a3
  | .a4 => s.a4
  | .r0 => s.r0
  | .r1 => s.r1
  | .r2 => s.r2
  | .r3 => s.r3
  | .status => s.status.toWord

/-- A CMD write (10_state R33): the word is latched, ERR and the flags are cleared and BUSY is set. -/
def State.startCommand (s : State) (w : Word) : State := { s with cmd := w, status := s.status.started }

/-- A register write while BUSY = 0: the writable fields are stored, a CMD write starts the command, and a write to a
read-only register or a reserved bit is ignored (10_state R20, R33; 70_reset_and_hazards R255). -/
def writeReg (s : State) (r : Reg) (v : Word) : State :=
  match r with
  | .cfgL => { s with cfg := { s.cfg with l := v.setWidth 8 } }
  | .cfgFiller => { s with cfg := { s.cfg with filler := v.setWidth 8 } }
  | .cfgRatio => { s with cfg := { s.cfg with ratio := v } }
  | .cfgMaxwarn => { s with cfg := { s.cfg with maxWarn := v } }
  | .cfgMindim => { s with cfg := { s.cfg with minDim := v } }
  | .cmd => s.startCommand v
  | .a0 => { s with a0 := v }
  | .a1 => { s with a1 := v }
  | .a2 => { s with a2 := v }
  | .a3 => { s with a3 := v }
  | .a4 => { s with a4 := v }
  | .cfgSpcg | .actL | .actFiller | .actRatio | .actMaxwarn | .actMindim | .actIcount | .actBps
  | .r0 | .r1 | .r2 | .r3 | .status => s

/-! ## Reset (70_reset_and_hazards R250, R251) -/

/-- The reset signal at a running block: every register at its reset value, DMEM unwritten, a pending command discarded.
The parameters, the host's own fields and the draw counter stay (assumption 19). -/
def State.resetSignal (s : State) : State :=
  { State.resetWith s.params with hostOps := s.hostOps, turns := s.turns, replies := s.replies, draws := s.draws }

end Sys2Proof.Machine
end

