-- ==== Sys2Proof/Machine/Operands.lean ====
section
/-! DEFINITION. What a command's operands mean: the active scheme, symbol codes, the K field, and the regions each command
names (20_memory R55 to R57; 30_encoding R72, R76; 43_fec R140, R144). -/

namespace Sys2Proof.Machine

/-! ## The active configuration in numbers -/

/-- The values that the formulas of 41_quantization read: L, F, the interval count and bits per symbol. -/
structure Scheme where
  l : Nat
  f : Nat
  icount : Nat
  bps : Nat
deriving DecidableEq, Repr

/-- `ACT.L`, `ACT.F`, `ACT.IC`, `ACT.BPS` (10_state R27, R28). -/
def State.scheme (s : State) : Scheme where
  l := s.act.l.toNat
  f := s.act.filler.toNat
  icount := s.act.icount.toNat
  bps := s.act.bps.toNat

/-! ## Symbols (20_memory R55) -/

/-- A symbol: an interval index, or the sentinel that carries no data (00_scope, glossary). -/
inductive Symbol
  | data (index : Nat)
  | filler
deriving DecidableEq, Repr

/-- The symbol code: 0xFF for `Filler`, the index otherwise (20_memory R55). -/
def Symbol.code : Symbol → Byte
  | .data i => BitVec.ofNat 8 i
  | .filler => 0xFF

/-- The symbol of a code (20_memory R55). -/
def Symbol.ofCode (c : Byte) : Symbol := if c = 0xFF then .filler else .data c.toNat

/-- A code c with IC ≤ c ≤ 0xFE is out of range (20_memory R55). -/
def codeOutOfRange (icount : Nat) (c : Byte) : Bool := icount ≤ c.toNat && c != 0xFF

/-! ## Fields -/

/-- `kres(K)` (42_bit_packing R124): K = 0 is the configured width, 1 to 8 are themselves, 9 to 15 no width. -/
def symbolWidth (bps : Nat) (k : BitVec 4) : Option Nat :=
  if k = 0 then some bps else if k.toNat ≤ 8 then some k.toNat else none

/-- The width where the field is legal; 0 where it is not (no command uses it there). -/
def widthOf (s : State) (k : BitVec 4) : Nat := (symbolWidth s.scheme.bps k).getD 0

/-- w * h, the pixel count of LAYOUT and EXTRACT (exact product, 44_pixel_layout R171). -/
def pixelCount (s : State) : Nat := s.a3.toNat * s.a4.toNat

/-! ## FEC geometry (43_fec R140, R144) -/

/-- `fecSize(n)` at ratio R (43_fec R140). -/
def fecSize (r n : Nat) : Nat := n * r / 65536

/-- The payload length of an FEC buffer of m bytes at ratio R (43_fec R144). -/
def fecPayload (r m : Nat) : Nat := roundRatio m (65536 + r)

/-- The redundancy length of an FEC buffer of m bytes at ratio R (43_fec R144). -/
def fecRedundancy (r m : Nat) : Nat := m - fecPayload r m

/-- FEC_DEC copies its buffer unchanged when it is short or has no redundancy (43_fec R143, R144). -/
def fecCopies (r m : Nat) : Bool := m < 5 || fecRedundancy r m == 0

/-! ## Regions (20_memory R57) -/

/-- The DMEM addresses base to base+len-1. -/
structure Region where
  base : Nat
  len : Nat
deriving DecidableEq, Repr

/-- Whether the region holds the address. -/
def Region.has (g : Region) (a : Nat) : Bool := g.base ≤ a && a < g.base + g.len

/-- (a) A region with len > 0 lies inside DMEM; one with len = 0 is always legal. -/
def Region.inRange (size : Nat) (g : Region) : Bool := g.len == 0 || g.base + g.len ≤ size

/-- Two regions with len > 0 overlap when b1 < b2 + l2 and b2 < b1 + l1. -/
def Region.overlaps (g h : Region) : Bool :=
  g.len != 0 && h.len != 0 && g.base < h.base + h.len && h.base < g.base + g.len

/-- (c) No two of the regions overlap. -/
def apart : List Region → Bool
  | [] => true
  | g :: rest => rest.all (fun h => !g.overlaps h) && apart rest

/-- The region check of 20_memory R57: (a), (b) no output overlaps an input, (c). -/
def regionsLegal (size : Nat) (ins outs : List Region) : Bool :=
  (ins ++ outs).all (Region.inRange size) && outs.all (fun o => ins.all fun i => !o.overlaps i) && apart outs

/-- The input regions of a command, as its rule names them. -/
def inputRegions (i : Instr) (s : State) : List Region :=
  match i with
  | .bytes2bits | .bits2bytes | .bits2syms _ | .syms2bits _ _ | .fecEnc | .fecDec | .layout _ =>
    [{ base := s.a0.toNat, len := s.a1.toNat }]
  | .extract ch => [{ base := s.a0.toNat, len := min s.a1.toNat (pixelCount s * ch.toNat) }]
  | .cfgCommit | .qIcount | .qBps | .qAnchor | .qIsfiller | .qTosymbol | .plan => []

/-- The output regions of a command, as its rule names them. -/
def outputRegions (i : Instr) (s : State) : List Region :=
  match i with
  | .bytes2bits => [{ base := s.a2.toNat, len := 8 * s.a1.toNat }]
  | .bits2bytes => [{ base := s.a2.toNat, len := cdiv s.a1.toNat 8 }]
  | .bits2syms k => [{ base := s.a2.toNat, len := cdiv s.a1.toNat (widthOf s k) }]
  | .syms2bits k auto =>
    [{ base := s.a2.toNat, len := if auto then widthOf s k * s.a1.toNat else s.a3.toNat }]
  | .fecEnc => [{ base := s.a2.toNat, len := s.a1.toNat + fecSize s.act.ratio.toNat s.a1.toNat }]
  | .fecDec =>
    let m := s.a1.toNat
    let r := s.act.ratio.toNat
    if fecCopies r m then [{ base := s.a2.toNat, len := m }]
    else [{ base := s.a2.toNat, len := fecPayload r m },
          { base := s.a3.toNat, len := 4 * min (fecRedundancy r m) s.act.maxWarn.toNat }]
  | .layout ch => [{ base := s.a2.toNat, len := pixelCount s * ch.toNat }]
  | .extract _ => [{ base := s.a2.toNat, len := 3 * pixelCount s }]
  | .cfgCommit | .qIcount | .qBps | .qAnchor | .qIsfiller | .qTosymbol | .plan => []

/-- The ERR_RANGE check of a command (60_exceptions R226): it reads only registers and the active configuration. -/
def rangeOk (i : Instr) (s : State) : Bool :=
  regionsLegal s.params.dmemSize (inputRegions i s) (outputRegions i s)

end Sys2Proof.Machine
end

