-- ==== Sys2Proof/Machine/BitPacking.lean ====
section
/-! DEFINITION. The bit and symbol packer (42_bit_packing). A bit stream is a list of bit cells, one byte per bit
(20_memory R56). -/

namespace Sys2Proof.Machine

/-! ## Formats -/

/-- The cell of a bit: 0x00 or 0x01 (20_memory R56). -/
def bitCell (b : Bool) : Byte := if b then 1 else 0

/-- A cell that is neither 0x00 nor 0x01 (20_memory R56). -/
def badCell (c : Byte) : Bool := 1 < c.toNat

/-- The eight cells of a byte, bit 7 first (R120, 20_memory R53). -/
def byteBits (b : Byte) : List Byte := (List.range 8).map fun t => bitCell (b.getLsbD (7 - t))

/-- `bytesToBits` (R120). -/
def bytesToBits (bs : List Byte) : List Byte := bs.flatMap byteBits

/-- The g-th k-bit window of a stream as an integer, first bit most significant, zeros past the stream's end (R121, R122). -/
def window (k : Nat) (bits : List Byte) (g : Nat) : Nat :=
  (List.range k).foldl (fun v t => 2 * v + (bits.getD (k * g + t) 0).toNat) 0

/-- `bitsToBytes` (R121). -/
def bitsToBytes (bits : List Byte) : List Byte :=
  (List.range (cdiv bits.length 8)).map fun g => BitVec.ofNat 8 (window 8 bits g)

/-- `bitsToSymbols` as symbol codes: each window reduced mod IC (R122). -/
def bitsToSyms (k icount : Nat) (bits : List Byte) : List Byte :=
  (List.range (cdiv bits.length k)).map fun g => BitVec.ofNat 8 (window k bits g % icount)

/-- `expand(c, k)`: the k low-order bits of c mod IC, most significant first (R125). -/
def expand (icount k : Nat) (c : Byte) : List Byte :=
  (List.range k).map fun t => bitCell ((c.toNat % icount).testBit (k - 1 - t))

/-- What one symbol code adds to the stream: nothing for Filler (R123). -/
def symbolBits (icount k : Nat) (c : Byte) : List Byte :=
  match Symbol.ofCode c with
  | .filler => []
  | .data _ => expand icount k c

/-- Collection stops the instant the expected number of bits is there; AUTO expects no number (R123). -/
def collected (expected : Option Nat) (n : Nat) : Bool :=
  match expected with
  | some e => e ≤ n
  | none => false

/-- The reading loop of SYMS2BITS (R123): from `n` symbol codes at address `a`, each read only if bits are still wanted,
with the bits so far in `acc`. -/
def collectBits (p : Params) (m : Memory) (icount k : Nat) (expected : Option Nat) (n a d : Nat) (acc : List Byte) :
    Except Fault (List Byte × Nat) :=
  match n with
  | 0 => .ok (acc, d)
  | n + 1 =>
    if collected expected acc.length then .ok (acc, d)
    else
      match readByte p m d a with
      | .error f => .error f
      | .ok (c, d') => collectBits p m icount k expected n (a + 1) d' (acc ++ symbolBits icount k c)

/-- The bits that SYMS2BITS writes of those collected: the expected number, or with AUTO whole bytes only (R123, R126). -/
def keptBits (expected : Option Nat) (bits : List Byte) : List Byte :=
  match expected with
  | some e => bits.take e
  | none => bits.take (bits.length / 8 * 8)

/-- SHORT: fewer bits than expected were collected; with AUTO it stays as it was (R123, R127). -/
def State.flagShort (s : State) (expected : Option Nat) (n : Nat) : State :=
  match expected with
  | some e => s.setShort (decide (n < e))
  | none => s

/-- The expected bit count: A3, or none with AUTO (30_encoding R74). -/
def expectedBits (s : State) (auto : Bool) : Option Nat := if auto then none else some s.a3.toNat

/-! ## Commands -/

/-- `BYTES2BITS` (R120). -/
def execBytes2bits (s : State) : Result :=
  if !s.status.cfgValid then fail .config s
  else if !rangeOk .bytes2bits s then fail .range s
  else withPlaces s (places s.a0.toNat s.a1.toNat) fun bs t =>
    complete ((t.store t.a2.toNat (bytesToBits bs)).setR0 (toReg (8 * t.a1.toNat)))

/-- `BITS2BYTES` (R121). -/
def execBits2bytes (s : State) : Result :=
  if !s.status.cfgValid then fail .config s
  else if !rangeOk .bits2bytes s then fail .range s
  else withPlaces s (places s.a0.toNat s.a1.toNat) fun bits t =>
    if bits.any badCell then fail .format t
    else complete ((t.store t.a2.toNat (bitsToBytes bits)).setR0 (toReg (cdiv t.a1.toNat 8)))

/-- `BITS2SYMS` (R122, R124). -/
def execBits2syms (k : BitVec 4) (s : State) : Result :=
  if !s.status.cfgValid then fail .config s
  else
    match symbolWidth s.scheme.bps k with
    | none => fail .operand s
    | some w =>
      if !rangeOk (.bits2syms k) s then fail .range s
      else withPlaces s (places s.a0.toNat s.a1.toNat) fun bits t =>
        if bits.any badCell then fail .format t
        else complete ((t.store t.a2.toNat (bitsToSyms w t.scheme.icount bits)).setR0 (toReg (cdiv t.a1.toNat w)))

/-- `SYMS2BITS` (R123 to R127). -/
def execSyms2bits (k : BitVec 4) (auto : Bool) (s : State) : Result :=
  if !s.status.cfgValid then fail .config s
  else
    match symbolWidth s.scheme.bps k with
    | none => fail .operand s
    | some w =>
      if !rangeOk (.syms2bits k auto) s then fail .range s
      else
        let expected := expectedBits s auto
        match collectBits s.params s.dmem s.scheme.icount w expected s.a1.toNat s.a0.toNat s.draws [] with
        | .error f => .fault f
        | .ok (bits, d) =>
          let out := keptBits expected bits
          complete
            ((((s.setDraws d).store s.a2.toNat out).setR0 (toReg out.length)).flagShort expected bits.length)

end Sys2Proof.Machine
end

