-- ==== Sys2Proof/Machine/Fec.lean ====
section
/-! DEFINITION. The XOR FEC codec (43_fec). P is the payload, Q the redundancy, f = |Q|. -/

namespace Sys2Proof.Machine

/-! ## Functions of the codec -/

/-- The j-th contributor of block i: `(j*f + i) mod n` (R141). -/
def contributor (n f i j : Nat) : Nat := (j * f + i) % n

/-- The multiplicity of position x in block i: how many of the eight contributors it is (R141). -/
def blockMultiplicity (n f i x : Nat) : Nat := (List.range 8).countP fun j => contributor n f i j = x

/-- `red(P, f, i)`: the XOR of the payload bytes at the eight contributors of block i (R141). -/
def red (p : List Byte) (f i : Nat) : Byte :=
  (List.range 8).foldl (fun x j => x ^^^ p.getD (contributor p.length f i j) 0) 0

/-- All redundancy bytes of a payload (R141, R142). -/
def redundancy (p : List Byte) (f : Nat) : List Byte := (List.range f).map (red p f)

/-- `encode(payload, ratio)` at ratio R: the payload with its redundancy appended (R142). -/
def fecEncode (r : Nat) (p : List Byte) : List Byte := p ++ redundancy p (fecSize r p.length)

/-- Block i verifies: its redundancy byte recomputed equals the stored one. -/
def verifies (p q : List Byte) (i : Nat) : Bool := red p q.length i == q.getD i 0

/-- The mismatching indices in ascending order: the syndrome set before correction (R147), what is left after it (R149). -/
def mismatches (p q : List Byte) : List Nat := (List.range q.length).filter fun i => !verifies p q i

/-- Bit b of payload byte x flipped (R148 (b)). -/
def flipBit (p : List Byte) (x b : Nat) : List Byte := p.set x (p.getD x 0 ^^^ (1#8 <<< b))

/-- The flips tried for block i, in order: contributors j = 0 to 7, and within each the bits b = 0 to 7 (R148 (b)). -/
def candidates (n f i : Nat) : List (Nat × Nat) :=
  (List.range 8).flatMap fun j => (List.range 8).map fun b => (contributor n f i j, b)

/-- The search for one index: the first flip that fits is kept, and where none fits P is unchanged (R148 (b), (d)). -/
def searchFlip (p q : List Byte) (i : Nat) : List Byte :=
  match (candidates p.length q.length i).find? fun c => verifies (flipBit p c.1 c.2) q i with
  | some c => flipBit p c.1 c.2
  | none => p

/-- One index of the correction pass: skipped if FEC_SYNDROME_RECHECK = 1 and its block verifies now (R148 (a)). -/
def correctIndex (recheck : Bool) (q p : List Byte) (i : Nat) : List Byte :=
  if recheck && verifies p q i then p else searchFlip p q i

/-- Both phases of decoding: the syndrome pass fixes the indices, the correction pass works through them (R147, R148). -/
def fecCorrect (recheck : Bool) (p q : List Byte) : List Byte := (mismatches p q).foldl (correctIndex recheck q) p

/-- The diagnostic entries of the first d indices, 32-bit big-endian each (R150). -/
def diagnostics (indices : List Nat) (d : Nat) : List Byte := (indices.take d).flatMap fun i => bigEndian (toReg i)

/-! ## Commands -/

/-- `FEC_ENC` (R142). -/
def execFecEnc (s : State) : Result :=
  if !s.status.cfgValid then fail .config s
  else if !rangeOk .fecEnc s then fail .range s
  else withPlaces s (places s.a0.toNat s.a1.toNat) fun p t =>
    let out := fecEncode t.act.ratio.toNat p
    complete ((t.store t.a2.toNat out).setR0 (toReg (t.a1.toNat + fecSize t.act.ratio.toNat t.a1.toNat)))

/-- The copy path of FEC_DEC: the buffer unchanged, R1 = 0, ALLCORR = 1 (R143, R144). -/
def fecCopy (buf : List Byte) (s : State) : Result :=
  complete ((((s.store s.a2.toNat buf).setR0 s.a1).setR1 0).setAllCorr true)

/-- The correcting path of FEC_DEC, on a buffer whose first n bytes are the payload (R145, R147 to R150). -/
def fecRepair (n : Nat) (buf : List Byte) (s : State) : Result :=
  let q := buf.drop n
  let p := fecCorrect s.params.recheck (buf.take n) q
  let left := mismatches p q
  let d := min left.length s.act.maxWarn.toNat
  let stored := (s.store s.a2.toNat p).store s.a3.toNat (diagnostics left d)
  complete
    ((((stored.setR0 (toReg n)).setR1 (toReg d)).setAllCorr left.isEmpty).setOmitted
      (decide (s.act.maxWarn.toNat < left.length)))

/-- `FEC_DEC` (R143 to R150). -/
def execFecDec (s : State) : Result :=
  let m := s.a1.toNat
  let r := s.act.ratio.toNat
  if !s.status.cfgValid then fail .config s
  else if 5 ≤ m ∧ fecPayload r m = 0 then fail .domain s
  else if !rangeOk .fecDec s then fail .range s
  else withPlaces s (places s.a0.toNat m) fun buf t =>
    if fecCopies r m then fecCopy buf t else fecRepair (fecPayload r m) buf t

end Sys2Proof.Machine
end

