-- ==== Sys2Proof/Machine/Quantization.lean ====
section
/-! DEFINITION. The quantization scheme (41_quantization): its functions, CFG_COMMIT and the five queries. -/

namespace Sys2Proof.Machine

/-! ## Functions of the scheme -/

/-- IC: `cdiv(255 - F, L)` (R101). -/
def intervalCount (l f : Nat) : Nat := cdiv (255 - f) l

/-- BPS: `floor_log2(IC)` (R102). -/
def bitsPerSymbol (icount : Nat) : Nat := floorLog2 icount

/-- `anchor(i)`: the midpoint of interval i, which starts at F+1+i*L and stops at min(start+L-1, 255) (R103). -/
def anchor (q : Scheme) (i : Nat) : Nat :=
  let start := q.f + 1 + i * q.l
  start + (min (start + q.l - 1) 255 - start) / 2

/-- `isFiller(v)` (R104). -/
def isFiller (q : Scheme) (v : Nat) : Bool := v ≤ q.f

/-- `toSymbol(v)`, with the document's clamp (R105). -/
def toSymbol (q : Scheme) (v : Nat) : Symbol :=
  if isFiller q v then .filler else .data (min ((v - (q.f + 1)) / q.l) (q.icount - 1))

/-! ## CFG_COMMIT -/

/-- The staged configuration passes validation (R100): L ≠ 0, F ≠ 255, M ≠ 0 and at least two intervals. -/
def stagedLegal (c : Staged) : Bool :=
  c.l != 0 && c.filler != 255 && c.minDim != 0 && 2 ≤ intervalCount c.l.toNat c.filler.toNat

/-- The active configuration that a successful commit of the staged one makes (R100). -/
def activeOf (c : Staged) : Active where
  l := c.l
  filler := c.filler
  ratio := c.ratio
  maxWarn := c.maxWarn
  minDim := c.minDim
  icount := BitVec.ofNat 8 (intervalCount c.l.toNat c.filler.toNat)
  bps := BitVec.ofNat 3 (bitsPerSymbol (intervalCount c.l.toNat c.filler.toNat))

/-- The staged configuration made active (R100). -/
def State.activate (s : State) : State := { s with act := activeOf s.cfg }

/-- `CFG_COMMIT` (R100). A failed commit keeps ACT_* and clears CFG_VALID. -/
def execCfgCommit (s : State) : Result :=
  if stagedLegal s.cfg then complete (s.activate.setCfgValid true)
  else fail .config (s.setCfgValid false)

/-! ## Queries -/

/-- `Q_ICOUNT` (R106). -/
def execQIcount (s : State) : Result :=
  if !s.status.cfgValid then fail .config s
  else complete (s.setR0 (toReg s.scheme.icount))

/-- `Q_BPS` (R107). -/
def execQBps (s : State) : Result :=
  if !s.status.cfgValid then fail .config s
  else complete (s.setR0 (toReg s.scheme.bps))

/-- `Q_ANCHOR` (R108). -/
def execQAnchor (s : State) : Result :=
  if !s.status.cfgValid then fail .config s
  else if s.scheme.icount ≤ s.a0.toNat then fail .operand s
  else complete (s.setR0 (toReg (anchor s.scheme s.a0.toNat)))

/-- `Q_ISFILLER` (R109). -/
def execQIsfiller (s : State) : Result :=
  if !s.status.cfgValid then fail .config s
  else if 255 < s.a0.toNat then fail .operand s
  else complete (s.setR0 (if isFiller s.scheme s.a0.toNat then 1 else 0))

/-- `Q_TOSYMBOL` (R110). -/
def execQTosymbol (s : State) : Result :=
  if !s.status.cfgValid then fail .config s
  else if 255 < s.a0.toNat then fail .operand s
  else complete (s.setR0 ((toSymbol s.scheme s.a0.toNat).code.setWidth 32))

end Sys2Proof.Machine
end

