-- ==== Sys2Proof/Machine/PixelLayout.lean ====
section
/-! DEFINITION. The symbol/pixel layout engine (44_pixel_layout). -/

namespace Sys2Proof.Machine

/-! ## Functions -/

/-- The pixel byte a symbol code becomes: its anchor, or 0 for Filler (R171). -/
def pixelByte (q : Scheme) (c : Byte) : Byte :=
  match Symbol.ofCode c with
  | .filler => 0
  | .data i => BitVec.ofNat 8 (anchor q i)

/-- Channel c of pixel x after LAYOUT: symbol 3x + c for the first three channels, 0 where there is no such symbol and in
a fourth channel (R170, R171). The 3 is CFG_SPCG (10_state R26). -/
def channelByte (q : Scheme) (syms : List Byte) (x c : Nat) : Byte :=
  if c < 3 then
    match syms[3 * x + c]? with
    | some code => pixelByte q code
    | none => 0
  else 0

/-- The grid of n pixels and ch channels that LAYOUT writes: byte t is channel t mod ch of pixel t div ch (R170, R171). -/
def layoutBytes (q : Scheme) (ch n : Nat) (syms : List Byte) : List Byte :=
  (List.range (n * ch)).map fun t => channelByte q syms (t / ch) (t % ch)

/-- The byte offsets that EXTRACT looks at: channels 0 to 2 of each of n pixels (R172). -/
def channelOffsets (ch n : Nat) : List Nat := (List.range n).flatMap fun x => [x * ch, x * ch + 1, x * ch + 2]

/-- The places EXTRACT reads: an offset at or past the bytes there are is not read and counts as 0 (R172, R173). -/
def extractPlaces (base avail ch n : Nat) : List (Option Nat) :=
  (channelOffsets ch n).map fun o => if o < avail then some (base + o) else none

/-- The symbol codes of the channel values, three per pixel: a pixel all of whose three channels are filler-valued gives
three Fillers (R172). -/
def extractCodes (q : Scheme) : List Byte → List Byte
  | v₀ :: v₁ :: v₂ :: rest =>
    (if isFiller q v₀.toNat && isFiller q v₁.toNat && isFiller q v₂.toNat then
      [Symbol.filler.code, Symbol.filler.code, Symbol.filler.code]
     else [(toSymbol q v₀.toNat).code, (toSymbol q v₁.toNat).code, (toSymbol q v₂.toNat).code])
      ++ extractCodes q rest
  | _ => []

/-- `R[0] <- n` for LAYOUT's byte count. The one count that does not fit 32 bits, 2^32, leaves a free value in R0
(assumption 6). -/
def State.setCount (s : State) (n : Nat) : State :=
  if n < 2 ^ 32 then s.setR0 (toReg n) else (s.setR0 (Config.freeResult s.draws)).setDraws (s.draws + 1)

/-! ## Commands -/

/-- `LAYOUT` (R171). -/
def execLayout (ch : BitVec 4) (s : State) : Result :=
  if !s.status.cfgValid then fail .config s
  else if ¬ legalCh ch then fail .operand s
  else if pixelCount s < cdiv s.a1.toNat 3 then fail .capacity s
  else if !rangeOk (.layout ch) s then fail .range s
  else withPlaces s (places s.a0.toNat s.a1.toNat) fun syms t =>
    if syms.any (codeOutOfRange t.scheme.icount) then fail .format t
    else
      let n := pixelCount t
      complete ((t.store t.a2.toNat (layoutBytes t.scheme ch.toNat n syms)).setCount (n * ch.toNat))

/-- `EXTRACT` (R172, R173). -/
def execExtract (ch : BitVec 4) (s : State) : Result :=
  if !s.status.cfgValid then fail .config s
  else if ¬ legalCh ch then fail .operand s
  else if !rangeOk (.extract ch) s then fail .range s
  else
    let n := pixelCount s
    let total := n * ch.toNat
    withPlaces s (extractPlaces s.a0.toNat (min s.a1.toNat total) ch.toNat n) fun vs t =>
      complete
        (((t.store t.a2.toNat (extractCodes t.scheme vs)).setR0 (toReg (3 * n))).setAmbig
          (decide (t.a1.toNat ≠ total)))

end Sys2Proof.Machine
end

