-- ==== Sys2Proof/Machine/Planner.lean ====
section
/-! DEFINITION. The grid dimension planner (45_dimension_planner). -/

namespace Sys2Proof.Machine

/-- What PLAN computes (R190). -/
structure Grid where
  width : Nat
  height : Nat
  totalSymbols : Nat
  pixelsNeeded : Nat
deriving DecidableEq, Repr

/-- totalSymbols: `cdiv(8*n, BPS)` (R190). -/
def totalSymbols (bps n : Nat) : Nat := cdiv (8 * n) bps

/-- pixelsNeeded: `cdiv(T, 3)` (R190). -/
def pixelsNeeded (bps n : Nat) : Nat := cdiv (totalSymbols bps n) 3

/-- `planAdaptive` for n payload bytes (R190). -/
def planGrid (bps minDim n : Nat) : Grid :=
  let needed := pixelsNeeded bps n
  let w := max (ceilSqrt needed) minDim
  { width := w, height := max (cdiv needed w) minDim, totalSymbols := totalSymbols bps n, pixelsNeeded := needed }

/-- `PLAN` (R190). -/
def execPlan (s : State) : Result :=
  if !s.status.cfgValid then fail .config s
  else if 0x0FFFFFFF < s.a0.toNat then fail .operand s
  else
    let g := planGrid s.scheme.bps s.act.minDim.toNat s.a0.toNat
    complete
      ((((s.setR0 (toReg g.width)).setR1 (toReg g.height)).setR2 (toReg g.totalSymbols)).setR3 (toReg g.pixelsNeeded))

end Sys2Proof.Machine
end

