-- ==== Sys2Proof/Machine/Dispatch.lean ====
section
/-! DEFINITION. One arm per command (30_encoding R71): the engine's execution of a legal command (70_reset_and_hazards R256). -/

namespace Sys2Proof.Machine

def exec (i : Instr) (s : State) : Host.Outcome State Fault Refusal :=
  match i with
  | .cfgCommit => Sys2Proof.Machine.execCfgCommit s
  | .qIcount => Sys2Proof.Machine.execQIcount s
  | .qBps => Sys2Proof.Machine.execQBps s
  | .qAnchor => Sys2Proof.Machine.execQAnchor s
  | .qIsfiller => Sys2Proof.Machine.execQIsfiller s
  | .qTosymbol => Sys2Proof.Machine.execQTosymbol s
  | .bytes2bits => Sys2Proof.Machine.execBytes2bits s
  | .bits2bytes => Sys2Proof.Machine.execBits2bytes s
  | .bits2syms k => Sys2Proof.Machine.execBits2syms k s
  | .syms2bits k auto => Sys2Proof.Machine.execSyms2bits k auto s
  | .fecEnc => Sys2Proof.Machine.execFecEnc s
  | .fecDec => Sys2Proof.Machine.execFecDec s
  | .layout ch => Sys2Proof.Machine.execLayout ch s
  | .extract ch => Sys2Proof.Machine.execExtract ch s
  | .plan => Sys2Proof.Machine.execPlan s

end Sys2Proof.Machine
end

