-- ==== Sys2Proof/Machine/HostPort.lean ====
section
/-! DEFINITION. The host's side: its interactions with the block (70_reset_and_hazards R255), the protocol violations
(R258), and whose turn it is (R256). -/

namespace Sys2Proof.Machine

/-- The register a host access names, or the violation it is (10_state R20). Where an access breaks several rules at once,
the first of width, alignment and map is named (assumption 7). -/
def accessedReg (width offset : Nat) : Except Fault Reg :=
  if width ≠ 32 then .error (.regWidth width)
  else if offset % 4 ≠ 0 then .error (.regMisaligned offset)
  else
    match Reg.ofOffset offset with
    | some r => .ok r
    | none => .error (.regUnmapped offset)

/-- What a read returned, added to what the host has got back. -/
def State.reply (s : State) (v : Reply) : State := { s with replies := s.replies ++ [v] }

/-- A host register read: allowed always, BUSY or not (R255, R257). -/
def hostRegRead (width offset : Nat) (s : State) : Result :=
  match accessedReg width offset with
  | .error f => .fault f
  | .ok r => .next (s.reply (.reg (readReg s r)))

/-- A host register write, CMD included: only while BUSY = 0 (R255, R257). -/
def hostRegWrite (width offset : Nat) (v : Word) (s : State) : Result :=
  match accessedReg width offset with
  | .error f => .fault f
  | .ok r => if s.status.busy then .fault .regWriteBusy else .next (writeReg s r v)

/-- `HostMemRead(addr)` (20_memory R52): only while BUSY = 0 and inside DMEM. -/
def hostMemRead (a : Nat) (s : State) : Result :=
  if s.status.busy then .fault .dmemBusy
  else if s.params.dmemSize ≤ a then .fault (.dmemOutOfRange a)
  else
    match readByte s.params s.dmem s.draws a with
    | .error f => .fault f
    | .ok (b, d) => .next ((s.setDraws d).reply (.mem b))

/-- `HostMemWrite(addr, b)` (20_memory R52): only while BUSY = 0 and inside DMEM. -/
def hostMemWrite (a : Nat) (b : Byte) (s : State) : Result :=
  if s.status.busy then .fault .dmemBusy
  else if s.params.dmemSize ≤ a then .fault (.dmemOutOfRange a)
  else .next (s.setDmem (s.dmem.write a b))

/-- One turn of `WAIT` (30_encoding R79): read STATUS, and go round again while bit 0 is 1. -/
def hostWait (s : State) : Result :=
  let polled := s.reply (.reg s.status.toWord)
  .next (if s.status.busy then { polled with hostOps := .wait :: polled.hostOps } else polled)

/-- One host interaction, taken off the list (R255). -/
def hostAct (op : HostOp) (s : State) : Result :=
  match op with
  | .regRead width offset => hostRegRead width offset s
  | .regWrite width offset v => hostRegWrite width offset v s
  | .memRead a => hostMemRead a s
  | .memWrite a b => hostMemWrite a b s
  | .wait => hostWait s
  | .reset => .next s.resetSignal

/-- The host's step: the first interaction of its list. -/
def hostStep (s : State) : Result :=
  match s.hostOps with
  | [] => .next s
  | op :: rest => hostAct op { s with hostOps := rest }

/-- Whose turn it is, and the state with that choice used up. The engine is enabled exactly when BUSY = 1 (R256), the host
while it has an interaction left; where both are, `turns` says, and the engine moves once `turns` is empty: every finite
delay of the engine is some `turns`, and the engine always moves in the end (weak fairness; assumption 2). -/
def nextTurn (s : State) : Option Agent × State :=
  match s.status.busy, s.hostOps with
  | false, [] => (none, s)
  | false, _ :: _ => (some .host, s)
  | true, [] => (some .engine, s)
  | true, _ :: _ =>
    match s.turns with
    | [] => (some .engine, s)
    | t :: rest => (some t, { s with turns := rest })

/-- The block with a host's interactions and the order of turns placed. -/
def State.withHost (s : State) (ops : List HostOp) (turns : List Agent) : State :=
  { s with hostOps := ops, turns := turns }

/-! ## Host notation (30_encoding R78, R79) -/

/-- `WR <reg>, <v>`. -/
def wr (r : Reg) (v : Word) : HostOp := .regWrite 32 r.offset v

/-- `RD <reg>`. -/
def rd (r : Reg) : HostOp := .regRead 32 r.offset

/-- `MWR <addr>, b0 b1 ...`. -/
def mwr (a : Nat) : List Byte → List HostOp
  | [] => []
  | b :: bs => .memWrite a b :: mwr (a + 1) bs

/-- `MRD <addr>, <n>`. -/
def mrd (a n : Nat) : List HostOp := (List.range' a n).map .memRead

/-- `EXEC <cmd>, a0=v0, ...`: the operands listed, the CMD write, WAIT. -/
def execOps (word : Word) (operands : List (Reg × Word)) : List HostOp :=
  operands.map (fun o => wr o.1 o.2) ++ [wr .cmd word, .wait]

/-- `CONFIGURE L, F, R, W, M`; the last word is CFG_COMMIT's (41_quantization R100). -/
def configureOps (l f r w m : Word) : List HostOp :=
  [wr .cfgL l, wr .cfgFiller f, wr .cfgRatio r, wr .cfgMaxwarn w, wr .cfgMindim m, wr .cmd 0x00000001, .wait]

end Sys2Proof.Machine
end

