-- ==== Sys2Proof/Machine/Step.lean ====
section
/-! DEFINITION. One step of the block and its host (00_scope R3). -/

namespace Sys2Proof.Machine

/-- The engine's step (70_reset_and_hazards R256): the command latched in CMD, or ERR_ILLEGAL for an illegal word
(60_exceptions R221). -/
def engineStep (s : State) : Result :=
  match decode s.cmd with
  | .error _ => fail .illegal s
  | .ok i => exec i s

/-- One step: the agent whose turn it is acts. Where neither is enabled the block is idle and nothing changes
(70_reset_and_hazards R253, R254; assumption 3). -/
def step (s : State) : Host.Outcome State Fault Refusal :=
  match nextTurn s with
  | (none, t) => .next t
  | (some .host, t) => hostStep t
  | (some .engine, t) => engineStep t

/-- The state in which the very next step executes the given word: as a host's CMD write leaves it (10_state R33), with the
engine to move (assumption 9). -/
def State.withFetchWord (s : State) (nbits w : Nat) : State :=
  { s.startCommand (BitVec.ofNat 32 (w % 2 ^ nbits)) with turns := [] }

end Sys2Proof.Machine
end

