-- ==== Sys2Proof/Machine/Flows.lean ====
section
/-! DEFINITION. The encode and decode flows (46_flows): the host command sequences, each command run to the end of its WAIT
before the host picks the operands of the next. -/

namespace Sys2Proof.Machine

/-- What comes after a next state; a fault or a refusal ends the sequence. -/
def andThen (o : Result) (k : State → Result) : Result :=
  match o with
  | .next s => k s
  | .fault f => .fault f
  | .refused r => .refused r

/-- The host's writes of operand registers, in order (30_encoding R79). -/
def writeOperands (s : State) : List (Reg × Word) → Result
  | [] => .next s
  | o :: rest => andThen (hostRegWrite 32 o.1.offset o.2 s) fun t => writeOperands t rest

/-- `EXEC <cmd>, a0=v0, ...` (30_encoding R79) at a host that then waits: the operand writes, the CMD write, and the
engine's step that WAIT waits for (assumption 16). -/
def runCommand (i : Instr) (operands : List (Reg × Word)) (s : State) : Result :=
  andThen (writeOperands s operands) fun t =>
    andThen (hostRegWrite 32 Reg.cmd.offset (encode i) t) engineStep

/-- The next command of a flow. A command that ended with an error ends the flow there (assumption 16). -/
def flowStep (i : Instr) (operands : List (Reg × Word)) (s : State) (k : State → Result) : Result :=
  andThen (runCommand i operands s) fun t => if t.status.err = .none then k t else .next t

/-- The encode flow (46_flows R200): n payload bytes at x become pixels at px, by way of the FEC buffer at fb, its bit cells
at bt and its symbols at sy. `ch` is the image writer's channel count. -/
def encodeFlow (ch : BitVec 4) (x n fb bt sy px : Word) (s : State) : Result :=
  flowStep .fecEnc [(.a0, x), (.a1, n), (.a2, fb)] s fun s₁ =>
  let m := s₁.r0
  flowStep .bytes2bits [(.a0, fb), (.a1, m), (.a2, bt)] s₁ fun s₂ =>
  flowStep (.bits2syms 0) [(.a0, bt), (.a1, s₂.r0), (.a2, sy)] s₂ fun s₃ =>
  let total := s₃.r0
  flowStep .plan [(.a0, m)] s₃ fun s₄ =>
  flowStep (.layout ch) [(.a0, sy), (.a1, total), (.a2, px), (.a3, s₄.r0), (.a4, s₄.r1)] s₄ fun s₅ => .next s₅

/-- The decode flow (46_flows R201): plen pixel bytes at px of a w by h grid become the payload at out, by way of the
symbols at sy, the bit cells at bt and the FEC buffer at bf; the diagnostics go to dg. -/
def decodeFlow (ch : BitVec 4) (px plen w h sy bt bf out dg : Word) (s : State) : Result :=
  flowStep (.extract ch) [(.a0, px), (.a1, plen), (.a2, sy), (.a3, w), (.a4, h)] s fun s₁ =>
  flowStep (.syms2bits 0 true) [(.a0, sy), (.a1, s₁.r0), (.a2, bt)] s₁ fun s₂ =>
  flowStep .bits2bytes [(.a0, bt), (.a1, s₂.r0), (.a2, bf)] s₂ fun s₃ =>
  flowStep .fecDec [(.a0, bf), (.a1, s₃.r0), (.a2, out), (.a3, dg)] s₃ fun s₄ => .next s₄

end Sys2Proof.Machine
end

