-- ==== Sys2Proof/Safety.lean ====
section
/-! DEFINITION. The terms claims are stated in: the invariants of the machine, what a command can read, what it stores,
what the FEC correction pass does, and how a run ends. -/

namespace Sys2Proof.Machine

/-! ## Invariants -/

/-- The active configuration is that of a staged one that passes validation (41_quantization R100). -/
def Active.Committed (a : Active) : Prop := ∃ c : Staged, stagedLegal c = true ∧ a = activeOf c

/-- ACT_* hold the reset values or a committed configuration, and the latter while CFG_VALID = 1 (10_state R27, R34). -/
def State.ConfigInv (s : State) : Prop :=
  (s.act = State.reset.act ∨ s.act.Committed) ∧ (s.status.cfgValid = true → s.act.Committed)

/-- The four result flags are 0 (10_state R33). -/
def Status.FlagsClear (st : Status) : Prop :=
  st.allCorr = false ∧ st.omitted = false ∧ st.short = false ∧ st.ambig = false

/-- While BUSY = 1 the STATUS writes of the CMD write stand (10_state R33), and a command that ended with an error leaves
the flags 0 (R35). -/
def Status.Inv (st : Status) : Prop :=
  (st.busy = true → st.err = .none ∧ st.FlagsClear) ∧ (st.err ≠ .none → st.FlagsClear)

/-- DMEM is in canonical form and holds only addresses that exist (20_memory R50). -/
def State.MemoryInv (s : State) : Prop := s.dmem.wf ∧ ∀ c ∈ s.dmem, c.1 < s.params.dmemSize

/-- What holds at reset and is kept by every step. -/
def State.Inv (s : State) : Prop := s.params.Legal ∧ s.MemoryInv ∧ s.ConfigInv ∧ s.status.Inv

/-! ## Reads -/

/-- A read of the address is no fault: something has written it, or UNWRITTEN_READ is `any` (20_memory R51). -/
def State.Readable (s : State) (a : Nat) : Prop := s.dmem.read a ≠ none ∨ s.params.unwritten = .any

/-- Every byte of a command's input regions is readable (70_reset_and_hazards R252, step 4). -/
def InputsReadable (i : Instr) (s : State) : Prop := ∀ g ∈ inputRegions i s, ∀ a, g.has a = true → s.Readable a

/-- DMEM holds the bytes from an address up. -/
def Memory.Holds (m : Memory) (a : Nat) (bs : List Byte) : Prop :=
  ∀ i, (h : i < bs.length) → m.read (a + i) = some bs[i]

/-! ## Stores -/

/-- The addresses a command stored to, given the state it left: its output regions, but for SYMS2BITS only the cells that R0
counts (42_bit_packing R123), and of FEC_DEC's diagnostics only the entries that R1 counts (43_fec R150). -/
def storedRegions (i : Instr) (s t : State) : List Region :=
  match i with
  | .syms2bits _ _ => [{ base := s.a2.toNat, len := t.r0.toNat }]
  | .fecDec => [{ base := s.a2.toNat, len := t.r0.toNat }, { base := s.a3.toNat, len := 4 * t.r1.toNat }]
  | i => outputRegions i s

/-- No stored byte lies at the address. -/
def NotStored (i : Instr) (s t : State) (a : Nat) : Prop := ∀ g ∈ storedRegions i s t, g.has a = false

/-! ## Errors -/

/-- The operand check of a command (60_exceptions R225). -/
def operandOk (i : Instr) (s : State) : Prop :=
  match i with
  | .qAnchor => s.a0.toNat < s.act.icount.toNat
  | .qIsfiller | .qTosymbol => s.a0.toNat ≤ 255
  | .bits2syms k | .syms2bits k _ => legalK k
  | .layout ch | .extract ch => legalCh ch
  | .plan => s.a0.toNat ≤ 0x0FFFFFFF
  | .cfgCommit | .qIcount | .qBps | .bytes2bits | .bits2bytes | .fecEnc | .fecDec => True

/-- The capacity check of LAYOUT (60_exceptions R228). -/
def capacityOk (i : Instr) (s : State) : Prop :=
  match i with
  | .layout _ => cdiv s.a1.toNat 3 ≤ s.a3.toNat * s.a4.toNat
  | _ => True

/-- The domain check of FEC_DEC (60_exceptions R229). -/
def domainOk (i : Instr) (s : State) : Prop :=
  match i with
  | .fecDec => s.a1.toNat < 5 ∨ fecPayload s.act.ratio.toNat s.a1.toNat ≠ 0
  | _ => True

/-- The checks of a command that depend on registers alone, all passed: numbers 2 to 6 of 60_exceptions R223. -/
def ChecksPass (i : Instr) (s : State) : Prop :=
  s.status.cfgValid = true ∧ operandOk i s ∧ capacityOk i s ∧ domainOk i s ∧ rangeOk i s = true

/-- The end of a command with the given error and nothing else (60_exceptions R224). -/
def FailsWith (i : Instr) (s : State) (e : ErrCode) : Prop := exec i s = .next (s.finish e)

/-! ## The correction pass of FEC_DEC -/

/-- What the correction pass does to the payload at one index i of the syndrome set (43_fec R148): with RECHECK an index
whose block verifies by then is skipped; otherwise the first flip that makes the block verify is kept, in the order of j
and within it of b, and where none does the payload stays. -/
def CorrectionStep (recheck : Bool) (q : List Byte) (i : Nat) (p p' : List Byte) : Prop :=
  let f := q.length
  let flipped := fun j b => flipBit p ((j * f + i) % p.length) b
  if recheck = true ∧ red p f i = q.getD i 0 then p' = p
  else
    (∃ j b, j < 8 ∧ b < 8 ∧ red (flipped j b) f i = q.getD i 0 ∧
      (∀ j' b', j' < 8 → b' < 8 → j' < j ∨ (j' = j ∧ b' < b) → red (flipped j' b') f i ≠ q.getD i 0) ∧
      p' = flipped j b) ∨
    ((∀ j b, j < 8 → b < 8 → red (flipped j b) f i ≠ q.getD i 0) ∧ p' = p)

/-- The correction pass over a list of indices, one after the other, each on the payload the one before it left (43_fec
R147, R148). -/
def CorrectionRun (recheck : Bool) (q : List Byte) : List Nat → List Byte → List Byte → Prop
  | [], p, p' => p' = p
  | i :: rest, p, p' => ∃ p₁, CorrectionStep recheck q i p p₁ ∧ CorrectionRun recheck q rest p₁ p'

/-! ## Runs -/

/-- A run has ended: the host has no interaction left and the engine has no enabled step (70_reset_and_hazards R254). -/
def State.Ended (s : State) : Prop := s.hostOps = [] ∧ s.status.busy = false

end Sys2Proof.Machine
end

