-- ==== Sys2Proof/Certificates/Slice0/Obligations.lean ====
section
/-! DEFINITION. The statements for the provers, from the spec's numbered rules. Each docstring names the rule. -/

open Sys2Proof Sys2Proof.Machine

/-! ## Command words (30_encoding) -/

/-- R70, R71, R77: a word decodes to a command exactly when it is that command's word; no bit of an encoding is dropped. -/
def Obligations.DecodeInvertsEncode : Prop :=
  ∀ (w : Word) (i : Instr), decode w = .ok i ↔ encode i = w

/-- R75: the illegal words are those of the rule's five cases, and each ends with ERR_ILLEGAL before any other check. -/
def Obligations.IllegalWordsEndWithErrIllegal : Prop :=
  (∀ w : Word, (∃ r, decode w = .error r) ↔
    (w.extractLsb' 0 8 ∉ ([0x01, 0x10, 0x11, 0x12, 0x13, 0x14, 0x20, 0x21, 0x22, 0x23, 0x30, 0x31, 0x40, 0x41, 0x50] :
        List (BitVec 8))
      ∨ w.extractLsb' 17 15 ≠ 0
      ∨ (w.extractLsb' 8 4 ≠ 0 ∧ w.extractLsb' 0 8 ≠ 0x22 ∧ w.extractLsb' 0 8 ≠ 0x23)
      ∨ (w.extractLsb' 12 4 ≠ 0 ∧ w.extractLsb' 0 8 ≠ 0x40 ∧ w.extractLsb' 0 8 ≠ 0x41)
      ∨ (w.getLsbD 16 = true ∧ w.extractLsb' 0 8 ≠ 0x23))) ∧
  ∀ (s : State) (r : IllegalWord), decode s.cmd = .error r →
    engineStep s = .next { s with status := { s.status with busy := false, err := .illegal } }

/-- R77: a legal word matches its command's row of the opcode table, a word that matches a row decodes to that row's
command, and no word matches two rows. -/
def Obligations.TableRowsSelectCommands : Prop :=
  ∀ w : Word,
    (∀ i : Instr, decode w = .ok i → w &&& i.tableRow.1 = i.tableRow.2) ∧
    (∀ i : Instr, w &&& i.tableRow.1 = i.tableRow.2 → ∃ j : Instr, decode w = .ok j ∧ j.tableRow = i.tableRow) ∧
    (∀ i j : Instr, w &&& i.tableRow.1 = i.tableRow.2 → w &&& j.tableRow.1 = j.tableRow.2 → i.tableRow = j.tableRow)

/-- Words written out from 30_encoding R70 and R71 (some are those of 95_test_vectors V-ENC). -/
def Obligations.WordsFromTheSpecDecode : Prop :=
  decode 0x00000001 = .ok .cfgCommit ∧ decode 0x00000014 = .ok .qTosymbol ∧
  decode 0x00000522 = .ok (.bits2syms 5) ∧ decode 0x00010323 = .ok (.syms2bits 3 true) ∧
  decode 0x00000030 = .ok .fecEnc ∧ decode 0x00003040 = .ok (.layout 3) ∧ decode 0x00004041 = .ok (.extract 4) ∧
  decode 0x00000050 = .ok .plan ∧ decode 0x00000000 = .error .unassignedOp ∧ decode 0x00020020 = .error .reservedBits ∧
  decode 0x00000130 = .error .strayK ∧ decode 0x00003050 = .error .strayCh ∧ decode 0x00010022 = .error .strayAuto

/-! ## Steps (00_scope R3, 70_reset_and_hazards) -/

/-- R256: a step of a busy block is the latched command's execution when the engine's turn is: because the host has nothing
to do, or no turn is left to it, or the next turn is the engine's. -/
def Obligations.StepRunsTheLatchedCommand : Prop :=
  ∀ (s : State) (i : Instr), s.status.busy = true → decode s.cmd = .ok i →
    (s.hostOps = [] ∨ s.turns = [] → step s = exec i s) ∧
    (∀ rest, s.hostOps ≠ [] → s.turns = .engine :: rest → step s = exec i { s with turns := rest })

/-- R255: a step of the host is the first interaction of its list, in its program order. The list is the model's own form
of the host (assumptions 1 and 2). -/
def Obligations.HostActsInProgramOrder : Prop :=
  ∀ (s : State) (op : HostOp) (rest : List HostOp), s.hostOps = op :: rest →
    (s.status.busy = false → step s = hostAct op { s with hostOps := rest }) ∧
    (∀ ts, s.status.busy = true → s.turns = .host :: ts → step s = hostAct op { s with hostOps := rest, turns := ts })

/-- R253, R254: where a run has ended no agent has a step, which the model renders as a step that changes nothing
(assumption 3). -/
def Obligations.EndedRunStays : Prop := ∀ s : State, s.Ended → step s = .next s

/-- R256: a host that waits while the engine is delayed polls STATUS once a turn and changes nothing else, and after at most
as many polls as there are turns (assumption 2) the engine's step comes; once it has happened the next step is a poll that
ends the wait. R79: a poll with BUSY = 0 takes WAIT off the host's list. -/
def Obligations.WaitEndsWithTheEngineStep : Prop :=
  ∀ (s : State) (rest : List HostOp), s.hostOps = .wait :: rest →
    (s.status.busy = true →
      ∃ (k : Nat) (u : State), k ≤ s.turns.length ∧ Host.Core.run Sys2Proof.core k s = .next u ∧
        step u = engineStep { s with replies := s.replies ++ List.replicate k (.reg s.status.toWord),
                                     turns := s.turns.drop (k + 1) } ∧
        ∀ t, step u = .next t → t.status.busy = false ∧
          step t = .next { t with hostOps := rest, replies := t.replies ++ [.reg t.status.toWord] }) ∧
    (s.status.busy = false → step s = .next { s with hostOps := rest, replies := s.replies ++ [.reg s.status.toWord] })

/-! ## Reset -/

/-- R250: after reset, whatever the parameters, every register reads 0, except CFG_SPCG, which reads 3; BUSY, CFG_VALID, ERR
and the flags are 0; every DMEM byte is unwritten, so that reading one follows UNWRITTEN_READ. -/
def Obligations.ResetRegistersAndMemory : Prop :=
  State.reset = State.resetWith Params.default ∧
  ∀ p : Params, (∀ r : Reg, readReg (State.resetWith p) r = if r = .cfgSpcg then 3 else 0) ∧
    ((State.resetWith p).status.busy = false ∧ (State.resetWith p).status.cfgValid = false ∧
      (State.resetWith p).status.err = .none ∧ (State.resetWith p).status.FlagsClear) ∧
    ∀ a, (State.resetWith p).dmem.read a = none ∧
      (a < p.dmemSize → p.unwritten = .fault → hostAct (.memRead a) (State.resetWith p) = .fault (.unwrittenRead a)) ∧
      (a < p.dmemSize → p.unwritten = .any → ∃ c t, hostAct (.memRead a) (State.resetWith p) = .next t ∧ t.replies = [.mem c])

/-- R251: a reset takes effect BUSY or not; a pending command is discarded, every register takes its reset value and every
DMEM byte is unwritten. That the host then goes on with the rest of its list and the parameters stay is assumption 19
(DESIGN CHOICE); that the host is the one to move while BUSY = 1 is assumption 2 (DESIGN CHOICE). -/
def Obligations.ResetDiscardsTheCommand : Prop :=
  ∀ (s : State) (rest : List HostOp) (ts : List Agent), s.hostOps = .reset :: rest →
    (s.status.busy = false ∨ s.turns = .host :: ts) →
    ∃ t, step s = .next t ∧ (∀ r : Reg, readReg t r = if r = .cfgSpcg then 3 else 0) ∧
      (∀ a, t.dmem.read a = none) ∧ t.params = s.params ∧ t.hostOps = rest

/-! ## Invariants -/

/-- The invariant holds after reset, whatever the legal parameters (R250, R8). -/
def Obligations.ResetMeetsTheInvariant : Prop := ∀ p : Params, p.Legal → (State.resetWith p).Inv

/-- Every step keeps the invariant: DMEM's canonical form and its bounds, a committed configuration behind CFG_VALID, the
flags of a running or failed command 0 (R27, R33, R34, R35, R50). -/
def Obligations.StepKeepsTheInvariant : Prop := ∀ s t : State, s.Inv → step s = .next t → t.Inv

/-- R8: the hardware parameters are arguments of the model; no step changes them. -/
def Obligations.ParametersNeverChange : Prop := ∀ s t : State, step s = .next t → t.params = s.params

/-- R34, with R27: only CFG_COMMIT writes CFG_VALID, 1 where it succeeds and 0 where it fails, and only one that succeeds writes
the active registers; reset aside. While CFG_VALID = 0 every other command ends with ERR_CONFIG. -/
def Obligations.OnlyCommitChangesTheConfiguration : Prop :=
  (∀ (i : Instr) (s : State), i ≠ .cfgCommit → s.status.cfgValid = false → FailsWith i s .config) ∧
  (∀ s t : State, exec .cfgCommit s = .next t → t.status.cfgValid = stagedLegal s.cfg) ∧
  ∀ s t : State, step s = .next t → ¬ ((nextTurn s).1 = some .host ∧ s.hostOps.head? = some .reset) →
    (t.act ≠ s.act → s.status.busy = true ∧ decode s.cmd = .ok .cfgCommit ∧ stagedLegal s.cfg = true ∧
      t.act = activeOf s.cfg ∧ t.status.cfgValid = true) ∧
    (t.status.cfgValid ≠ s.status.cfgValid → s.status.busy = true ∧ decode s.cmd = .ok .cfgCommit ∧
      t.status.cfgValid = stagedLegal s.cfg)

/-! ## Frames of every command -/

/-- R29, R30: no command writes CMD, an operand register or a staged register; it ends with BUSY = 0; the model's own fields
for the host stay. -/
def Obligations.CommandsLeaveHostRegisters : Prop :=
  ∀ (i : Instr) (s t : State), exec i s = .next t →
    t.cmd = s.cmd ∧ t.a0 = s.a0 ∧ t.a1 = s.a1 ∧ t.a2 = s.a2 ∧ t.a3 = s.a3 ∧ t.a4 = s.a4 ∧ t.cfg = s.cfg ∧
    t.params = s.params ∧ t.hostOps = s.hostOps ∧ t.turns = s.turns ∧ t.replies = s.replies ∧
    t.status.busy = false ∧ (i ≠ .cfgCommit → t.act = s.act ∧ t.status.cfgValid = s.status.cfgValid)

/-- R31: only a command that completes with ERR = 0 writes result registers, and exactly those its rule lists. -/
def Obligations.ResultRegistersWrittenOnlyAsListed : Prop :=
  ∀ (i : Instr) (s t : State), exec i s = .next t →
    (t.status.err ≠ .none → t.r0 = s.r0 ∧ t.r1 = s.r1 ∧ t.r2 = s.r2 ∧ t.r3 = s.r3) ∧
    (i = .cfgCommit → t.r0 = s.r0) ∧
    (i ≠ .fecDec → i ≠ .plan → t.r1 = s.r1) ∧
    (i ≠ .plan → t.r2 = s.r2 ∧ t.r3 = s.r3)

/-- R36: ALLCORR and OMITTED are written only by FEC_DEC, SHORT only by SYMS2BITS, AMBIG only by EXTRACT; every other command
leaves all four at the 0 that the CMD write gave them. -/
def Obligations.FlagsWrittenOnlyByTheirCommands : Prop :=
  ∀ (i : Instr) (s t : State), exec i s = .next t →
    (i ≠ .fecDec → t.status.allCorr = s.status.allCorr ∧ t.status.omitted = s.status.omitted) ∧
    ((∀ k auto, i ≠ .syms2bits k auto) → t.status.short = s.status.short) ∧
    ((∀ ch, i ≠ .extract ch) → t.status.ambig = s.status.ambig) ∧
    (s.status.FlagsClear → i ≠ .fecDec → (∀ k auto, i ≠ .syms2bits k auto) → (∀ ch, i ≠ .extract ch) →
      t.status.FlagsClear)

/-- The frame of memory: a command changes no byte outside those it stores to (the regions its rule names; of SYMS2BITS the
cells R0 counts; of FEC_DEC's diagnostics the entries R1 counts). -/
def Obligations.MemoryChangesOnlyWhereStored : Prop :=
  ∀ (i : Instr) (s t : State), s.params.Legal → exec i s = .next t →
    ∀ a, NotStored i s t a → t.dmem.read a = s.dmem.read a

/-- R224: a command that fails, an illegal word among them, has no effect but STATUS: it sets ERR and clears BUSY, leaves the
flags as its CMD write left them, and a failed CFG_COMMIT also clears CFG_VALID. The count of free values drawn, which is the
model's own and no state of the hardware, is left open (assumption 5). -/
def Obligations.FailedCommandsChangeOnlyStatus : Prop :=
  (∀ (i : Instr) (s t : State), exec i s = .next t → t.status.err ≠ .none →
    t = { s with
      status := { s.status with busy := false, err := t.status.err,
                                cfgValid := if i = .cfgCommit then false else s.status.cfgValid }
      draws := t.draws }) ∧
  ∀ (s : State) (r : IllegalWord), decode s.cmd = .error r →
    engineStep s = .next { s with status := { s.status with busy := false, err := .illegal } }

/-! ## Where a command stops, fails or completes -/

/-- R51: no command is refused, and the only fault of a command is a read of an unwritten byte of its input, under
UNWRITTEN_READ = fault. -/
def Obligations.CommandsFaultOnlyAtUnwrittenBytes : Prop :=
  ∀ (i : Instr) (s : State),
    (∀ r, exec i s ≠ .refused r) ∧
    ∀ f, exec i s = .fault f → s.params.unwritten = .fault ∧
      ∃ a, f = .unwrittenRead a ∧ s.dmem.read a = none ∧ ∃ g ∈ inputRegions i s, g.has a = true

/-- R252 step 4, R256: a command whose input bytes are all readable ends, with BUSY = 0. -/
def Obligations.CommandsEndWhenInputsAreReadable : Prop :=
  ∀ (i : Instr) (s : State), InputsReadable i s → ∃ t, exec i s = .next t ∧ t.status.busy = false

/-- R223: a command reports the first check that fails, in the order ILLEGAL, CONFIG, OPERAND, CAPACITY, DOMAIN, RANGE,
FORMAT, and one that passes them all ends with no error. -/
def Obligations.FirstFailingCheckIsReported : Prop :=
  (∀ (s : State) (r : IllegalWord), decode s.cmd = .error r → engineStep s = .next (s.finish .illegal)) ∧
  (∀ s : State, stagedLegal s.cfg = false → exec .cfgCommit s = .next ((s.setCfgValid false).finish .config)) ∧
  ∀ (i : Instr) (s : State), i ≠ .cfgCommit →
    (s.status.cfgValid = false → FailsWith i s .config) ∧
    (s.status.cfgValid = true →
      (¬ operandOk i s → FailsWith i s .operand) ∧
      (operandOk i s →
        (¬ capacityOk i s → FailsWith i s .capacity) ∧
        (capacityOk i s →
          (¬ domainOk i s → FailsWith i s .domain) ∧
          (domainOk i s →
            (rangeOk i s = false → FailsWith i s .range) ∧
            (rangeOk i s = true → ∀ t, exec i s = .next t → t.status.err = .none ∨ t.status.err = .format)))))

/-- R227: the input formats. BITS2BYTES and BITS2SYMS end with ERR_FORMAT exactly when a cell is neither 0 nor 1, LAYOUT
exactly when a code c has IC ≤ c ≤ 0xFE, and no other command ever. -/
def Obligations.BadInputEndsWithErrFormat : Prop :=
  (∀ (i : Instr) (s t : State), i ≠ .bits2bytes → (∀ k, i ≠ .bits2syms k) → (∀ ch, i ≠ .layout ch) →
    exec i s = .next t → t.status.err ≠ .format) ∧
  ∀ (i : Instr) (s : State) (bs : List Byte), ChecksPass i s → s.dmem.Holds s.a0.toNat bs → bs.length = s.a1.toNat →
    ((i = .bits2bytes ∨ ∃ k, i = .bits2syms k) →
      (FailsWith i s .format ↔ ∃ c ∈ bs, c ≠ 0 ∧ c ≠ 1)) ∧
    (∀ ch, i = .layout ch →
      (FailsWith i s .format ↔ ∃ c ∈ bs, s.act.icount.toNat ≤ c.toNat ∧ c.toNat ≤ 0xFE))

/-- R57: a command whose earlier checks pass ends with ERR_RANGE exactly if a region with len > 0 ends past DMEM, an output
shares an address with an input, or two outputs share one. -/
def Obligations.RegionCheckMeansDisjoint : Prop :=
  ∀ (i : Instr) (s : State), i ≠ .cfgCommit → s.status.cfgValid = true → operandOk i s → capacityOk i s → domainOk i s →
    (FailsWith i s .range ↔
      (∃ g ∈ inputRegions i s ++ outputRegions i s, 0 < g.len ∧ s.params.dmemSize < g.base + g.len) ∨
      (∃ o ∈ outputRegions i s, ∃ g ∈ inputRegions i s, ∃ a, o.has a = true ∧ g.has a = true) ∨
      ¬ (outputRegions i s).Pairwise fun g h => ¬ ∃ a, g.has a = true ∧ h.has a = true)

/-! ## Quantization (41_quantization) -/

/-- R100: CFG_COMMIT makes a valid staged configuration active, with its interval count and bits per symbol, and writes nothing
else; an invalid one gives ERR_CONFIG, clears CFG_VALID and leaves ACT_* alone, so that every other command ends with
ERR_CONFIG. -/
def Obligations.CommitValidatesAndActivates : Prop :=
  decode 0x00000001 = .ok .cfgCommit ∧ ∀ s : State,
    (s.cfg.l ≠ 0 ∧ s.cfg.filler ≠ 255 ∧ s.cfg.minDim ≠ 0 ∧ 2 ≤ cdiv (255 - s.cfg.filler.toNat) s.cfg.l.toNat →
      ∃ t, exec .cfgCommit s = .next t ∧
        t = { s with act := t.act, status := { s.status with busy := false, cfgValid := true, err := .none } } ∧
        t.act.l = s.cfg.l ∧ t.act.filler = s.cfg.filler ∧ t.act.ratio = s.cfg.ratio ∧
        t.act.maxWarn = s.cfg.maxWarn ∧ t.act.minDim = s.cfg.minDim ∧
        t.act.icount.toNat = cdiv (255 - s.cfg.filler.toNat) s.cfg.l.toNat ∧
        2 ^ t.act.bps.toNat ≤ t.act.icount.toNat ∧ t.act.icount.toNat < 2 ^ (t.act.bps.toNat + 1)) ∧
    (s.cfg.l = 0 ∨ s.cfg.filler = 255 ∨ s.cfg.minDim = 0 ∨ cdiv (255 - s.cfg.filler.toNat) s.cfg.l.toNat < 2 →
      ∃ t, exec .cfgCommit s = .next t ∧
        t = { s with status := { s.status with busy := false, cfgValid := false, err := .config } } ∧
        ∀ i, i ≠ .cfgCommit → FailsWith i t .config)

/-- R101, R102: the interval count is the least number of intervals of width L that cover the data range, between 1 and 255;
with at least two intervals, bits per symbol lies between 1 and 7 and is the floor of the logarithm. -/
def Obligations.IntervalCountAndBitsBounds : Prop :=
  ∀ l f : Nat, 1 ≤ l → f ≤ 254 →
    (∀ n, 255 - f ≤ n * l ↔ intervalCount l f ≤ n) ∧ 1 ≤ intervalCount l f ∧ intervalCount l f ≤ 255 ∧
    (2 ≤ intervalCount l f →
      1 ≤ bitsPerSymbol (intervalCount l f) ∧ bitsPerSymbol (intervalCount l f) ≤ 7 ∧
      ∀ e, 2 ^ e ≤ intervalCount l f ↔ e ≤ bitsPerSymbol (intervalCount l f))

/-- The law of R111 and R103's bounds, which the spec marks as derived: under every committed configuration every anchor is a non-filler byte that decodes to its own
index. -/
def Obligations.AnchorsDecodeToTheirIndex : Prop :=
  ∀ s : State, s.act.Committed → ∀ i, i < s.scheme.icount →
    toSymbol s.scheme (anchor s.scheme i) = .data i ∧ s.scheme.f + 1 ≤ anchor s.scheme i ∧ anchor s.scheme i ≤ 255

/-- R104, R105: a byte at or below F is Filler, and every other decodes to the interval that holds it, an index below the
interval count; the clamp never changes the result. -/
def Obligations.ToSymbolFindsTheInterval : Prop :=
  ∀ s : State, s.act.Committed → ∀ v, v ≤ 255 →
    (v ≤ s.scheme.f → toSymbol s.scheme v = .filler) ∧
    (s.scheme.f < v → ∃ i, toSymbol s.scheme v = .data i ∧ i < s.scheme.icount ∧
      i = (v - (s.scheme.f + 1)) / s.scheme.l ∧
      s.scheme.f + 1 + i * s.scheme.l ≤ v ∧ v < s.scheme.f + 1 + (i + 1) * s.scheme.l)

/-- R106, R107: under a valid configuration the two count queries write the active value, which lies between 2 and 255 or 1
and 7, to R0 and nothing else; under none they end with ERR_CONFIG. -/
def Obligations.CountQueriesReadTheConfiguration : Prop :=
  decode 0x00000010 = .ok .qIcount ∧ decode 0x00000011 = .ok .qBps ∧ ∀ s : State,
    (s.status.cfgValid = true →
      exec .qIcount s =
        .next { s with r0 := s.act.icount.setWidth 32, status := { s.status with busy := false, err := .none } } ∧
      exec .qBps s = .next { s with r0 := s.act.bps.setWidth 32, status := { s.status with busy := false, err := .none } }) ∧
    (s.act.Committed → 2 ≤ s.act.icount.toNat ∧ s.act.icount.toNat ≤ 255 ∧ 1 ≤ s.act.bps.toNat ∧ s.act.bps.toNat ≤ 7) ∧
    (s.status.cfgValid = false → FailsWith .qIcount s .config ∧ FailsWith .qBps s .config)

/-- R108, with R103: an index below IC gives its anchor in R0 and changes nothing else; any other ends with ERR_OPERAND. -/
def Obligations.AnchorQueryGivesTheMidpoint : Prop :=
  decode 0x00000012 = .ok .qAnchor ∧ (∀ s : State, s.status.cfgValid = false → FailsWith .qAnchor s .config) ∧
  ∀ s : State, s.status.cfgValid = true → s.act.Committed →
    (s.a0.toNat < s.act.icount.toNat → ∃ (t : State) (start stop : Nat), exec .qAnchor s = .next t ∧
      start = s.act.filler.toNat + 1 + s.a0.toNat * s.act.l.toNat ∧ stop = min (start + s.act.l.toNat - 1) 255 ∧
      t = { s with r0 := t.r0, status := { s.status with busy := false, err := .none } } ∧
      t.r0.toNat = start + (stop - start) / 2) ∧
    (s.act.icount.toNat ≤ s.a0.toNat → FailsWith .qAnchor s .operand)

/-- R109, R110: the filler test and the symbol of a byte value, in R0 and nothing else; a value above 255 ends with
ERR_OPERAND. -/
def Obligations.ValueQueriesClassifyBytes : Prop :=
  (decode 0x00000013 = .ok .qIsfiller ∧ decode 0x00000014 = .ok .qTosymbol) ∧
  (∀ s : State, s.status.cfgValid = false → FailsWith .qIsfiller s .config ∧ FailsWith .qTosymbol s .config) ∧
  ∀ s : State, s.status.cfgValid = true → s.act.Committed →
    (s.a0.toNat ≤ 255 →
      exec .qIsfiller s = .next { s with r0 := if s.a0.toNat ≤ s.act.filler.toNat then 1 else 0,
                                         status := { s.status with busy := false, err := .none } } ∧
      ∃ t, exec .qTosymbol s = .next t ∧
        t = { s with r0 := t.r0, status := { s.status with busy := false, err := .none } } ∧
        t.r0.toNat = if s.a0.toNat ≤ s.act.filler.toNat then 0xFF
          else (s.a0.toNat - (s.act.filler.toNat + 1)) / s.act.l.toNat) ∧
    (255 < s.a0.toNat → FailsWith .qIsfiller s .operand ∧ FailsWith .qTosymbol s .operand)

/-! ## Bit packing (42_bit_packing) -/

/-- R120: BYTES2BITS writes the eight bits of each byte, bit 7 first, one cell each. -/
def Obligations.BytesBecomeCellsMsbFirst : Prop :=
  ∀ (s : State) (bs : List Byte), s.params.Legal → ChecksPass .bytes2bits s →
    s.dmem.Holds s.a0.toNat bs → bs.length = s.a1.toNat →
    ∃ t, exec .bytes2bits s = .next t ∧ t.r0.toNat = 8 * bs.length ∧
      t.status = { s.status with busy := false, err := .none } ∧
      ∀ i, (h : i < bs.length) → ∀ j, j < 8 →
        t.dmem.read (s.a2.toNat + 8 * i + j) = some (if bs[i].getLsbD (7 - j) then 1 else 0)

/-- R121: BITS2BYTES packs eight cells a byte, the first in bit 7, and pads the last byte with zeros below. -/
def Obligations.CellsBecomeBytesZeroPadded : Prop :=
  ∀ (s : State) (bits : List Byte), s.params.Legal → ChecksPass .bits2bytes s →
    s.dmem.Holds s.a0.toNat bits → bits.length = s.a1.toNat → (∀ c ∈ bits, c = 0 ∨ c = 1) →
    ∃ t, exec .bits2bytes s = .next t ∧ t.r0.toNat = cdiv bits.length 8 ∧
      t.status = { s.status with busy := false, err := .none } ∧
      ∀ g, g < cdiv bits.length 8 → ∃ b : Byte, t.dmem.read (s.a2.toNat + g) = some b ∧
        ∀ j, j < 8 → b.getLsbD (7 - j) = decide (bits.getD (8 * g + j) 0 = 1)

/-- R122, R124: BITS2SYMS writes one code per k-bit window, the window's first cell its top bit, zeros past the end, reduced
mod IC. -/
def Obligations.CellsBecomeSymbolCodes : Prop :=
  ∀ (s : State) (k : BitVec 4) (w : Nat) (bits : List Byte), s.params.Legal → ChecksPass (.bits2syms k) s →
    s.act.Committed → w = (if k = 0 then s.act.bps.toNat else k.toNat) →
    s.dmem.Holds s.a0.toNat bits → bits.length = s.a1.toNat → (∀ c ∈ bits, c = 0 ∨ c = 1) →
    ∃ t, exec (.bits2syms k) s = .next t ∧ t.r0.toNat = cdiv bits.length w ∧
      t.status = { s.status with busy := false, err := .none } ∧
      ∀ g, g < cdiv bits.length w → ∃ (v : Nat) (c : Byte), t.dmem.read (s.a2.toNat + g) = some c ∧
        c.toNat = v % s.act.icount.toNat ∧ v < 2 ^ w ∧
        ∀ j, j < w → v.testBit (w - 1 - j) = decide (bits.getD (w * g + j) 0 = 1)

/-- R125: the expansion of a code is exactly k cells, the k low-order bits of c mod IC, most significant first; a valid code
of at most k bits expands to itself. -/
def Obligations.ExpansionIsLowBitsMsbFirst : Prop :=
  ∀ (ic k : Nat) (c : Byte), (expand ic k c).length = k ∧
    (∀ j, j < k → (expand ic k c)[j]? = some (if ((c.toNat % ic) % 2 ^ k).testBit (k - 1 - j) then 1 else 0)) ∧
    (c.toNat < ic → c.toNat < 2 ^ k → window k (expand ic k c) 0 = c.toNat)

/-- R123, R127: SYMS2BITS with AUTO = 0 writes the first E bits of the symbols' expansions, Filler adding none; where there
are fewer it writes them all and sets SHORT, which is 0 otherwise. DMEM need hold only the codes up to the point where E bits
are there: those after it are not read, and with E = 0 none is. -/
def Obligations.SymbolsBecomeExpectedCells : Prop :=
  ∀ (s : State) (k : BitVec 4) (w : Nat) (codes all : List Byte), ChecksPass (.syms2bits k false) s →
    w = (if k = 0 then s.act.bps.toNat else k.toNat) →
    s.dmem.Holds s.a0.toNat codes → codes.length ≤ s.a1.toNat →
    all = codes.flatMap (fun c => if c = 0xFF then [] else expand s.act.icount.toNat w c) →
    codes.length = s.a1.toNat ∨ s.a3.toNat ≤ all.length →
    ∃ t, exec (.syms2bits k false) s = .next t ∧ t.r0.toNat = min s.a3.toNat all.length ∧
      t.status = { s.status with busy := false, err := .none, short := decide (all.length < s.a3.toNat) } ∧
      ∀ j, j < s.a3.toNat → (h : j < all.length) → t.dmem.read (s.a2.toNat + j) = some all[j]

/-- R126, with R123: SYMS2BITS with AUTO = 1 keeps the largest multiple of 8 of the bits collected from all symbols and
leaves SHORT alone. -/
def Obligations.AutoKeepsWholeBytesOfCells : Prop :=
  ∀ (s : State) (k : BitVec 4) (w : Nat) (codes all : List Byte), s.params.Legal → ChecksPass (.syms2bits k true) s →
    w = (if k = 0 then s.act.bps.toNat else k.toNat) →
    s.dmem.Holds s.a0.toNat codes → codes.length = s.a1.toNat →
    all = codes.flatMap (fun c => if c = 0xFF then [] else expand s.act.icount.toNat w c) →
    ∃ t, exec (.syms2bits k true) s = .next t ∧ t.r0.toNat = all.length / 8 * 8 ∧
      t.status = { s.status with busy := false, err := .none } ∧
      ∀ j, j < all.length / 8 * 8 → (h : j < all.length) → t.dmem.read (s.a2.toNat + j) = some all[j]

/-- The laws of R128, which the spec marks as derived: (a) bytes come back from their bits; (b) bits come back from their symbols for every width k with 2^k ≤ IC, whether
or not k divides their number; (c) for no wider k do all bits come back, even of those whose number k divides. -/
def Obligations.PackingRoundTrips : Prop :=
  (∀ bs : List Byte, bitsToBytes (bytesToBits bs) = bs) ∧
  (∀ (k ic : Nat) (bits : List Byte), 1 ≤ k → 2 ^ k ≤ ic → ic ≤ 255 → (∀ c ∈ bits, c = 0 ∨ c = 1) →
    keptBits (some bits.length) ((bitsToSyms k ic bits).flatMap (symbolBits ic k)) = bits) ∧
  ∀ k ic : Nat, 1 ≤ k → k ≤ 8 → 2 ≤ ic → ic ≤ 255 → ic < 2 ^ k →
    ∃ bits : List Byte, bits.length % k = 0 ∧ (∀ c ∈ bits, c = 0 ∨ c = 1) ∧
      keptBits (some bits.length) ((bitsToSyms k ic bits).flatMap (symbolBits ic k)) ≠ bits

/-! ## FEC (43_fec) -/

/-- R142, with R140 and R141: FEC_ENC writes the payload unchanged, then fecSize bytes, each the XOR of its block's eight
contributors. -/
def Obligations.FecEncAppendsRedundancy : Prop :=
  ∀ (s : State) (p : List Byte) (f : Nat), s.params.Legal → ChecksPass .fecEnc s →
    s.dmem.Holds s.a0.toNat p → p.length = s.a1.toNat → f = p.length * s.act.ratio.toNat / 65536 →
    ∃ t, exec .fecEnc s = .next t ∧ t.r0.toNat = p.length + f ∧
      t.status = { s.status with busy := false, err := .none } ∧ t.dmem.Holds s.a2.toNat p ∧
      ∀ i, i < f → t.dmem.read (s.a2.toNat + p.length + i) = some
        (p.getD (i % p.length) 0 ^^^ p.getD ((f + i) % p.length) 0 ^^^ p.getD ((2 * f + i) % p.length) 0 ^^^
          p.getD ((3 * f + i) % p.length) 0 ^^^ p.getD ((4 * f + i) % p.length) 0 ^^^
          p.getD ((5 * f + i) % p.length) 0 ^^^ p.getD ((6 * f + i) % p.length) 0 ^^^
          p.getD ((7 * f + i) % p.length) 0)

/-- R143, R144: FEC_DEC of fewer than five bytes, or of a buffer whose redundancy length is 0, copies it, with R1 = 0 and
ALLCORR = 1. -/
def Obligations.FecDecCopiesShortBuffers : Prop :=
  ∀ (s : State) (buf : List Byte), ChecksPass .fecDec s → s.dmem.Holds s.a0.toNat buf → buf.length = s.a1.toNat →
    (buf.length < 5 ∨ buf.length = (2 * buf.length * 65536 + (65536 + s.act.ratio.toNat)) / (2 * (65536 + s.act.ratio.toNat))) →
    ∃ t, exec .fecDec s = .next t ∧ t.r0 = s.a1 ∧ t.r1 = 0 ∧
      t.status = { s.status with busy := false, err := .none, allCorr := true } ∧ t.dmem.Holds s.a2.toNat buf

/-- R145 and R147 to R150, with the split of R144: the correcting path of FEC_DEC. The payload written is what the correction
pass makes of the one read, working through the indices that mismatch on the payload as read, in ascending order and no
others, skipping those that verify by then where FEC_SYNDROME_RECHECK = 1. R0 is the payload length; R1, ALLCORR, OMITTED and
the diagnostic entries are those of the indices whose redundancy byte still mismatches on the payload written. A buffer all of
whose blocks verify comes out unchanged. -/
def Obligations.FecDecReportsWhatStillMismatches : Prop :=
  ∀ (s : State) (buf q : List Byte) (n f : Nat), ChecksPass .fecDec s → s.dmem.Holds s.a0.toNat buf →
    buf.length = s.a1.toNat → 5 ≤ buf.length →
    n = (2 * buf.length * 65536 + (65536 + s.act.ratio.toNat)) / (2 * (65536 + s.act.ratio.toNat)) →
    f = buf.length - n → 0 < f → q = buf.drop n →
    ∃ (t : State) (p : List Byte) (left : List Nat), exec .fecDec s = .next t ∧ p.length = n ∧
      left = (List.range f).filter (fun i => red p f i != q.getD i 0) ∧
      t.dmem.Holds s.a2.toNat p ∧ t.r0.toNat = n ∧ t.r1.toNat = min left.length s.act.maxWarn.toNat ∧
      t.status = { s.status with busy := false, err := .none, allCorr := decide (left = []),
                                 omitted := decide (s.act.maxWarn.toNat < left.length) } ∧
      (∀ j, j < t.r1.toNat → (h : j < left.length) →
        t.dmem.Holds (s.a3.toNat + 4 * j) (bigEndian (BitVec.ofNat 32 left[j]))) ∧
      p = fecCorrect s.params.recheck (buf.take n) q ∧
      CorrectionRun s.params.recheck q ((List.range f).filter fun i => red (buf.take n) f i != q.getD i 0) (buf.take n) p ∧
      ((∀ i, i < f → red (buf.take n) f i = q.getD i 0) → p = buf.take n ∧ left = [])

/-- R151, which the spec marks as derived: a flip at position x changes block i's redundancy by that bit if x has odd multiplicity, and not at all if even.
So a search of a mismatching block flips the syndrome's one bit in the first contributor of odd multiplicity, and changes
nothing where the syndrome has more than one bit or no contributor has odd multiplicity. -/
def Obligations.SearchFlipsFirstOddContributor : Prop :=
  (∀ (p : List Byte) (f i x b : Nat), x < p.length → b < 8 →
    red (flipBit p x b) f i = if blockMultiplicity p.length f i x % 2 = 1 then red p f i ^^^ (1#8 <<< b) else red p f i) ∧
  ∀ (p q : List Byte) (i : Nat), p ≠ [] → red p q.length i ≠ q.getD i 0 →
    (∀ b j, b < 8 → j < 8 → red p q.length i ^^^ q.getD i 0 = 1#8 <<< b →
      blockMultiplicity p.length q.length i (contributor p.length q.length i j) % 2 = 1 →
      (∀ j', j' < j → blockMultiplicity p.length q.length i (contributor p.length q.length i j') % 2 = 0) →
      searchFlip p q i = flipBit p (contributor p.length q.length i j) b) ∧
    ((∀ b, b < 8 → red p q.length i ^^^ q.getD i 0 ≠ 1#8 <<< b) ∨
      (∀ j, j < 8 → blockMultiplicity p.length q.length i (contributor p.length q.length i j) % 2 = 0) →
      searchFlip p q i = p)

/-- R152, which the spec marks as derived: FEC_DEC of an unmodified FEC_ENC result at the same ratio gives the payload with ALLCORR = 1 exactly when the
buffer is short and has no redundancy, or its split gives the payload's length; otherwise the output length differs, and a short buffer comes out whole. -/
def Obligations.FecRoundTripExactly : Prop :=
  ∀ (s : State) (p : List Byte) (r m : Nat), s.status.cfgValid = true → rangeOk .fecDec s = true →
    r = s.act.ratio.toNat → m = p.length + p.length * r / 65536 → m = s.a1.toNat →
    s.dmem.Holds s.a0.toNat (fecEncode r p) →
    ((m < 5 ∧ p.length * r / 65536 = 0) ∨
      (5 ≤ m ∧ (2 * m * 65536 + (65536 + r)) / (2 * (65536 + r)) = p.length) →
      ∃ t, exec .fecDec s = .next t ∧ t.r0.toNat = p.length ∧ t.dmem.Holds s.a2.toNat p ∧
        t.status = { s.status with busy := false, err := .none, allCorr := true,
                                   omitted := if m < 5 ∨ m = p.length then s.status.omitted else false }) ∧
    (∀ t, exec .fecDec s = .next t → t.status.err = .none → t.r0.toNat = p.length →
      (m < 5 ∧ p.length * r / 65536 = 0) ∨
        (5 ≤ m ∧ (2 * m * 65536 + (65536 + r)) / (2 * (65536 + r)) = p.length)) ∧
    (m < 5 → ∃ t, exec .fecDec s = .next t ∧ t.r0.toNat = m ∧ t.dmem.Holds s.a2.toNat (fecEncode r p) ∧
      t.status.allCorr = true)

/-- R153, which the spec marks as derived: where every contributor of block i has even multiplicity its redundancy byte is 0 for every payload, so no flip
makes it match a stored byte that is not 0. -/
def Obligations.EvenBlocksDetectNothing : Prop :=
  ∀ (n f i : Nat), 1 ≤ n → (∀ j, j < 8 → blockMultiplicity n f i (contributor n f i j) % 2 = 0) →
    ∀ p : List Byte, p.length = n → red p f i = 0 ∧
      ∀ q : List Byte, q.length = f → q.getD i 0 ≠ 0 → searchFlip p q i = p

/-! ## Pixels (44_pixel_layout) -/

/-- R171, with the addressing of R170: LAYOUT writes symbol 3x + c as its anchor to channel c of pixel x, and 0 to every other
byte of the grid; R0 counts the bytes, where the count fits a register (assumption 6). -/
def Obligations.LayoutWritesAnchorsInPixelOrder : Prop :=
  ∀ (s : State) (ch : BitVec 4) (syms : List Byte), ChecksPass (.layout ch) s → s.act.Committed →
    s.dmem.Holds s.a0.toNat syms → syms.length = s.a1.toNat →
    (∀ c ∈ syms, c.toNat < s.act.icount.toNat ∨ c = 0xFF) →
    ∃ t, exec (.layout ch) s = .next t ∧
      (s.a3.toNat * s.a4.toNat * ch.toNat < 2 ^ 32 → t.r0.toNat = s.a3.toNat * s.a4.toNat * ch.toNat) ∧
      t.status = { s.status with busy := false, err := .none } ∧
      ∀ x c, x < s.a3.toNat * s.a4.toNat → c < ch.toNat → ∃ b : Byte,
        t.dmem.read (s.a2.toNat + x * ch.toNat + c) = some b ∧
        b.toNat = if c < 3 ∧ 3 * x + c < syms.length ∧ syms.getD (3 * x + c) 0xFF ≠ 0xFF
          then anchor s.scheme (syms.getD (3 * x + c) 0xFF).toNat else 0

/-- R172, R173: EXTRACT decodes the three data channels of each of w*h pixels, bytes past the buffer counting as 0 and not
read; R0 counts the codes and AMBIG tells whether the length differed. -/
def Obligations.ExtractDecodesEveryPixel : Prop :=
  ∀ (s : State) (ch : BitVec 4) (pix : Nat → Byte) (n total : Nat), s.params.Legal → ChecksPass (.extract ch) s →
    n = s.a3.toNat * s.a4.toNat → total = n * ch.toNat →
    (∀ x c, x < n → c < 3 → x * ch.toNat + c < s.a1.toNat →
      s.dmem.read (s.a0.toNat + (x * ch.toNat + c)) = some (pix (x * ch.toNat + c))) →
    ∃ t, exec (.extract ch) s = .next t ∧ t.r0.toNat = 3 * n ∧
      t.status = { s.status with busy := false, err := .none, ambig := decide (s.a1.toNat ≠ total) } ∧
      ∀ x c, x < n → c < 3 → t.dmem.read (s.a2.toNat + 3 * x + c) =
        some (toSymbol s.scheme (if x * ch.toNat + c < s.a1.toNat then (pix (x * ch.toNat + c)).toNat else 0)).code

/-- R174, which the spec marks as derived: the whole-pixel filler test gives the same codes as toSymbol of each channel on its own. -/
def Obligations.WholePixelTestChangesNothing : Prop :=
  ∀ (q : Scheme) (vs : List Byte), vs.length % 3 = 0 →
    extractCodes q vs = vs.map fun v => (toSymbol q v.toNat).code

/-- R175, which the spec marks as derived: EXTRACT of what LAYOUT wrote, with the same grid and channels, gives every symbol back at its place and Filler
after them, with AMBIG = 0. -/
def Obligations.ExtractRecoversTheLayout : Prop :=
  ∀ (s t u : State) (ch : BitVec 4) (syms : List Byte), s.params.Legal → ChecksPass (.layout ch) s → s.act.Committed →
    s.dmem.Holds s.a0.toNat syms → syms.length = s.a1.toNat →
    (∀ c ∈ syms, c.toNat < s.act.icount.toNat ∨ c = 0xFF) → exec (.layout ch) s = .next t →
    u.dmem = t.dmem → u.act = t.act → u.params = t.params → ChecksPass (.extract ch) u →
    u.a0 = s.a2 → u.a3 = s.a3 → u.a4 = s.a4 → u.a1.toNat = s.a3.toNat * s.a4.toNat * ch.toNat →
    ∃ v, exec (.extract ch) u = .next v ∧ v.status.err = .none ∧ v.status.ambig = false ∧
      v.dmem.Holds u.a2.toNat syms ∧
      ∀ i, syms.length ≤ i → i < 3 * (s.a3.toNat * s.a4.toNat) → v.dmem.read (u.a2.toNat + i) = some 0xFF

/-! ## Planner (45_dimension_planner) -/

/-- R190: PLAN writes the width, height, total symbols and pixels needed to R0 to R3 and nothing else; a count above
0x0FFF_FFFF ends with ERR_OPERAND. -/
def Obligations.PlanComputesTheGrid : Prop :=
  decode 0x00000050 = .ok .plan ∧ (∀ s : State, s.status.cfgValid = false → FailsWith .plan s .config) ∧
  ∀ (s : State) (n T P w : Nat), s.status.cfgValid = true → s.act.Committed → n = s.a0.toNat →
    T = cdiv (8 * n) s.act.bps.toNat → P = cdiv T 3 → w = max (ceilSqrt P) s.act.minDim.toNat →
    (n ≤ 0x0FFFFFFF → ∃ t, exec .plan s = .next t ∧
      t = { s with r0 := t.r0, r1 := t.r1, r2 := t.r2, r3 := t.r3, status := { s.status with busy := false, err := .none } } ∧
      t.r0.toNat = w ∧ t.r1.toNat = max (cdiv P w) s.act.minDim.toNat ∧ t.r2.toNat = T ∧ t.r3.toNat = P) ∧
    (0x0FFFFFFF < n → FailsWith .plan s .operand)

/-- R191, which the spec marks as derived: a PLAN that completes gives a grid that holds its symbols, neither side below the minimum, so LAYOUT's capacity
check passes on it. -/
def Obligations.PlannedGridHoldsTheSymbols : Prop :=
  ∀ s t : State, s.act.Committed → exec .plan s = .next t → t.status.err = .none →
    t.r2.toNat ≤ t.r0.toNat * t.r1.toNat * 3 ∧ s.act.minDim.toNat ≤ t.r0.toNat ∧ s.act.minDim.toNat ≤ t.r1.toNat ∧
    ∀ (u : State) (ch : BitVec 4), u.a1 = t.r2 → u.a3 = t.r0 → u.a4 = t.r1 → capacityOk (.layout ch) u

/-- R192: `ceil_sqrt(p)` is the smallest s with s*s ≥ p. -/
def Obligations.CeilSqrtIsLeast : Prop := ∀ p s : Nat, ceilSqrt p ≤ s ↔ p ≤ s * s

/-! ## The encode and decode pipeline (46_flows) -/

/-- R203 (a) to (c), which the spec marks as derived, over the commands' own functions: an FEC buffer taken through bits, symbols and a grid that holds them,
and back by EXTRACT, AUTO collection and packing, is the buffer again. -/
def Obligations.PixelsCarryTheBuffer : Prop :=
  ∀ (s : State) (buf syms pix codes : List Byte) (n ch : Nat), s.act.Committed → ch = 3 ∨ ch = 4 →
    syms = bitsToSyms s.scheme.bps s.scheme.icount (bytesToBits buf) → cdiv syms.length 3 ≤ n →
    pix = layoutBytes s.scheme ch n syms →
    codes = extractCodes s.scheme ((channelOffsets ch n).map fun o => pix.getD o 0) →
    codes = syms ++ List.replicate (3 * n - syms.length) 0xFF ∧
    bitsToBytes (keptBits none (codes.flatMap (symbolBits s.scheme.icount s.scheme.bps))) = buf

/-! ## The host's side (10_state, 70_reset_and_hazards) -/

/-- R32, R220: the bits of STATUS as the host reads them. -/
def Obligations.StatusWordLayout : Prop :=
  ∀ st : Status,
    st.toWord.getLsbD 0 = st.busy ∧ st.toWord.getLsbD 1 = st.cfgValid ∧ st.toWord.getLsbD 2 = st.allCorr ∧
    st.toWord.getLsbD 3 = st.omitted ∧ st.toWord.getLsbD 4 = st.short ∧ st.toWord.getLsbD 5 = st.ambig ∧
    st.toWord.extractLsb' 6 2 = 0 ∧ st.toWord.extractLsb' 12 20 = 0 ∧
    (st.toWord.extractLsb' 8 4).toNat = match st.err with
      | .none => 0 | .illegal => 1 | .config => 2 | .operand => 3 | .range => 4 | .format => 5 | .capacity => 6 | .domain => 7

/-- R33: a CMD write while BUSY = 0 latches the word, clears ERR and the flags and sets BUSY, and changes nothing else. -/
def Obligations.CmdWriteStartsTheCommand : Prop :=
  ∀ (s : State) (w : Word), s.status.busy = false →
    hostAct (.regWrite 32 0x40 w) s = .next { s with
      cmd := w
      status := { busy := true, cfgValid := s.status.cfgValid, allCorr := false, omitted := false, short := false,
                  ambig := false, err := .none } }

/-- R20, R26, R39: a written register reads back its writable bits and no other register but STATUS (which a CMD write starts) changes; a
write to a read-only register is ignored. -/
def Obligations.RegistersReadBackWithoutAliases : Prop :=
  ∀ (s : State) (r : Reg) (v : Word),
    (r ∈ ([.cfgRatio, .cfgMaxwarn, .cfgMindim, .cmd, .a0, .a1, .a2, .a3, .a4] : List Reg) →
      readReg (writeReg s r v) r = v) ∧
    (r ∈ ([.cfgL, .cfgFiller] : List Reg) → readReg (writeReg s r v) r = v &&& 0xFF) ∧
    (r ∈ ([.cfgSpcg, .actL, .actFiller, .actRatio, .actMaxwarn, .actMindim, .actIcount, .actBps, .r0, .r1, .r2, .r3,
        .status] : List Reg) → writeReg s r v = s) ∧
    (∀ r', r' ≠ r → (r ≠ .cmd ∨ r' ≠ .status) → readReg (writeReg s r v) r' = readReg s r') ∧
    (writeReg s r v).dmem = s.dmem ∧ readReg s .cfgSpcg = 3

/-- R20, R39: the map has a register at an offset exactly where the register table says, and no two at one offset. -/
def Obligations.OffsetsNameRegisters : Prop :=
  (∀ (o : Nat) (r : Reg), Reg.ofOffset o = some r ↔ r.offset = o) ∧
  (∀ o, (∃ r, Reg.ofOffset o = some r) ↔
    o % 4 = 0 ∧ (o ≤ 0x14 ∨ (0x20 ≤ o ∧ o ≤ 0x38) ∨ (0x40 ≤ o ∧ o ≤ 0x54) ∨ (0x60 ≤ o ∧ o ≤ 0x70)))

/-- R258: each host protocol violation is a fault. -/
def Obligations.ProtocolViolationsFault : Prop :=
  ∀ (s : State) (width offset a : Nat) (v : Word) (b : Byte),
    ((width ≠ 32 ∨ offset % 4 ≠ 0 ∨ ∀ r : Reg, r.offset ≠ offset) →
      (∃ f, hostAct (.regRead width offset) s = .fault f) ∧ ∃ f, hostAct (.regWrite width offset v) s = .fault f) ∧
    (s.status.busy = true →
      (∃ f, hostAct (.regWrite width offset v) s = .fault f) ∧ (∃ f, hostAct (.memRead a) s = .fault f) ∧
      ∃ f, hostAct (.memWrite a b) s = .fault f) ∧
    (s.params.dmemSize ≤ a → (∃ f, hostAct (.memRead a) s = .fault f) ∧ ∃ f, hostAct (.memWrite a b) s = .fault f)

/-- R255, R257: every interaction that is allowed completes. A register read, BUSY or not, gives the value and changes
nothing; a write stores; a DMEM read of a written byte gives it, and of an unwritten one follows UNWRITTEN_READ (R51); a DMEM
write changes that byte alone; a reset, BUSY or not, leaves every register at its reset value and DMEM unwritten. What the host
gets back is kept in `replies` (assumption 8), and `draws` counts the free bytes drawn (assumption 5), both DESIGN CHOICE. -/
def Obligations.AllowedInteractionsComplete : Prop :=
  ∀ (s : State) (r : Reg) (v : Word) (a : Nat) (b : Byte),
    hostAct (.regRead 32 r.offset) s = .next { s with replies := s.replies ++ [.reg (readReg s r)] } ∧
    (s.status.busy = false → hostAct (.regWrite 32 r.offset v) s = .next (writeReg s r v)) ∧
    (s.status.busy = false → a < s.params.dmemSize →
      (s.dmem.read a = some b → hostAct (.memRead a) s = .next { s with replies := s.replies ++ [.mem b] }) ∧
      (s.dmem.read a = none → s.params.unwritten = .fault → hostAct (.memRead a) s = .fault (.unwrittenRead a)) ∧
      (s.dmem.read a = none → s.params.unwritten = .any → ∃ c, hostAct (.memRead a) s =
        .next { s with replies := s.replies ++ [.mem c], draws := s.draws + 1 }) ∧
      ∃ t, hostAct (.memWrite a b) s = .next t ∧ t = { s with dmem := t.dmem } ∧ t.dmem.read a = some b ∧
        ∀ x, x ≠ a → t.dmem.read x = s.dmem.read x) ∧
    ∃ t, hostAct .reset s = .next t ∧ (∀ r' : Reg, readReg t r' = if r' = .cfgSpcg then 3 else 0) ∧
      ∀ x, t.dmem.read x = none
end

