-- ==== Sys2Proof/Laws/State.lean ====
section
/-! SUPPORT. One lemma per field per update of State, each true by `rfl`, so that no proof unfolds a record update. -/

namespace Sys2Proof.Machine

/-! ## A command's end: `State.finish` -/

@[simp] theorem State.finish_params (s : State) (e : ErrCode) : (s.finish e).params = s.params := rfl
@[simp] theorem State.finish_cfg (s : State) (e : ErrCode) : (s.finish e).cfg = s.cfg := rfl
@[simp] theorem State.finish_act (s : State) (e : ErrCode) : (s.finish e).act = s.act := rfl
@[simp] theorem State.finish_cmd (s : State) (e : ErrCode) : (s.finish e).cmd = s.cmd := rfl
@[simp] theorem State.finish_a0 (s : State) (e : ErrCode) : (s.finish e).a0 = s.a0 := rfl
@[simp] theorem State.finish_a1 (s : State) (e : ErrCode) : (s.finish e).a1 = s.a1 := rfl
@[simp] theorem State.finish_a2 (s : State) (e : ErrCode) : (s.finish e).a2 = s.a2 := rfl
@[simp] theorem State.finish_a3 (s : State) (e : ErrCode) : (s.finish e).a3 = s.a3 := rfl
@[simp] theorem State.finish_a4 (s : State) (e : ErrCode) : (s.finish e).a4 = s.a4 := rfl
@[simp] theorem State.finish_r0 (s : State) (e : ErrCode) : (s.finish e).r0 = s.r0 := rfl
@[simp] theorem State.finish_r1 (s : State) (e : ErrCode) : (s.finish e).r1 = s.r1 := rfl
@[simp] theorem State.finish_r2 (s : State) (e : ErrCode) : (s.finish e).r2 = s.r2 := rfl
@[simp] theorem State.finish_r3 (s : State) (e : ErrCode) : (s.finish e).r3 = s.r3 := rfl
@[simp] theorem State.finish_status (s : State) (e : ErrCode) : (s.finish e).status = s.status.ended e := rfl
@[simp] theorem State.finish_dmem (s : State) (e : ErrCode) : (s.finish e).dmem = s.dmem := rfl
@[simp] theorem State.finish_hostOps (s : State) (e : ErrCode) : (s.finish e).hostOps = s.hostOps := rfl
@[simp] theorem State.finish_turns (s : State) (e : ErrCode) : (s.finish e).turns = s.turns := rfl
@[simp] theorem State.finish_replies (s : State) (e : ErrCode) : (s.finish e).replies = s.replies := rfl
@[simp] theorem State.finish_draws (s : State) (e : ErrCode) : (s.finish e).draws = s.draws := rfl

/-! ## `CFG_VALID <- b`: `State.setCfgValid` -/

@[simp] theorem State.setCfgValid_params (s : State) (b : Bool) : (s.setCfgValid b).params = s.params := rfl
@[simp] theorem State.setCfgValid_cfg (s : State) (b : Bool) : (s.setCfgValid b).cfg = s.cfg := rfl
@[simp] theorem State.setCfgValid_act (s : State) (b : Bool) : (s.setCfgValid b).act = s.act := rfl
@[simp] theorem State.setCfgValid_cmd (s : State) (b : Bool) : (s.setCfgValid b).cmd = s.cmd := rfl
@[simp] theorem State.setCfgValid_a0 (s : State) (b : Bool) : (s.setCfgValid b).a0 = s.a0 := rfl
@[simp] theorem State.setCfgValid_a1 (s : State) (b : Bool) : (s.setCfgValid b).a1 = s.a1 := rfl
@[simp] theorem State.setCfgValid_a2 (s : State) (b : Bool) : (s.setCfgValid b).a2 = s.a2 := rfl
@[simp] theorem State.setCfgValid_a3 (s : State) (b : Bool) : (s.setCfgValid b).a3 = s.a3 := rfl
@[simp] theorem State.setCfgValid_a4 (s : State) (b : Bool) : (s.setCfgValid b).a4 = s.a4 := rfl
@[simp] theorem State.setCfgValid_r0 (s : State) (b : Bool) : (s.setCfgValid b).r0 = s.r0 := rfl
@[simp] theorem State.setCfgValid_r1 (s : State) (b : Bool) : (s.setCfgValid b).r1 = s.r1 := rfl
@[simp] theorem State.setCfgValid_r2 (s : State) (b : Bool) : (s.setCfgValid b).r2 = s.r2 := rfl
@[simp] theorem State.setCfgValid_r3 (s : State) (b : Bool) : (s.setCfgValid b).r3 = s.r3 := rfl
@[simp] theorem State.setCfgValid_status (s : State) (b : Bool) : (s.setCfgValid b).status = { s.status with cfgValid := b } := rfl
@[simp] theorem State.setCfgValid_dmem (s : State) (b : Bool) : (s.setCfgValid b).dmem = s.dmem := rfl
@[simp] theorem State.setCfgValid_hostOps (s : State) (b : Bool) : (s.setCfgValid b).hostOps = s.hostOps := rfl
@[simp] theorem State.setCfgValid_turns (s : State) (b : Bool) : (s.setCfgValid b).turns = s.turns := rfl
@[simp] theorem State.setCfgValid_replies (s : State) (b : Bool) : (s.setCfgValid b).replies = s.replies := rfl
@[simp] theorem State.setCfgValid_draws (s : State) (b : Bool) : (s.setCfgValid b).draws = s.draws := rfl

/-! ## `flag ALLCORR <- b`: `State.setAllCorr` -/

@[simp] theorem State.setAllCorr_params (s : State) (b : Bool) : (s.setAllCorr b).params = s.params := rfl
@[simp] theorem State.setAllCorr_cfg (s : State) (b : Bool) : (s.setAllCorr b).cfg = s.cfg := rfl
@[simp] theorem State.setAllCorr_act (s : State) (b : Bool) : (s.setAllCorr b).act = s.act := rfl
@[simp] theorem State.setAllCorr_cmd (s : State) (b : Bool) : (s.setAllCorr b).cmd = s.cmd := rfl
@[simp] theorem State.setAllCorr_a0 (s : State) (b : Bool) : (s.setAllCorr b).a0 = s.a0 := rfl
@[simp] theorem State.setAllCorr_a1 (s : State) (b : Bool) : (s.setAllCorr b).a1 = s.a1 := rfl
@[simp] theorem State.setAllCorr_a2 (s : State) (b : Bool) : (s.setAllCorr b).a2 = s.a2 := rfl
@[simp] theorem State.setAllCorr_a3 (s : State) (b : Bool) : (s.setAllCorr b).a3 = s.a3 := rfl
@[simp] theorem State.setAllCorr_a4 (s : State) (b : Bool) : (s.setAllCorr b).a4 = s.a4 := rfl
@[simp] theorem State.setAllCorr_r0 (s : State) (b : Bool) : (s.setAllCorr b).r0 = s.r0 := rfl
@[simp] theorem State.setAllCorr_r1 (s : State) (b : Bool) : (s.setAllCorr b).r1 = s.r1 := rfl
@[simp] theorem State.setAllCorr_r2 (s : State) (b : Bool) : (s.setAllCorr b).r2 = s.r2 := rfl
@[simp] theorem State.setAllCorr_r3 (s : State) (b : Bool) : (s.setAllCorr b).r3 = s.r3 := rfl
@[simp] theorem State.setAllCorr_status (s : State) (b : Bool) : (s.setAllCorr b).status = { s.status with allCorr := b } := rfl
@[simp] theorem State.setAllCorr_dmem (s : State) (b : Bool) : (s.setAllCorr b).dmem = s.dmem := rfl
@[simp] theorem State.setAllCorr_hostOps (s : State) (b : Bool) : (s.setAllCorr b).hostOps = s.hostOps := rfl
@[simp] theorem State.setAllCorr_turns (s : State) (b : Bool) : (s.setAllCorr b).turns = s.turns := rfl
@[simp] theorem State.setAllCorr_replies (s : State) (b : Bool) : (s.setAllCorr b).replies = s.replies := rfl
@[simp] theorem State.setAllCorr_draws (s : State) (b : Bool) : (s.setAllCorr b).draws = s.draws := rfl

/-! ## `flag OMITTED <- b`: `State.setOmitted` -/

@[simp] theorem State.setOmitted_params (s : State) (b : Bool) : (s.setOmitted b).params = s.params := rfl
@[simp] theorem State.setOmitted_cfg (s : State) (b : Bool) : (s.setOmitted b).cfg = s.cfg := rfl
@[simp] theorem State.setOmitted_act (s : State) (b : Bool) : (s.setOmitted b).act = s.act := rfl
@[simp] theorem State.setOmitted_cmd (s : State) (b : Bool) : (s.setOmitted b).cmd = s.cmd := rfl
@[simp] theorem State.setOmitted_a0 (s : State) (b : Bool) : (s.setOmitted b).a0 = s.a0 := rfl
@[simp] theorem State.setOmitted_a1 (s : State) (b : Bool) : (s.setOmitted b).a1 = s.a1 := rfl
@[simp] theorem State.setOmitted_a2 (s : State) (b : Bool) : (s.setOmitted b).a2 = s.a2 := rfl
@[simp] theorem State.setOmitted_a3 (s : State) (b : Bool) : (s.setOmitted b).a3 = s.a3 := rfl
@[simp] theorem State.setOmitted_a4 (s : State) (b : Bool) : (s.setOmitted b).a4 = s.a4 := rfl
@[simp] theorem State.setOmitted_r0 (s : State) (b : Bool) : (s.setOmitted b).r0 = s.r0 := rfl
@[simp] theorem State.setOmitted_r1 (s : State) (b : Bool) : (s.setOmitted b).r1 = s.r1 := rfl
@[simp] theorem State.setOmitted_r2 (s : State) (b : Bool) : (s.setOmitted b).r2 = s.r2 := rfl
@[simp] theorem State.setOmitted_r3 (s : State) (b : Bool) : (s.setOmitted b).r3 = s.r3 := rfl
@[simp] theorem State.setOmitted_status (s : State) (b : Bool) : (s.setOmitted b).status = { s.status with omitted := b } := rfl
@[simp] theorem State.setOmitted_dmem (s : State) (b : Bool) : (s.setOmitted b).dmem = s.dmem := rfl
@[simp] theorem State.setOmitted_hostOps (s : State) (b : Bool) : (s.setOmitted b).hostOps = s.hostOps := rfl
@[simp] theorem State.setOmitted_turns (s : State) (b : Bool) : (s.setOmitted b).turns = s.turns := rfl
@[simp] theorem State.setOmitted_replies (s : State) (b : Bool) : (s.setOmitted b).replies = s.replies := rfl
@[simp] theorem State.setOmitted_draws (s : State) (b : Bool) : (s.setOmitted b).draws = s.draws := rfl

/-! ## `flag SHORT <- b`: `State.setShort` -/

@[simp] theorem State.setShort_params (s : State) (b : Bool) : (s.setShort b).params = s.params := rfl
@[simp] theorem State.setShort_cfg (s : State) (b : Bool) : (s.setShort b).cfg = s.cfg := rfl
@[simp] theorem State.setShort_act (s : State) (b : Bool) : (s.setShort b).act = s.act := rfl
@[simp] theorem State.setShort_cmd (s : State) (b : Bool) : (s.setShort b).cmd = s.cmd := rfl
@[simp] theorem State.setShort_a0 (s : State) (b : Bool) : (s.setShort b).a0 = s.a0 := rfl
@[simp] theorem State.setShort_a1 (s : State) (b : Bool) : (s.setShort b).a1 = s.a1 := rfl
@[simp] theorem State.setShort_a2 (s : State) (b : Bool) : (s.setShort b).a2 = s.a2 := rfl
@[simp] theorem State.setShort_a3 (s : State) (b : Bool) : (s.setShort b).a3 = s.a3 := rfl
@[simp] theorem State.setShort_a4 (s : State) (b : Bool) : (s.setShort b).a4 = s.a4 := rfl
@[simp] theorem State.setShort_r0 (s : State) (b : Bool) : (s.setShort b).r0 = s.r0 := rfl
@[simp] theorem State.setShort_r1 (s : State) (b : Bool) : (s.setShort b).r1 = s.r1 := rfl
@[simp] theorem State.setShort_r2 (s : State) (b : Bool) : (s.setShort b).r2 = s.r2 := rfl
@[simp] theorem State.setShort_r3 (s : State) (b : Bool) : (s.setShort b).r3 = s.r3 := rfl
@[simp] theorem State.setShort_status (s : State) (b : Bool) : (s.setShort b).status = { s.status with short := b } := rfl
@[simp] theorem State.setShort_dmem (s : State) (b : Bool) : (s.setShort b).dmem = s.dmem := rfl
@[simp] theorem State.setShort_hostOps (s : State) (b : Bool) : (s.setShort b).hostOps = s.hostOps := rfl
@[simp] theorem State.setShort_turns (s : State) (b : Bool) : (s.setShort b).turns = s.turns := rfl
@[simp] theorem State.setShort_replies (s : State) (b : Bool) : (s.setShort b).replies = s.replies := rfl
@[simp] theorem State.setShort_draws (s : State) (b : Bool) : (s.setShort b).draws = s.draws := rfl

/-! ## `flag AMBIG <- b`: `State.setAmbig` -/

@[simp] theorem State.setAmbig_params (s : State) (b : Bool) : (s.setAmbig b).params = s.params := rfl
@[simp] theorem State.setAmbig_cfg (s : State) (b : Bool) : (s.setAmbig b).cfg = s.cfg := rfl
@[simp] theorem State.setAmbig_act (s : State) (b : Bool) : (s.setAmbig b).act = s.act := rfl
@[simp] theorem State.setAmbig_cmd (s : State) (b : Bool) : (s.setAmbig b).cmd = s.cmd := rfl
@[simp] theorem State.setAmbig_a0 (s : State) (b : Bool) : (s.setAmbig b).a0 = s.a0 := rfl
@[simp] theorem State.setAmbig_a1 (s : State) (b : Bool) : (s.setAmbig b).a1 = s.a1 := rfl
@[simp] theorem State.setAmbig_a2 (s : State) (b : Bool) : (s.setAmbig b).a2 = s.a2 := rfl
@[simp] theorem State.setAmbig_a3 (s : State) (b : Bool) : (s.setAmbig b).a3 = s.a3 := rfl
@[simp] theorem State.setAmbig_a4 (s : State) (b : Bool) : (s.setAmbig b).a4 = s.a4 := rfl
@[simp] theorem State.setAmbig_r0 (s : State) (b : Bool) : (s.setAmbig b).r0 = s.r0 := rfl
@[simp] theorem State.setAmbig_r1 (s : State) (b : Bool) : (s.setAmbig b).r1 = s.r1 := rfl
@[simp] theorem State.setAmbig_r2 (s : State) (b : Bool) : (s.setAmbig b).r2 = s.r2 := rfl
@[simp] theorem State.setAmbig_r3 (s : State) (b : Bool) : (s.setAmbig b).r3 = s.r3 := rfl
@[simp] theorem State.setAmbig_status (s : State) (b : Bool) : (s.setAmbig b).status = { s.status with ambig := b } := rfl
@[simp] theorem State.setAmbig_dmem (s : State) (b : Bool) : (s.setAmbig b).dmem = s.dmem := rfl
@[simp] theorem State.setAmbig_hostOps (s : State) (b : Bool) : (s.setAmbig b).hostOps = s.hostOps := rfl
@[simp] theorem State.setAmbig_turns (s : State) (b : Bool) : (s.setAmbig b).turns = s.turns := rfl
@[simp] theorem State.setAmbig_replies (s : State) (b : Bool) : (s.setAmbig b).replies = s.replies := rfl
@[simp] theorem State.setAmbig_draws (s : State) (b : Bool) : (s.setAmbig b).draws = s.draws := rfl

/-! ## DMEM replaced: `State.setDmem` -/

@[simp] theorem State.setDmem_params (s : State) (m : Memory) : (s.setDmem m).params = s.params := rfl
@[simp] theorem State.setDmem_cfg (s : State) (m : Memory) : (s.setDmem m).cfg = s.cfg := rfl
@[simp] theorem State.setDmem_act (s : State) (m : Memory) : (s.setDmem m).act = s.act := rfl
@[simp] theorem State.setDmem_cmd (s : State) (m : Memory) : (s.setDmem m).cmd = s.cmd := rfl
@[simp] theorem State.setDmem_a0 (s : State) (m : Memory) : (s.setDmem m).a0 = s.a0 := rfl
@[simp] theorem State.setDmem_a1 (s : State) (m : Memory) : (s.setDmem m).a1 = s.a1 := rfl
@[simp] theorem State.setDmem_a2 (s : State) (m : Memory) : (s.setDmem m).a2 = s.a2 := rfl
@[simp] theorem State.setDmem_a3 (s : State) (m : Memory) : (s.setDmem m).a3 = s.a3 := rfl
@[simp] theorem State.setDmem_a4 (s : State) (m : Memory) : (s.setDmem m).a4 = s.a4 := rfl
@[simp] theorem State.setDmem_r0 (s : State) (m : Memory) : (s.setDmem m).r0 = s.r0 := rfl
@[simp] theorem State.setDmem_r1 (s : State) (m : Memory) : (s.setDmem m).r1 = s.r1 := rfl
@[simp] theorem State.setDmem_r2 (s : State) (m : Memory) : (s.setDmem m).r2 = s.r2 := rfl
@[simp] theorem State.setDmem_r3 (s : State) (m : Memory) : (s.setDmem m).r3 = s.r3 := rfl
@[simp] theorem State.setDmem_status (s : State) (m : Memory) : (s.setDmem m).status = s.status := rfl
@[simp] theorem State.setDmem_dmem (s : State) (m : Memory) : (s.setDmem m).dmem = m := rfl
@[simp] theorem State.setDmem_hostOps (s : State) (m : Memory) : (s.setDmem m).hostOps = s.hostOps := rfl
@[simp] theorem State.setDmem_turns (s : State) (m : Memory) : (s.setDmem m).turns = s.turns := rfl
@[simp] theorem State.setDmem_replies (s : State) (m : Memory) : (s.setDmem m).replies = s.replies := rfl
@[simp] theorem State.setDmem_draws (s : State) (m : Memory) : (s.setDmem m).draws = s.draws := rfl

/-! ## The count of free values: `State.setDraws` -/

@[simp] theorem State.setDraws_params (s : State) (d : Nat) : (s.setDraws d).params = s.params := rfl
@[simp] theorem State.setDraws_cfg (s : State) (d : Nat) : (s.setDraws d).cfg = s.cfg := rfl
@[simp] theorem State.setDraws_act (s : State) (d : Nat) : (s.setDraws d).act = s.act := rfl
@[simp] theorem State.setDraws_cmd (s : State) (d : Nat) : (s.setDraws d).cmd = s.cmd := rfl
@[simp] theorem State.setDraws_a0 (s : State) (d : Nat) : (s.setDraws d).a0 = s.a0 := rfl
@[simp] theorem State.setDraws_a1 (s : State) (d : Nat) : (s.setDraws d).a1 = s.a1 := rfl
@[simp] theorem State.setDraws_a2 (s : State) (d : Nat) : (s.setDraws d).a2 = s.a2 := rfl
@[simp] theorem State.setDraws_a3 (s : State) (d : Nat) : (s.setDraws d).a3 = s.a3 := rfl
@[simp] theorem State.setDraws_a4 (s : State) (d : Nat) : (s.setDraws d).a4 = s.a4 := rfl
@[simp] theorem State.setDraws_r0 (s : State) (d : Nat) : (s.setDraws d).r0 = s.r0 := rfl
@[simp] theorem State.setDraws_r1 (s : State) (d : Nat) : (s.setDraws d).r1 = s.r1 := rfl
@[simp] theorem State.setDraws_r2 (s : State) (d : Nat) : (s.setDraws d).r2 = s.r2 := rfl
@[simp] theorem State.setDraws_r3 (s : State) (d : Nat) : (s.setDraws d).r3 = s.r3 := rfl
@[simp] theorem State.setDraws_status (s : State) (d : Nat) : (s.setDraws d).status = s.status := rfl
@[simp] theorem State.setDraws_dmem (s : State) (d : Nat) : (s.setDraws d).dmem = s.dmem := rfl
@[simp] theorem State.setDraws_hostOps (s : State) (d : Nat) : (s.setDraws d).hostOps = s.hostOps := rfl
@[simp] theorem State.setDraws_turns (s : State) (d : Nat) : (s.setDraws d).turns = s.turns := rfl
@[simp] theorem State.setDraws_replies (s : State) (d : Nat) : (s.setDraws d).replies = s.replies := rfl
@[simp] theorem State.setDraws_draws (s : State) (d : Nat) : (s.setDraws d).draws = d := rfl

/-! ## A command's stores: `State.store` -/

@[simp] theorem State.store_params (s : State) (a : Nat) (bs : List Byte) : (s.store a bs).params = s.params := rfl
@[simp] theorem State.store_cfg (s : State) (a : Nat) (bs : List Byte) : (s.store a bs).cfg = s.cfg := rfl
@[simp] theorem State.store_act (s : State) (a : Nat) (bs : List Byte) : (s.store a bs).act = s.act := rfl
@[simp] theorem State.store_cmd (s : State) (a : Nat) (bs : List Byte) : (s.store a bs).cmd = s.cmd := rfl
@[simp] theorem State.store_a0 (s : State) (a : Nat) (bs : List Byte) : (s.store a bs).a0 = s.a0 := rfl
@[simp] theorem State.store_a1 (s : State) (a : Nat) (bs : List Byte) : (s.store a bs).a1 = s.a1 := rfl
@[simp] theorem State.store_a2 (s : State) (a : Nat) (bs : List Byte) : (s.store a bs).a2 = s.a2 := rfl
@[simp] theorem State.store_a3 (s : State) (a : Nat) (bs : List Byte) : (s.store a bs).a3 = s.a3 := rfl
@[simp] theorem State.store_a4 (s : State) (a : Nat) (bs : List Byte) : (s.store a bs).a4 = s.a4 := rfl
@[simp] theorem State.store_r0 (s : State) (a : Nat) (bs : List Byte) : (s.store a bs).r0 = s.r0 := rfl
@[simp] theorem State.store_r1 (s : State) (a : Nat) (bs : List Byte) : (s.store a bs).r1 = s.r1 := rfl
@[simp] theorem State.store_r2 (s : State) (a : Nat) (bs : List Byte) : (s.store a bs).r2 = s.r2 := rfl
@[simp] theorem State.store_r3 (s : State) (a : Nat) (bs : List Byte) : (s.store a bs).r3 = s.r3 := rfl
@[simp] theorem State.store_status (s : State) (a : Nat) (bs : List Byte) : (s.store a bs).status = s.status := rfl
@[simp] theorem State.store_dmem (s : State) (a : Nat) (bs : List Byte) : (s.store a bs).dmem = s.dmem.writeBytes a bs := rfl
@[simp] theorem State.store_hostOps (s : State) (a : Nat) (bs : List Byte) : (s.store a bs).hostOps = s.hostOps := rfl
@[simp] theorem State.store_turns (s : State) (a : Nat) (bs : List Byte) : (s.store a bs).turns = s.turns := rfl
@[simp] theorem State.store_replies (s : State) (a : Nat) (bs : List Byte) : (s.store a bs).replies = s.replies := rfl
@[simp] theorem State.store_draws (s : State) (a : Nat) (bs : List Byte) : (s.store a bs).draws = s.draws := rfl

/-! ## `R[0] <- w`: `State.setR0` -/

@[simp] theorem State.setR0_params (s : State) (w : Word) : (s.setR0 w).params = s.params := rfl
@[simp] theorem State.setR0_cfg (s : State) (w : Word) : (s.setR0 w).cfg = s.cfg := rfl
@[simp] theorem State.setR0_act (s : State) (w : Word) : (s.setR0 w).act = s.act := rfl
@[simp] theorem State.setR0_cmd (s : State) (w : Word) : (s.setR0 w).cmd = s.cmd := rfl
@[simp] theorem State.setR0_a0 (s : State) (w : Word) : (s.setR0 w).a0 = s.a0 := rfl
@[simp] theorem State.setR0_a1 (s : State) (w : Word) : (s.setR0 w).a1 = s.a1 := rfl
@[simp] theorem State.setR0_a2 (s : State) (w : Word) : (s.setR0 w).a2 = s.a2 := rfl
@[simp] theorem State.setR0_a3 (s : State) (w : Word) : (s.setR0 w).a3 = s.a3 := rfl
@[simp] theorem State.setR0_a4 (s : State) (w : Word) : (s.setR0 w).a4 = s.a4 := rfl
@[simp] theorem State.setR0_r0 (s : State) (w : Word) : (s.setR0 w).r0 = w := rfl
@[simp] theorem State.setR0_r1 (s : State) (w : Word) : (s.setR0 w).r1 = s.r1 := rfl
@[simp] theorem State.setR0_r2 (s : State) (w : Word) : (s.setR0 w).r2 = s.r2 := rfl
@[simp] theorem State.setR0_r3 (s : State) (w : Word) : (s.setR0 w).r3 = s.r3 := rfl
@[simp] theorem State.setR0_status (s : State) (w : Word) : (s.setR0 w).status = s.status := rfl
@[simp] theorem State.setR0_dmem (s : State) (w : Word) : (s.setR0 w).dmem = s.dmem := rfl
@[simp] theorem State.setR0_hostOps (s : State) (w : Word) : (s.setR0 w).hostOps = s.hostOps := rfl
@[simp] theorem State.setR0_turns (s : State) (w : Word) : (s.setR0 w).turns = s.turns := rfl
@[simp] theorem State.setR0_replies (s : State) (w : Word) : (s.setR0 w).replies = s.replies := rfl
@[simp] theorem State.setR0_draws (s : State) (w : Word) : (s.setR0 w).draws = s.draws := rfl

/-! ## `R[1] <- w`: `State.setR1` -/

@[simp] theorem State.setR1_params (s : State) (w : Word) : (s.setR1 w).params = s.params := rfl
@[simp] theorem State.setR1_cfg (s : State) (w : Word) : (s.setR1 w).cfg = s.cfg := rfl
@[simp] theorem State.setR1_act (s : State) (w : Word) : (s.setR1 w).act = s.act := rfl
@[simp] theorem State.setR1_cmd (s : State) (w : Word) : (s.setR1 w).cmd = s.cmd := rfl
@[simp] theorem State.setR1_a0 (s : State) (w : Word) : (s.setR1 w).a0 = s.a0 := rfl
@[simp] theorem State.setR1_a1 (s : State) (w : Word) : (s.setR1 w).a1 = s.a1 := rfl
@[simp] theorem State.setR1_a2 (s : State) (w : Word) : (s.setR1 w).a2 = s.a2 := rfl
@[simp] theorem State.setR1_a3 (s : State) (w : Word) : (s.setR1 w).a3 = s.a3 := rfl
@[simp] theorem State.setR1_a4 (s : State) (w : Word) : (s.setR1 w).a4 = s.a4 := rfl
@[simp] theorem State.setR1_r0 (s : State) (w : Word) : (s.setR1 w).r0 = s.r0 := rfl
@[simp] theorem State.setR1_r1 (s : State) (w : Word) : (s.setR1 w).r1 = w := rfl
@[simp] theorem State.setR1_r2 (s : State) (w : Word) : (s.setR1 w).r2 = s.r2 := rfl
@[simp] theorem State.setR1_r3 (s : State) (w : Word) : (s.setR1 w).r3 = s.r3 := rfl
@[simp] theorem State.setR1_status (s : State) (w : Word) : (s.setR1 w).status = s.status := rfl
@[simp] theorem State.setR1_dmem (s : State) (w : Word) : (s.setR1 w).dmem = s.dmem := rfl
@[simp] theorem State.setR1_hostOps (s : State) (w : Word) : (s.setR1 w).hostOps = s.hostOps := rfl
@[simp] theorem State.setR1_turns (s : State) (w : Word) : (s.setR1 w).turns = s.turns := rfl
@[simp] theorem State.setR1_replies (s : State) (w : Word) : (s.setR1 w).replies = s.replies := rfl
@[simp] theorem State.setR1_draws (s : State) (w : Word) : (s.setR1 w).draws = s.draws := rfl

/-! ## `R[2] <- w`: `State.setR2` -/

@[simp] theorem State.setR2_params (s : State) (w : Word) : (s.setR2 w).params = s.params := rfl
@[simp] theorem State.setR2_cfg (s : State) (w : Word) : (s.setR2 w).cfg = s.cfg := rfl
@[simp] theorem State.setR2_act (s : State) (w : Word) : (s.setR2 w).act = s.act := rfl
@[simp] theorem State.setR2_cmd (s : State) (w : Word) : (s.setR2 w).cmd = s.cmd := rfl
@[simp] theorem State.setR2_a0 (s : State) (w : Word) : (s.setR2 w).a0 = s.a0 := rfl
@[simp] theorem State.setR2_a1 (s : State) (w : Word) : (s.setR2 w).a1 = s.a1 := rfl
@[simp] theorem State.setR2_a2 (s : State) (w : Word) : (s.setR2 w).a2 = s.a2 := rfl
@[simp] theorem State.setR2_a3 (s : State) (w : Word) : (s.setR2 w).a3 = s.a3 := rfl
@[simp] theorem State.setR2_a4 (s : State) (w : Word) : (s.setR2 w).a4 = s.a4 := rfl
@[simp] theorem State.setR2_r0 (s : State) (w : Word) : (s.setR2 w).r0 = s.r0 := rfl
@[simp] theorem State.setR2_r1 (s : State) (w : Word) : (s.setR2 w).r1 = s.r1 := rfl
@[simp] theorem State.setR2_r2 (s : State) (w : Word) : (s.setR2 w).r2 = w := rfl
@[simp] theorem State.setR2_r3 (s : State) (w : Word) : (s.setR2 w).r3 = s.r3 := rfl
@[simp] theorem State.setR2_status (s : State) (w : Word) : (s.setR2 w).status = s.status := rfl
@[simp] theorem State.setR2_dmem (s : State) (w : Word) : (s.setR2 w).dmem = s.dmem := rfl
@[simp] theorem State.setR2_hostOps (s : State) (w : Word) : (s.setR2 w).hostOps = s.hostOps := rfl
@[simp] theorem State.setR2_turns (s : State) (w : Word) : (s.setR2 w).turns = s.turns := rfl
@[simp] theorem State.setR2_replies (s : State) (w : Word) : (s.setR2 w).replies = s.replies := rfl
@[simp] theorem State.setR2_draws (s : State) (w : Word) : (s.setR2 w).draws = s.draws := rfl

/-! ## `R[3] <- w`: `State.setR3` -/

@[simp] theorem State.setR3_params (s : State) (w : Word) : (s.setR3 w).params = s.params := rfl
@[simp] theorem State.setR3_cfg (s : State) (w : Word) : (s.setR3 w).cfg = s.cfg := rfl
@[simp] theorem State.setR3_act (s : State) (w : Word) : (s.setR3 w).act = s.act := rfl
@[simp] theorem State.setR3_cmd (s : State) (w : Word) : (s.setR3 w).cmd = s.cmd := rfl
@[simp] theorem State.setR3_a0 (s : State) (w : Word) : (s.setR3 w).a0 = s.a0 := rfl
@[simp] theorem State.setR3_a1 (s : State) (w : Word) : (s.setR3 w).a1 = s.a1 := rfl
@[simp] theorem State.setR3_a2 (s : State) (w : Word) : (s.setR3 w).a2 = s.a2 := rfl
@[simp] theorem State.setR3_a3 (s : State) (w : Word) : (s.setR3 w).a3 = s.a3 := rfl
@[simp] theorem State.setR3_a4 (s : State) (w : Word) : (s.setR3 w).a4 = s.a4 := rfl
@[simp] theorem State.setR3_r0 (s : State) (w : Word) : (s.setR3 w).r0 = s.r0 := rfl
@[simp] theorem State.setR3_r1 (s : State) (w : Word) : (s.setR3 w).r1 = s.r1 := rfl
@[simp] theorem State.setR3_r2 (s : State) (w : Word) : (s.setR3 w).r2 = s.r2 := rfl
@[simp] theorem State.setR3_r3 (s : State) (w : Word) : (s.setR3 w).r3 = w := rfl
@[simp] theorem State.setR3_status (s : State) (w : Word) : (s.setR3 w).status = s.status := rfl
@[simp] theorem State.setR3_dmem (s : State) (w : Word) : (s.setR3 w).dmem = s.dmem := rfl
@[simp] theorem State.setR3_hostOps (s : State) (w : Word) : (s.setR3 w).hostOps = s.hostOps := rfl
@[simp] theorem State.setR3_turns (s : State) (w : Word) : (s.setR3 w).turns = s.turns := rfl
@[simp] theorem State.setR3_replies (s : State) (w : Word) : (s.setR3 w).replies = s.replies := rfl
@[simp] theorem State.setR3_draws (s : State) (w : Word) : (s.setR3 w).draws = s.draws := rfl

/-! ## A CMD write: `State.startCommand` -/

@[simp] theorem State.startCommand_params (s : State) (w : Word) : (s.startCommand w).params = s.params := rfl
@[simp] theorem State.startCommand_cfg (s : State) (w : Word) : (s.startCommand w).cfg = s.cfg := rfl
@[simp] theorem State.startCommand_act (s : State) (w : Word) : (s.startCommand w).act = s.act := rfl
@[simp] theorem State.startCommand_cmd (s : State) (w : Word) : (s.startCommand w).cmd = w := rfl
@[simp] theorem State.startCommand_a0 (s : State) (w : Word) : (s.startCommand w).a0 = s.a0 := rfl
@[simp] theorem State.startCommand_a1 (s : State) (w : Word) : (s.startCommand w).a1 = s.a1 := rfl
@[simp] theorem State.startCommand_a2 (s : State) (w : Word) : (s.startCommand w).a2 = s.a2 := rfl
@[simp] theorem State.startCommand_a3 (s : State) (w : Word) : (s.startCommand w).a3 = s.a3 := rfl
@[simp] theorem State.startCommand_a4 (s : State) (w : Word) : (s.startCommand w).a4 = s.a4 := rfl
@[simp] theorem State.startCommand_r0 (s : State) (w : Word) : (s.startCommand w).r0 = s.r0 := rfl
@[simp] theorem State.startCommand_r1 (s : State) (w : Word) : (s.startCommand w).r1 = s.r1 := rfl
@[simp] theorem State.startCommand_r2 (s : State) (w : Word) : (s.startCommand w).r2 = s.r2 := rfl
@[simp] theorem State.startCommand_r3 (s : State) (w : Word) : (s.startCommand w).r3 = s.r3 := rfl
@[simp] theorem State.startCommand_status (s : State) (w : Word) : (s.startCommand w).status = s.status.started := rfl
@[simp] theorem State.startCommand_dmem (s : State) (w : Word) : (s.startCommand w).dmem = s.dmem := rfl
@[simp] theorem State.startCommand_hostOps (s : State) (w : Word) : (s.startCommand w).hostOps = s.hostOps := rfl
@[simp] theorem State.startCommand_turns (s : State) (w : Word) : (s.startCommand w).turns = s.turns := rfl
@[simp] theorem State.startCommand_replies (s : State) (w : Word) : (s.startCommand w).replies = s.replies := rfl
@[simp] theorem State.startCommand_draws (s : State) (w : Word) : (s.startCommand w).draws = s.draws := rfl

/-! ## The staged configuration made active: `State.activate` -/

@[simp] theorem State.activate_params (s : State) : (s.activate).params = s.params := rfl
@[simp] theorem State.activate_cfg (s : State) : (s.activate).cfg = s.cfg := rfl
@[simp] theorem State.activate_act (s : State) : (s.activate).act = activeOf s.cfg := rfl
@[simp] theorem State.activate_cmd (s : State) : (s.activate).cmd = s.cmd := rfl
@[simp] theorem State.activate_a0 (s : State) : (s.activate).a0 = s.a0 := rfl
@[simp] theorem State.activate_a1 (s : State) : (s.activate).a1 = s.a1 := rfl
@[simp] theorem State.activate_a2 (s : State) : (s.activate).a2 = s.a2 := rfl
@[simp] theorem State.activate_a3 (s : State) : (s.activate).a3 = s.a3 := rfl
@[simp] theorem State.activate_a4 (s : State) : (s.activate).a4 = s.a4 := rfl
@[simp] theorem State.activate_r0 (s : State) : (s.activate).r0 = s.r0 := rfl
@[simp] theorem State.activate_r1 (s : State) : (s.activate).r1 = s.r1 := rfl
@[simp] theorem State.activate_r2 (s : State) : (s.activate).r2 = s.r2 := rfl
@[simp] theorem State.activate_r3 (s : State) : (s.activate).r3 = s.r3 := rfl
@[simp] theorem State.activate_status (s : State) : (s.activate).status = s.status := rfl
@[simp] theorem State.activate_dmem (s : State) : (s.activate).dmem = s.dmem := rfl
@[simp] theorem State.activate_hostOps (s : State) : (s.activate).hostOps = s.hostOps := rfl
@[simp] theorem State.activate_turns (s : State) : (s.activate).turns = s.turns := rfl
@[simp] theorem State.activate_replies (s : State) : (s.activate).replies = s.replies := rfl
@[simp] theorem State.activate_draws (s : State) : (s.activate).draws = s.draws := rfl

/-! ## A read's answer: `State.reply` -/

@[simp] theorem State.reply_params (s : State) (v : Reply) : (s.reply v).params = s.params := rfl
@[simp] theorem State.reply_cfg (s : State) (v : Reply) : (s.reply v).cfg = s.cfg := rfl
@[simp] theorem State.reply_act (s : State) (v : Reply) : (s.reply v).act = s.act := rfl
@[simp] theorem State.reply_cmd (s : State) (v : Reply) : (s.reply v).cmd = s.cmd := rfl
@[simp] theorem State.reply_a0 (s : State) (v : Reply) : (s.reply v).a0 = s.a0 := rfl
@[simp] theorem State.reply_a1 (s : State) (v : Reply) : (s.reply v).a1 = s.a1 := rfl
@[simp] theorem State.reply_a2 (s : State) (v : Reply) : (s.reply v).a2 = s.a2 := rfl
@[simp] theorem State.reply_a3 (s : State) (v : Reply) : (s.reply v).a3 = s.a3 := rfl
@[simp] theorem State.reply_a4 (s : State) (v : Reply) : (s.reply v).a4 = s.a4 := rfl
@[simp] theorem State.reply_r0 (s : State) (v : Reply) : (s.reply v).r0 = s.r0 := rfl
@[simp] theorem State.reply_r1 (s : State) (v : Reply) : (s.reply v).r1 = s.r1 := rfl
@[simp] theorem State.reply_r2 (s : State) (v : Reply) : (s.reply v).r2 = s.r2 := rfl
@[simp] theorem State.reply_r3 (s : State) (v : Reply) : (s.reply v).r3 = s.r3 := rfl
@[simp] theorem State.reply_status (s : State) (v : Reply) : (s.reply v).status = s.status := rfl
@[simp] theorem State.reply_dmem (s : State) (v : Reply) : (s.reply v).dmem = s.dmem := rfl
@[simp] theorem State.reply_hostOps (s : State) (v : Reply) : (s.reply v).hostOps = s.hostOps := rfl
@[simp] theorem State.reply_turns (s : State) (v : Reply) : (s.reply v).turns = s.turns := rfl
@[simp] theorem State.reply_replies (s : State) (v : Reply) : (s.reply v).replies = s.replies ++ [v] := rfl
@[simp] theorem State.reply_draws (s : State) (v : Reply) : (s.reply v).draws = s.draws := rfl

/-! ## A host placed: `State.withHost` -/

@[simp] theorem State.withHost_params (s : State) (ops : List HostOp) (ts : List Agent) : (s.withHost ops ts).params = s.params := rfl
@[simp] theorem State.withHost_cfg (s : State) (ops : List HostOp) (ts : List Agent) : (s.withHost ops ts).cfg = s.cfg := rfl
@[simp] theorem State.withHost_act (s : State) (ops : List HostOp) (ts : List Agent) : (s.withHost ops ts).act = s.act := rfl
@[simp] theorem State.withHost_cmd (s : State) (ops : List HostOp) (ts : List Agent) : (s.withHost ops ts).cmd = s.cmd := rfl
@[simp] theorem State.withHost_a0 (s : State) (ops : List HostOp) (ts : List Agent) : (s.withHost ops ts).a0 = s.a0 := rfl
@[simp] theorem State.withHost_a1 (s : State) (ops : List HostOp) (ts : List Agent) : (s.withHost ops ts).a1 = s.a1 := rfl
@[simp] theorem State.withHost_a2 (s : State) (ops : List HostOp) (ts : List Agent) : (s.withHost ops ts).a2 = s.a2 := rfl
@[simp] theorem State.withHost_a3 (s : State) (ops : List HostOp) (ts : List Agent) : (s.withHost ops ts).a3 = s.a3 := rfl
@[simp] theorem State.withHost_a4 (s : State) (ops : List HostOp) (ts : List Agent) : (s.withHost ops ts).a4 = s.a4 := rfl
@[simp] theorem State.withHost_r0 (s : State) (ops : List HostOp) (ts : List Agent) : (s.withHost ops ts).r0 = s.r0 := rfl
@[simp] theorem State.withHost_r1 (s : State) (ops : List HostOp) (ts : List Agent) : (s.withHost ops ts).r1 = s.r1 := rfl
@[simp] theorem State.withHost_r2 (s : State) (ops : List HostOp) (ts : List Agent) : (s.withHost ops ts).r2 = s.r2 := rfl
@[simp] theorem State.withHost_r3 (s : State) (ops : List HostOp) (ts : List Agent) : (s.withHost ops ts).r3 = s.r3 := rfl
@[simp] theorem State.withHost_status (s : State) (ops : List HostOp) (ts : List Agent) : (s.withHost ops ts).status = s.status := rfl
@[simp] theorem State.withHost_dmem (s : State) (ops : List HostOp) (ts : List Agent) : (s.withHost ops ts).dmem = s.dmem := rfl
@[simp] theorem State.withHost_hostOps (s : State) (ops : List HostOp) (ts : List Agent) : (s.withHost ops ts).hostOps = ops := rfl
@[simp] theorem State.withHost_turns (s : State) (ops : List HostOp) (ts : List Agent) : (s.withHost ops ts).turns = ts := rfl
@[simp] theorem State.withHost_replies (s : State) (ops : List HostOp) (ts : List Agent) : (s.withHost ops ts).replies = s.replies := rfl
@[simp] theorem State.withHost_draws (s : State) (ops : List HostOp) (ts : List Agent) : (s.withHost ops ts).draws = s.draws := rfl

/-! ## The reset signal: `State.resetSignal` -/

@[simp] theorem State.resetSignal_params (s : State) : s.resetSignal.params = s.params := rfl
@[simp] theorem State.resetSignal_cfg (s : State) : s.resetSignal.cfg = State.reset.cfg := rfl
@[simp] theorem State.resetSignal_act (s : State) : s.resetSignal.act = State.reset.act := rfl
@[simp] theorem State.resetSignal_cmd (s : State) : s.resetSignal.cmd = State.reset.cmd := rfl
@[simp] theorem State.resetSignal_a0 (s : State) : s.resetSignal.a0 = State.reset.a0 := rfl
@[simp] theorem State.resetSignal_a1 (s : State) : s.resetSignal.a1 = State.reset.a1 := rfl
@[simp] theorem State.resetSignal_a2 (s : State) : s.resetSignal.a2 = State.reset.a2 := rfl
@[simp] theorem State.resetSignal_a3 (s : State) : s.resetSignal.a3 = State.reset.a3 := rfl
@[simp] theorem State.resetSignal_a4 (s : State) : s.resetSignal.a4 = State.reset.a4 := rfl
@[simp] theorem State.resetSignal_r0 (s : State) : s.resetSignal.r0 = State.reset.r0 := rfl
@[simp] theorem State.resetSignal_r1 (s : State) : s.resetSignal.r1 = State.reset.r1 := rfl
@[simp] theorem State.resetSignal_r2 (s : State) : s.resetSignal.r2 = State.reset.r2 := rfl
@[simp] theorem State.resetSignal_r3 (s : State) : s.resetSignal.r3 = State.reset.r3 := rfl
@[simp] theorem State.resetSignal_status (s : State) : s.resetSignal.status = State.reset.status := rfl
@[simp] theorem State.resetSignal_dmem (s : State) : s.resetSignal.dmem = State.reset.dmem := rfl
@[simp] theorem State.resetSignal_hostOps (s : State) : s.resetSignal.hostOps = s.hostOps := rfl
@[simp] theorem State.resetSignal_turns (s : State) : s.resetSignal.turns = s.turns := rfl
@[simp] theorem State.resetSignal_replies (s : State) : s.resetSignal.replies = s.replies := rfl
@[simp] theorem State.resetSignal_draws (s : State) : s.resetSignal.draws = s.draws := rfl

/-! ## STATUS: the fields after a command's start and end -/

@[simp] theorem Status.started_busy (st : Status) : st.started.busy = true := rfl
@[simp] theorem Status.started_cfgValid (st : Status) : st.started.cfgValid = st.cfgValid := rfl
@[simp] theorem Status.started_allCorr (st : Status) : st.started.allCorr = false := rfl
@[simp] theorem Status.started_omitted (st : Status) : st.started.omitted = false := rfl
@[simp] theorem Status.started_short (st : Status) : st.started.short = false := rfl
@[simp] theorem Status.started_ambig (st : Status) : st.started.ambig = false := rfl
@[simp] theorem Status.started_err (st : Status) : st.started.err = .none := rfl
@[simp] theorem Status.ended_busy (st : Status) (e : ErrCode) : (st.ended e).busy = false := rfl
@[simp] theorem Status.ended_cfgValid (st : Status) (e : ErrCode) : (st.ended e).cfgValid = st.cfgValid := rfl
@[simp] theorem Status.ended_allCorr (st : Status) (e : ErrCode) : (st.ended e).allCorr = st.allCorr := rfl
@[simp] theorem Status.ended_omitted (st : Status) (e : ErrCode) : (st.ended e).omitted = st.omitted := rfl
@[simp] theorem Status.ended_short (st : Status) (e : ErrCode) : (st.ended e).short = st.short := rfl
@[simp] theorem Status.ended_ambig (st : Status) (e : ErrCode) : (st.ended e).ambig = st.ambig := rfl
@[simp] theorem Status.ended_err (st : Status) (e : ErrCode) : (st.ended e).err = e := rfl

/-! ## Updates that change nothing -/

@[simp] theorem State.setDraws_self (s : State) : s.setDraws s.draws = s := rfl
@[simp] theorem State.setDmem_self (s : State) : s.setDmem s.dmem = s := rfl
@[simp] theorem State.store_nil (s : State) (a : Nat) : s.store a [] = s := rfl

/-! ## How a command ends -/

@[simp] theorem complete_eq (s : State) : complete s = .next (s.finish .none) := rfl
@[simp] theorem fail_eq (e : ErrCode) (s : State) : fail e s = .next (s.finish e) := rfl

end Sys2Proof.Machine
end

