-- ==== Sys2Proof/Laws/Memory.lean ====
section
/-! SUPPORT. What the memory operations do: a read after a write, the canonical form, and what a list of reads can answer. -/

namespace Sys2Proof.Machine

/-! ## One byte -/

theorem Memory.read_write_same (m : Memory) (a : Nat) (v : Byte) : (m.write a v).read a = some v := by
  induction m with
  | nil => simp [Memory.write, Memory.read]
  | cons c rest ih =>
    obtain ⟨b, w⟩ := c
    by_cases h₁ : a < b
    · simp [Memory.write, Memory.read, h₁]
    · by_cases h₂ : b = a
      · simp [Memory.write, Memory.read, h₂]
      · simp [Memory.write, Memory.read, h₁, h₂, ih]

theorem Memory.read_write_other (m : Memory) {a b : Nat} (v : Byte) (hne : b ≠ a) : (m.write a v).read b = m.read b := by
  induction m with
  | nil => simp [Memory.write, Memory.read, Ne.symm hne]
  | cons c rest ih =>
    obtain ⟨x, w⟩ := c
    by_cases h₁ : a < x
    · simp [Memory.write, Memory.read, h₁, Ne.symm hne]
    · by_cases h₂ : x = a
      · subst h₂; simp [Memory.write, Memory.read, Ne.symm hne]
      · simp [Memory.write, Memory.read, h₁, h₂, ih]

theorem Memory.read_write (m : Memory) (a b : Nat) (v : Byte) :
    (m.write a v).read b = if b = a then some v else m.read b := by
  split
  · subst_vars; exact m.read_write_same _ v
  · exact m.read_write_other v ‹_›

/-- A written memory lists the address written and what it listed before. -/
theorem Memory.mem_write {m : Memory} {a : Nat} {v : Byte} {c : Host.Cell} (h : c ∈ m.write a v) :
    c = (a, v) ∨ c ∈ m := by
  induction m with
  | nil => simpa [Memory.write] using h
  | cons x rest ih =>
    simp only [Memory.write] at h
    split at h
    · simpa using h
    · split at h
      · simp only [List.mem_cons] at h ⊢; tauto
      · simp only [List.mem_cons] at h ⊢
        rcases h with h | h
        · exact .inr (.inl h)
        · rcases ih h with h | h
          · exact .inl h
          · exact .inr (.inr h)

/-- A write keeps the canonical form. -/
theorem Memory.write_wf {m : Memory} (hm : m.wf) (a : Nat) (v : Byte) : (m.write a v).wf := by
  induction m with
  | nil => simp [Memory.write, Memory.wf]
  | cons x rest ih =>
    obtain ⟨b, w⟩ := x
    have hx := List.pairwise_cons.1 hm
    simp only [Memory.write]
    split
    · rename_i hab
      refine List.pairwise_cons.2 ⟨fun c hc => ?_, hm⟩
      rcases List.mem_cons.1 hc with rfl | hc
      · exact hab
      · exact Nat.lt_trans hab (hx.1 c hc)
    · split
      · rename_i hab; subst hab
        exact List.pairwise_cons.2 ⟨hx.1, hx.2⟩
      · rename_i h₁ h₂
        refine List.pairwise_cons.2 ⟨fun c hc => ?_, ih hx.2⟩
        rcases Memory.mem_write hc with rfl | hc
        · show b < a; omega
        · exact hx.1 c hc

/-! ## Consecutive bytes -/

theorem Memory.read_writeBytes_outside (m : Memory) (a : Nat) (bs : List Byte) {x : Nat}
    (hx : x < a ∨ a + bs.length ≤ x) : (m.writeBytes a bs).read x = m.read x := by
  induction bs generalizing m a with
  | nil => rfl
  | cons b bs ih =>
    simp only [List.length_cons] at hx
    rw [Memory.writeBytes, ih _ _ (by omega), Memory.read_write_other _ _ (by omega)]

theorem Memory.read_writeBytes_inside (m : Memory) (a : Nat) (bs : List Byte) {i : Nat} (hi : i < bs.length) :
    (m.writeBytes a bs).read (a + i) = some bs[i] := by
  induction bs generalizing m a i with
  | nil => simp at hi
  | cons b bs ih =>
    cases i with
    | zero =>
      rw [Memory.writeBytes, Memory.read_writeBytes_outside _ _ _ (by omega)]
      simpa using Memory.read_write_same m a b
    | succ i =>
      have := ih (m.write a b) (a + 1) (i := i) (by simpa using hi)
      rw [Memory.writeBytes, show a + (i + 1) = a + 1 + i by omega, this]; simp

theorem Memory.writeBytes_wf {m : Memory} (hm : m.wf) (a : Nat) (bs : List Byte) : (m.writeBytes a bs).wf := by
  induction bs generalizing m a with
  | nil => exact hm
  | cons b bs ih => exact ih (Memory.write_wf hm a b) (a + 1)

/-- A memory whose cells all lie below a bound keeps so under a store that ends below it. -/
theorem Memory.writeBytes_below {m : Memory} {size : Nat} (hm : ∀ c ∈ m, c.1 < size) (a : Nat) (bs : List Byte)
    (h : bs = [] ∨ a + bs.length ≤ size) : ∀ c ∈ m.writeBytes a bs, c.1 < size := by
  induction bs generalizing m a with
  | nil => exact hm
  | cons b bs ih =>
    have h' : a + (bs.length + 1) ≤ size := by simpa using h
    refine ih (fun c hc => ?_) (a + 1) ?_
    · rcases Memory.mem_write hc with rfl | hc
      · show a < size; omega
      · exact hm c hc
    · right; omega

/-! ## Reads -/

theorem Memory.holds_writeBytes (m : Memory) (a : Nat) (bs : List Byte) : (m.writeBytes a bs).Holds a bs :=
  fun _ h => m.read_writeBytes_inside a bs h

theorem readByte_written {p : Params} {m : Memory} {d a : Nat} {b : Byte} (h : m.read a = some b) :
    readByte p m d a = .ok (b, d) := by simp [readByte, h]

/-- Everything one read can do. -/
theorem readByte_cases (p : Params) (m : Memory) (d a : Nat) :
    (∃ b d', readByte p m d a = .ok (b, d') ∧ (m.read a = some b ∧ d' = d ∨ m.read a = none ∧ p.unwritten = .any)) ∨
    (readByte p m d a = .error (.unwrittenRead a) ∧ m.read a = none ∧ p.unwritten = .fault) := by
  unfold readByte
  cases h : m.read a with
  | some b => exact .inl ⟨b, d, rfl, .inl ⟨rfl, rfl⟩⟩
  | none =>
    cases hu : p.unwritten with
    | fault => exact .inr ⟨by simp, rfl, rfl⟩
    | any => exact .inl ⟨_, _, rfl, .inr ⟨rfl, rfl⟩⟩

/-- Everything a list of reads can do: one byte per place, or the fault of a place that nothing has written. -/
theorem readPlaces_cases (p : Params) (m : Memory) (d : Nat) (ps : List (Option Nat)) :
    (∃ bs d', readPlaces p m d ps = .ok (bs, d') ∧ bs.length = ps.length) ∨
    (∃ a, readPlaces p m d ps = .error (.unwrittenRead a) ∧ some a ∈ ps ∧ m.read a = none ∧ p.unwritten = .fault) := by
  induction ps generalizing d with
  | nil => exact .inl ⟨[], d, rfl, rfl⟩
  | cons o ps ih =>
    cases o with
    | none =>
      rcases ih d with ⟨bs, d', h, hl⟩ | ⟨a, h, ha, hr, hu⟩
      · exact .inl ⟨0 :: bs, d', by simp [readPlaces, h], by simp [hl]⟩
      · exact .inr ⟨a, by simp [readPlaces, h], by simp [ha], hr, hu⟩
    | some x =>
      rcases readByte_cases p m d x with ⟨b, d₁, hb, -⟩ | ⟨hb, hr, hu⟩
      · rcases ih d₁ with ⟨bs, d', h, hl⟩ | ⟨a, h, ha, hr, hu⟩
        · exact .inl ⟨b :: bs, d', by simp [readPlaces, hb, h], by simp [hl]⟩
        · exact .inr ⟨a, by simp [readPlaces, hb, h], by simp [ha], hr, hu⟩
      · exact .inr ⟨x, by simp [readPlaces, hb], by simp, hr, hu⟩

/-- Reads of written bytes give them and draw nothing. -/
theorem readPlaces_written {p : Params} {m : Memory} {d : Nat} {ps : List (Option Nat)} {v : Nat → Byte}
    (h : ∀ a, some a ∈ ps → m.read a = some (v a)) :
    readPlaces p m d ps = .ok (ps.map fun o => match o with | none => 0 | some a => v a, d) := by
  induction ps with
  | nil => rfl
  | cons o ps ih =>
    have ih' := ih fun a ha => h a (List.mem_cons_of_mem _ ha)
    cases o with
    | none => simp [readPlaces, ih']
    | some a => simp [readPlaces, readByte_written (h a (by simp)), ih']

theorem places_length (a n : Nat) : (places a n).length = n := by simp [places]

theorem mem_places {a n x : Nat} : some x ∈ places a n ↔ a ≤ x ∧ x < a + n := by
  simp [places, List.mem_range'_1]

/-- Reading a stretch that DMEM holds gives it. -/
theorem readPlaces_holds {p : Params} {m : Memory} {d a : Nat} {bs : List Byte} (h : m.Holds a bs) :
    readPlaces p m d (places a bs.length) = .ok (bs, d) := by
  induction bs generalizing a with
  | nil => rfl
  | cons b bs ih =>
    have h₀ : m.read a = some b := h 0 (by simp)
    have h₁ : m.Holds (a + 1) bs := fun i hi => by
      have := h (i + 1) (by simpa using hi)
      rw [show a + 1 + i = a + (i + 1) by omega]; simpa using this
    have := ih h₁
    simp only [places] at this ⊢
    simp [List.range'_succ, readPlaces, readByte_written h₀, this]

/-- Everything a command's reads can do. -/
theorem withPlaces_cases (s : State) (ps : List (Option Nat)) (k : List Byte → State → Result) :
    (∃ bs d, bs.length = ps.length ∧ withPlaces s ps k = k bs (s.setDraws d)) ∨
    (∃ a, withPlaces s ps k = .fault (.unwrittenRead a) ∧ some a ∈ ps ∧ s.dmem.read a = none ∧
      s.params.unwritten = .fault) := by
  rcases readPlaces_cases s.params s.dmem s.draws ps with ⟨bs, d, h, hl⟩ | ⟨a, h, ha, hr, hu⟩
  · exact .inl ⟨bs, d, hl, by simp [withPlaces, h]⟩
  · exact .inr ⟨a, by simp [withPlaces, h], ha, hr, hu⟩

/-- A command that reads a stretch DMEM holds goes on with it, and nothing is drawn. -/
theorem withPlaces_holds {s : State} {a : Nat} {bs : List Byte} (h : s.dmem.Holds a bs)
    (k : List Byte → State → Result) : withPlaces s (places a bs.length) k = k bs s := by
  simp [withPlaces, readPlaces_holds h]

/-- Everything the reading loop of SYMS2BITS can do. -/
theorem collectBits_cases (p : Params) (m : Memory) (ic k : Nat) (e : Option Nat) (n a d : Nat) (acc : List Byte) :
    (∃ bits d', collectBits p m ic k e n a d acc = .ok (bits, d')) ∨
    (∃ x, collectBits p m ic k e n a d acc = .error (.unwrittenRead x) ∧ a ≤ x ∧ x < a + n ∧ m.read x = none ∧
      p.unwritten = .fault) := by
  induction n generalizing a d acc with
  | zero => exact .inl ⟨acc, d, rfl⟩
  | succ n ih =>
    unfold collectBits
    split
    · exact .inl ⟨acc, d, rfl⟩
    · rcases readByte_cases p m d a with ⟨b, d₁, hb, -⟩ | ⟨hb, hr, hu⟩
      · simp only [hb]
        rcases ih (a + 1) d₁ (acc ++ symbolBits ic k b) with ⟨bits, d', h⟩ | ⟨x, h, h₁, h₂, hr, hu⟩
        · exact .inl ⟨bits, d', h⟩
        · exact .inr ⟨x, h, by omega, by omega, hr, hu⟩
      · exact .inr ⟨a, by simp [hb], by omega, by omega, hr, hu⟩

end Sys2Proof.Machine
end

