-- ==== Sys2Proof/Laws/Commands.lean ====
section
/-! SUPPORT. Per command: the equation it runs by once its register checks pass, and the one way it ends where they do not.
With `withPlaces_cases` these say everything a command can do. -/

namespace Sys2Proof.Machine

/-- A command ends with an error before it reads anything. -/
def StopsEarly (i : Instr) (s : State) : Prop :=
  ∃ e : ErrCode, e ≠ .none ∧ e ≠ .format ∧ exec i s = .next (s.finish e)

theorem symbolWidth_legal {bps : Nat} {k : BitVec 4} (h : legalK k) :
    symbolWidth bps k = some (if k = 0 then bps else k.toNat) := by
  unfold symbolWidth; split <;> simp_all

theorem symbolWidth_illegal {bps : Nat} {k : BitVec 4} (h : ¬ legalK k) : symbolWidth bps k = none := by
  have : k ≠ 0 := by rintro rfl; simp [legalK] at h
  unfold symbolWidth; simp only [legalK] at h; rw [if_neg this, if_neg h]

theorem widthOf_legal {s : State} {k : BitVec 4} (h : legalK k) :
    widthOf s k = if k = 0 then s.act.bps.toNat else k.toNat := by
  rw [widthOf, symbolWidth_legal h]; rfl

/-! ## Once the checks pass -/

theorem execCfgCommit_legal {s : State} (h : stagedLegal s.cfg = true) :
    exec .cfgCommit s = .next ((s.activate.setCfgValid true).finish .none) := by
  simp [exec, execCfgCommit, h, complete]

theorem execCfgCommit_illegal {s : State} (h : stagedLegal s.cfg = false) :
    exec .cfgCommit s = .next ((s.setCfgValid false).finish .config) := by
  simp [exec, execCfgCommit, h, fail]

theorem execQIcount_ready {s : State} (h : ChecksPass .qIcount s) :
    exec .qIcount s = .next ((s.setR0 (toReg s.scheme.icount)).finish .none) := by
  simp [exec, execQIcount, h.1, complete]

theorem execQBps_ready {s : State} (h : ChecksPass .qBps s) :
    exec .qBps s = .next ((s.setR0 (toReg s.scheme.bps)).finish .none) := by
  simp [exec, execQBps, h.1, complete]

theorem execQAnchor_ready {s : State} (h : ChecksPass .qAnchor s) :
    exec .qAnchor s = .next ((s.setR0 (toReg (anchor s.scheme s.a0.toNat))).finish .none) := by
  have : ¬ s.scheme.icount ≤ s.a0.toNat := by simpa [operandOk, State.scheme] using h.2.1
  simp [exec, execQAnchor, h.1, this, complete]

theorem execQIsfiller_ready {s : State} (h : ChecksPass .qIsfiller s) :
    exec .qIsfiller s = .next ((s.setR0 (if isFiller s.scheme s.a0.toNat then 1 else 0)).finish .none) := by
  have : ¬ 255 < s.a0.toNat := by simpa [operandOk] using h.2.1
  simp [exec, execQIsfiller, h.1, this, complete]

theorem execQTosymbol_ready {s : State} (h : ChecksPass .qTosymbol s) :
    exec .qTosymbol s = .next ((s.setR0 ((toSymbol s.scheme s.a0.toNat).code.setWidth 32)).finish .none) := by
  have : ¬ 255 < s.a0.toNat := by simpa [operandOk] using h.2.1
  simp [exec, execQTosymbol, h.1, this, complete]

theorem execBytes2bits_ready {s : State} (h : ChecksPass .bytes2bits s) :
    exec .bytes2bits s = withPlaces s (places s.a0.toNat s.a1.toNat) fun bs t =>
      .next (((t.store t.a2.toNat (bytesToBits bs)).setR0 (toReg (8 * t.a1.toNat))).finish .none) := by
  simp [exec, execBytes2bits, h.1, h.2.2.2.2, complete]

theorem execBits2bytes_ready {s : State} (h : ChecksPass .bits2bytes s) :
    exec .bits2bytes s = withPlaces s (places s.a0.toNat s.a1.toNat) fun bits t =>
      if bits.any badCell then .next (t.finish .format)
      else .next (((t.store t.a2.toNat (bitsToBytes bits)).setR0 (toReg (cdiv t.a1.toNat 8))).finish .none) := by
  simp [exec, execBits2bytes, h.1, h.2.2.2.2, complete, fail]

theorem execBits2syms_ready {s : State} {k : BitVec 4} (h : ChecksPass (.bits2syms k) s) :
    exec (.bits2syms k) s = withPlaces s (places s.a0.toNat s.a1.toNat) fun bits t =>
      if bits.any badCell then .next (t.finish .format)
      else .next (((t.store t.a2.toNat (bitsToSyms (widthOf s k) t.scheme.icount bits)).setR0
        (toReg (cdiv t.a1.toNat (widthOf s k)))).finish .none) := by
  have hk : legalK k := h.2.1
  rw [widthOf_legal hk]
  simp [exec, execBits2syms, h.1, h.2.2.2.2, symbolWidth_legal hk, complete, fail, State.scheme]

theorem execSyms2bits_ready {s : State} {k : BitVec 4} {auto : Bool} (h : ChecksPass (.syms2bits k auto) s) :
    exec (.syms2bits k auto) s =
      match collectBits s.params s.dmem s.scheme.icount (widthOf s k) (expectedBits s auto) s.a1.toNat s.a0.toNat s.draws []
        with
      | .error f => .fault f
      | .ok (bits, d) => .next (((((s.setDraws d).store s.a2.toNat (keptBits (expectedBits s auto) bits)).setR0
          (toReg (keptBits (expectedBits s auto) bits).length)).flagShort (expectedBits s auto) bits.length).finish .none) := by
  have hk : legalK k := h.2.1
  rw [widthOf_legal hk]
  simp only [exec, execSyms2bits, h.1, h.2.2.2.2, symbolWidth_legal hk, complete, State.scheme]
  rfl

theorem execFecEnc_ready {s : State} (h : ChecksPass .fecEnc s) :
    exec .fecEnc s = withPlaces s (places s.a0.toNat s.a1.toNat) fun p t =>
      .next (((t.store t.a2.toNat (fecEncode t.act.ratio.toNat p)).setR0
        (toReg (t.a1.toNat + fecSize t.act.ratio.toNat t.a1.toNat))).finish .none) := by
  simp [exec, execFecEnc, h.1, h.2.2.2.2, complete]

theorem execFecDec_ready {s : State} (h : ChecksPass .fecDec s) :
    exec .fecDec s = withPlaces s (places s.a0.toNat s.a1.toNat) fun buf t =>
      if fecCopies s.act.ratio.toNat s.a1.toNat then fecCopy buf t
      else fecRepair (fecPayload s.act.ratio.toNat s.a1.toNat) buf t := by
  have hd : ¬ (5 ≤ s.a1.toNat ∧ fecPayload s.act.ratio.toNat s.a1.toNat = 0) := by
    have := h.2.2.2.1
    simp only [domainOk] at this; omega
  simp only [exec, execFecDec, h.1, h.2.2.2.2, hd]
  simp

theorem execLayout_ready {s : State} {ch : BitVec 4} (h : ChecksPass (.layout ch) s) :
    exec (.layout ch) s = withPlaces s (places s.a0.toNat s.a1.toNat) fun syms t =>
      if syms.any (codeOutOfRange t.scheme.icount) then .next (t.finish .format)
      else .next (((t.store t.a2.toNat (layoutBytes t.scheme ch.toNat (pixelCount t) syms)).setCount
        (pixelCount t * ch.toNat)).finish .none) := by
  have hc : legalCh ch := h.2.1
  have hp : ¬ pixelCount s < cdiv s.a1.toNat 3 := by simpa [capacityOk, pixelCount] using h.2.2.1
  simp [exec, execLayout, h.1, h.2.2.2.2, hc, hp, complete, fail]

theorem execExtract_ready {s : State} {ch : BitVec 4} (h : ChecksPass (.extract ch) s) :
    exec (.extract ch) s =
      withPlaces s (extractPlaces s.a0.toNat (min s.a1.toNat (pixelCount s * ch.toNat)) ch.toNat (pixelCount s)) fun vs t =>
      .next ((((t.store t.a2.toNat (extractCodes t.scheme vs)).setR0 (toReg (3 * pixelCount s))).setAmbig
        (decide (t.a1.toNat ≠ pixelCount s * ch.toNat))).finish .none) := by
  have hc : legalCh ch := h.2.1
  simp [exec, execExtract, h.1, h.2.2.2.2, hc, complete]

theorem execPlan_ready {s : State} (h : ChecksPass .plan s) :
    exec .plan s =
      let g := planGrid s.scheme.bps s.act.minDim.toNat s.a0.toNat
      .next (((((s.setR0 (toReg g.width)).setR1 (toReg g.height)).setR2 (toReg g.totalSymbols)).setR3
        (toReg g.pixelsNeeded)).finish .none) := by
  have : ¬ 0x0FFFFFFF < s.a0.toNat := by simpa [operandOk] using h.2.1
  simp [exec, execPlan, h.1, this, complete]

/-! ## Where a check fails -/

/-- A command other than CFG_COMMIT, one of whose register checks fails, ends there. -/
theorem stopsEarly {i : Instr} {s : State} (hi : i ≠ .cfgCommit) (h : ¬ ChecksPass i s) : StopsEarly i s := by
  cases hv : s.status.cfgValid with
  | false =>
    refine ⟨.config, by simp, by simp, ?_⟩
    cases i <;> first
      | exact absurd rfl hi
      | simp [exec, execQIcount, execQBps, execQAnchor, execQIsfiller, execQTosymbol, execBytes2bits, execBits2bytes,
          execBits2syms, execSyms2bits, execFecEnc, execFecDec, execLayout, execExtract, execPlan, hv, fail]
  | true =>
    simp only [ChecksPass, hv, true_and] at h
    by_cases ho : operandOk i s
    · by_cases hc : capacityOk i s
      · by_cases hd : domainOk i s
        · have hr : rangeOk i s = false := by simpa [ho, hc, hd] using h
          refine ⟨.range, by simp, by simp, ?_⟩
          cases i
          case cfgCommit => exact absurd rfl hi
          case bits2syms k =>
            have hk : legalK k := ho
            simp [exec, execBits2syms, hv, symbolWidth_legal hk, hr, fail]
          case syms2bits k auto =>
            have hk : legalK k := ho
            simp [exec, execSyms2bits, hv, symbolWidth_legal hk, hr, fail]
          case fecDec =>
            have : ¬ (5 ≤ s.a1.toNat ∧ fecPayload s.act.ratio.toNat s.a1.toNat = 0) := by
              simp only [domainOk] at hd; omega
            simp only [exec, execFecDec, hv, hr, this]; simp [fail]
          case layout ch =>
            have hc' : legalCh ch := ho
            have : ¬ pixelCount s < cdiv s.a1.toNat 3 := by simpa [capacityOk, pixelCount] using hc
            simp [exec, execLayout, hv, hc', this, hr, fail]
          case extract ch =>
            have hc' : legalCh ch := ho
            simp [exec, execExtract, hv, hc', hr, fail]
          all_goals first
            | simp [exec, execBytes2bits, execBits2bytes, execFecEnc, hv, hr, fail]; done
            | simp [rangeOk, inputRegions, outputRegions, regionsLegal, apart] at hr
        · refine ⟨.domain, by simp, by simp, ?_⟩
          cases i <;> simp only [domainOk, not_true_eq_false] at hd
          have : 5 ≤ s.a1.toNat ∧ fecPayload s.act.ratio.toNat s.a1.toNat = 0 := by omega
          simp only [exec, execFecDec, hv, this]; simp [fail]
      · refine ⟨.capacity, by simp, by simp, ?_⟩
        cases i <;> simp only [capacityOk, not_true_eq_false] at hc
        rename_i ch
        have hc' : legalCh ch := ho
        have : pixelCount s < cdiv s.a1.toNat 3 := by simpa [pixelCount] using hc
        simp [exec, execLayout, hv, hc', this, fail]
    · refine ⟨.operand, by simp, by simp, ?_⟩
      cases i <;> simp only [operandOk, not_true_eq_false] at ho
      case qAnchor =>
        have : s.scheme.icount ≤ s.a0.toNat := by simpa [State.scheme] using ho
        simp [exec, execQAnchor, hv, this, fail]
      case qIsfiller =>
        have : 255 < s.a0.toNat := by omega
        simp [exec, execQIsfiller, hv, this, fail]
      case qTosymbol =>
        have : 255 < s.a0.toNat := by omega
        simp [exec, execQTosymbol, hv, this, fail]
      case bits2syms k => simp [exec, execBits2syms, hv, symbolWidth_illegal ho, fail]
      case syms2bits k auto => simp [exec, execSyms2bits, hv, symbolWidth_illegal ho, fail]
      case layout ch => simp [exec, execLayout, hv, ho, fail]
      case extract ch => simp [exec, execExtract, hv, ho, fail]
      case plan =>
        have : 0x0FFFFFFF < s.a0.toNat := by omega
        simp [exec, execPlan, hv, this, fail]

/-! ## Everything a next state can be -/

/-- The state a command leaves when it completes without an error, given the bytes it read and the free values drawn. -/
def Completion (i : Instr) (s t : State) : Prop :=
  match i with
  | .cfgCommit => stagedLegal s.cfg = true ∧ t = (s.activate.setCfgValid true).finish .none
  | .qIcount => t = (s.setR0 (toReg s.scheme.icount)).finish .none
  | .qBps => t = (s.setR0 (toReg s.scheme.bps)).finish .none
  | .qAnchor => t = (s.setR0 (toReg (anchor s.scheme s.a0.toNat))).finish .none
  | .qIsfiller => t = (s.setR0 (if isFiller s.scheme s.a0.toNat then 1 else 0)).finish .none
  | .qTosymbol => t = (s.setR0 ((toSymbol s.scheme s.a0.toNat).code.setWidth 32)).finish .none
  | .bytes2bits => ∃ (bs : List Byte) (d : Nat), bs.length = s.a1.toNat ∧
      t = ((((s.setDraws d).store s.a2.toNat (bytesToBits bs)).setR0 (toReg (8 * s.a1.toNat))).finish .none)
  | .bits2bytes => ∃ (bits : List Byte) (d : Nat), bits.length = s.a1.toNat ∧ bits.any badCell = false ∧
      t = ((((s.setDraws d).store s.a2.toNat (bitsToBytes bits)).setR0 (toReg (cdiv s.a1.toNat 8))).finish .none)
  | .bits2syms k => ∃ (bits : List Byte) (d : Nat), bits.length = s.a1.toNat ∧ bits.any badCell = false ∧
      t = ((((s.setDraws d).store s.a2.toNat (bitsToSyms (widthOf s k) s.scheme.icount bits)).setR0
        (toReg (cdiv s.a1.toNat (widthOf s k)))).finish .none)
  | .syms2bits k auto => ∃ (bits : List Byte) (d : Nat),
      collectBits s.params s.dmem s.scheme.icount (widthOf s k) (expectedBits s auto) s.a1.toNat s.a0.toNat s.draws [] =
        .ok (bits, d) ∧
      t = (((((s.setDraws d).store s.a2.toNat (keptBits (expectedBits s auto) bits)).setR0
          (toReg (keptBits (expectedBits s auto) bits).length)).flagShort (expectedBits s auto) bits.length).finish .none)
  | .fecEnc => ∃ (p : List Byte) (d : Nat), p.length = s.a1.toNat ∧
      t = ((((s.setDraws d).store s.a2.toNat (fecEncode s.act.ratio.toNat p)).setR0
        (toReg (s.a1.toNat + fecSize s.act.ratio.toNat s.a1.toNat))).finish .none)
  | .fecDec => ∃ (buf : List Byte) (d : Nat), buf.length = s.a1.toNat ∧
      (if fecCopies s.act.ratio.toNat s.a1.toNat then fecCopy buf (s.setDraws d)
       else fecRepair (fecPayload s.act.ratio.toNat s.a1.toNat) buf (s.setDraws d)) = .next t
  | .layout ch => ∃ (syms : List Byte) (d : Nat), syms.length = s.a1.toNat ∧
      syms.any (codeOutOfRange s.scheme.icount) = false ∧
      t = ((((s.setDraws d).store s.a2.toNat (layoutBytes s.scheme ch.toNat (pixelCount s) syms)).setCount
        (pixelCount s * ch.toNat)).finish .none)
  | .extract ch => ∃ (vs : List Byte) (d : Nat), vs.length = (channelOffsets ch.toNat (pixelCount s)).length ∧
      t = (((((s.setDraws d).store s.a2.toNat (extractCodes s.scheme vs)).setR0 (toReg (3 * pixelCount s))).setAmbig
        (decide (s.a1.toNat ≠ pixelCount s * ch.toNat))).finish .none)
  | .plan =>
      let g := planGrid s.scheme.bps s.act.minDim.toNat s.a0.toNat
      t = (((((s.setR0 (toReg g.width)).setR1 (toReg g.height)).setR2 (toReg g.totalSymbols)).setR3
        (toReg g.pixelsNeeded)).finish .none)

/-- A command's end with an error: STATUS, and the count of free values that its reads drew. -/
def Failure (i : Instr) (s t : State) : Prop :=
  if i = .cfgCommit then stagedLegal s.cfg = false ∧ t = (s.setCfgValid false).finish .config
  else ∃ (e : ErrCode) (d : Nat), e ≠ .none ∧ t = (s.setDraws d).finish e

theorem Failure.of_finish {i : Instr} {s t : State} {e : ErrCode} {d : Nat} (hi : i ≠ .cfgCommit) (he : e ≠ .none)
    (h : (.next ((s.setDraws d).finish e) : Result) = .next t) : Failure i s t := by
  cases h; rw [Failure, if_neg hi]; exact ⟨e, d, he, rfl⟩

theorem withPlaces_next {s t : State} {ps : List (Option Nat)} {k : List Byte → State → Result}
    (h : withPlaces s ps k = .next t) : ∃ bs d, bs.length = ps.length ∧ k bs (s.setDraws d) = .next t := by
  rcases withPlaces_cases s ps k with ⟨bs, d, hl, h'⟩ | ⟨a, h', _⟩
  · exact ⟨bs, d, hl, by rw [← h', h]⟩
  · rw [h'] at h; cases h

/-- Every next state of a command is its completion, once its checks pass, or its failure. -/
theorem exec_next {i : Instr} {s t : State} (h : exec i s = .next t) :
    Failure i s t ∨ (i ≠ .cfgCommit → ChecksPass i s) ∧ Completion i s t := by
  by_cases hi : i = .cfgCommit
  · subst hi
    cases hl : stagedLegal s.cfg with
    | false => rw [execCfgCommit_illegal hl] at h; cases h; exact .inl (by simp [Failure, hl])
    | true => rw [execCfgCommit_legal hl] at h; cases h; exact .inr ⟨fun h => absurd rfl h, hl, rfl⟩
  by_cases hc : ChecksPass i s
  swap
  · obtain ⟨e, he, _, h'⟩ := stopsEarly hi hc
    rw [h'] at h; exact .inl (Failure.of_finish (d := s.draws) hi he h)
  cases i
  case cfgCommit => exact absurd rfl hi
  case qIcount => rw [execQIcount_ready hc] at h; cases h; exact .inr ⟨fun _ => hc, rfl⟩
  case qBps => rw [execQBps_ready hc] at h; cases h; exact .inr ⟨fun _ => hc, rfl⟩
  case qAnchor => rw [execQAnchor_ready hc] at h; cases h; exact .inr ⟨fun _ => hc, rfl⟩
  case qIsfiller => rw [execQIsfiller_ready hc] at h; cases h; exact .inr ⟨fun _ => hc, rfl⟩
  case qTosymbol => rw [execQTosymbol_ready hc] at h; cases h; exact .inr ⟨fun _ => hc, rfl⟩
  case plan => rw [execPlan_ready hc] at h; cases h; exact .inr ⟨fun _ => hc, rfl⟩
  case bytes2bits =>
    rw [execBytes2bits_ready hc] at h
    obtain ⟨bs, d, hl, h⟩ := withPlaces_next h
    cases h; exact .inr ⟨fun _ => hc, bs, d, by simpa [places_length] using hl, rfl⟩
  case bits2bytes =>
    rw [execBits2bytes_ready hc] at h
    obtain ⟨bs, d, hl, h⟩ := withPlaces_next h
    split at h
    · exact .inl (Failure.of_finish hi (by simp) h)
    · cases h; exact .inr ⟨fun _ => hc, bs, d, by simpa [places_length] using hl, eq_false_of_ne_true ‹¬ _ = true›, rfl⟩
  case bits2syms k =>
    rw [execBits2syms_ready hc] at h
    obtain ⟨bs, d, hl, h⟩ := withPlaces_next h
    split at h
    · exact .inl (Failure.of_finish hi (by simp) h)
    · cases h; exact .inr ⟨fun _ => hc, bs, d, by simpa [places_length] using hl, eq_false_of_ne_true ‹¬ _ = true›, rfl⟩
  case syms2bits k auto =>
    rw [execSyms2bits_ready hc] at h
    split at h
    · cases h
    · rename_i bits d hb
      cases h; exact .inr ⟨fun _ => hc, bits, d, hb, rfl⟩
  case fecEnc =>
    rw [execFecEnc_ready hc] at h
    obtain ⟨bs, d, hl, h⟩ := withPlaces_next h
    cases h; exact .inr ⟨fun _ => hc, bs, d, by simpa [places_length] using hl, rfl⟩
  case fecDec =>
    rw [execFecDec_ready hc] at h
    obtain ⟨bs, d, hl, h⟩ := withPlaces_next h
    exact .inr ⟨fun _ => hc, bs, d, by simpa [places_length] using hl, h⟩
  case layout ch =>
    rw [execLayout_ready hc] at h
    obtain ⟨bs, d, hl, h⟩ := withPlaces_next h
    split at h
    · exact .inl (Failure.of_finish hi (by simp) h)
    · cases h; exact .inr ⟨fun _ => hc, bs, d, by simpa [places_length] using hl, eq_false_of_ne_true ‹¬ _ = true›, rfl⟩
  case extract ch =>
    rw [execExtract_ready hc] at h
    obtain ⟨bs, d, hl, h⟩ := withPlaces_next h
    cases h; exact .inr ⟨fun _ => hc, bs, d, by simpa [extractPlaces] using hl, rfl⟩

end Sys2Proof.Machine
end

