-- ==== Sys2Proof/Laws/PerInstr.lean ====
section
/-! SUPPORT. Statements made once per command, as syntax. -/

namespace Sys2Proof.Laws

/-- A command's word matches the command's own row of opcode_table.json (30_encoding R77). -/
def TableRow.Statement (i : Instr) : Prop := encode i &&& i.tableRow.1 = i.tableRow.2

theorem TableRow.cfgCommit : TableRow.Statement .cfgCommit := by unfold TableRow.Statement; decide
theorem TableRow.qIcount : TableRow.Statement .qIcount := by unfold TableRow.Statement; decide
theorem TableRow.qBps : TableRow.Statement .qBps := by unfold TableRow.Statement; decide
theorem TableRow.qAnchor : TableRow.Statement .qAnchor := by unfold TableRow.Statement; decide
theorem TableRow.qIsfiller : TableRow.Statement .qIsfiller := by unfold TableRow.Statement; decide
theorem TableRow.qTosymbol : TableRow.Statement .qTosymbol := by unfold TableRow.Statement; decide
theorem TableRow.bytes2bits : TableRow.Statement .bytes2bits := by unfold TableRow.Statement; decide
theorem TableRow.bits2bytes : TableRow.Statement .bits2bytes := by unfold TableRow.Statement; decide
theorem TableRow.bits2syms (k : BitVec 4) : TableRow.Statement (.bits2syms k) := by
  unfold TableRow.Statement; revert k; decide
theorem TableRow.syms2bits (k : BitVec 4) (auto : Bool) : TableRow.Statement (.syms2bits k auto) := by
  unfold TableRow.Statement; revert k auto; decide
theorem TableRow.fecEnc : TableRow.Statement .fecEnc := by unfold TableRow.Statement; decide
theorem TableRow.fecDec : TableRow.Statement .fecDec := by unfold TableRow.Statement; decide
theorem TableRow.layout (ch : BitVec 4) : TableRow.Statement (.layout ch) := by
  unfold TableRow.Statement; revert ch; decide
theorem TableRow.extract (ch : BitVec 4) : TableRow.Statement (.extract ch) := by
  unfold TableRow.Statement; revert ch; decide
theorem TableRow.plan : TableRow.Statement .plan := by unfold TableRow.Statement; decide

end Sys2Proof.Laws
end

