-- ==== Sys2Proof/Laws/Encoding.lean ====
section
/-! SUPPORT. The fields of a packed word, and a word packed from its fields. -/

namespace Sys2Proof

theorem fieldOp_packWord (a : Bool) (c k : BitVec 4) (o : BitVec 8) : fieldOp (packWord a c k o) = o := by
  ext i hi; simp [fieldOp, packWord]; interval_cases i <;> simp

theorem fieldK_packWord (a : Bool) (c k : BitVec 4) (o : BitVec 8) : fieldK (packWord a c k o) = k := by
  ext i hi; simp [fieldK, packWord]; interval_cases i <;> simp

theorem fieldCh_packWord (a : Bool) (c k : BitVec 4) (o : BitVec 8) : fieldCh (packWord a c k o) = c := by
  ext i hi; simp [fieldCh, packWord]
  interval_cases i <;> simp [BitVec.getLsbD_of_ge]

theorem fieldAuto_packWord (a : Bool) (c k : BitVec 4) (o : BitVec 8) : fieldAuto (packWord a c k o) = a := by
  simp [fieldAuto, packWord]

theorem fieldReserved_packWord (a : Bool) (c k : BitVec 4) (o : BitVec 8) : fieldReserved (packWord a c k o) = 0 := by
  ext i hi; simp [fieldReserved, packWord]; interval_cases i <;> simp [BitVec.getLsbD_of_ge]

/-- A word whose reserved bits are 0 is packed from its fields. -/
theorem packWord_fields {w : Word} (h : fieldReserved w = 0) :
    packWord (fieldAuto w) (fieldCh w) (fieldK w) (fieldOp w) = w := by
  have reserved : ∀ j, j < 15 → w.getLsbD (17 + j) = false := by
    intro j hj
    have := congrArg (fun x => x.getLsbD j) h
    simpa [fieldReserved, BitVec.getLsbD_extractLsb', hj] using this
  ext i hi
  simp [packWord, fieldAuto, fieldCh, fieldK, fieldOp]
  by_cases h17 : 17 ≤ i
  · have := reserved (i - 17) (by omega)
    rw [show 17 + (i - 17) = i by omega] at this
    simp [BitVec.getLsbD_eq_getElem, hi] at this
    simp [this]; omega
  · interval_cases i <;> simp [BitVec.getLsbD_eq_getElem]

/-- The command that an opcode's word names has that opcode, and carries the word's fields where it decodes them. -/
theorem decodeOp_cases {w : Word} {i : Instr} (h : decodeOp w = some i) :
    i.opcode = fieldOp w ∧ i ∈ ([.cfgCommit, .qIcount, .qBps, .qAnchor, .qIsfiller, .qTosymbol, .bytes2bits, .bits2bytes,
      .bits2syms (fieldK w), .syms2bits (fieldK w) (fieldAuto w), .fecEnc, .fecDec, .layout (fieldCh w),
      .extract (fieldCh w), .plan] : List Instr) := by
  have key : ∀ n, (fieldOp w).toNat = n → fieldOp w = BitVec.ofNat 8 n := fun n hn => by
    rw [← hn]; simp
  unfold decodeOp at h
  split at h <;> cases h <;> (rename_i hn; exact ⟨(key _ hn).symm, by simp⟩)

/-- An opcode byte names no command exactly when 30_encoding R71 leaves it unassigned. -/
theorem decodeOp_eq_none {w : Word} : decodeOp w = none ↔
    fieldOp w ∉ ([0x01, 0x10, 0x11, 0x12, 0x13, 0x14, 0x20, 0x21, 0x22, 0x23, 0x30, 0x31, 0x40, 0x41, 0x50] :
      List (BitVec 8)) := by
  constructor
  · intro h hm
    simp only [List.mem_cons, List.not_mem_nil, or_false] at hm
    rcases hm with h' | h' | h' | h' | h' | h' | h' | h' | h' | h' | h' | h' | h' | h' | h' <;> simp [decodeOp, h'] at h
  · intro hm
    cases h : decodeOp w with
    | none => rfl
    | some i =>
      obtain ⟨ho, hi⟩ := decodeOp_cases h
      simp only [List.mem_cons, List.not_mem_nil, or_false] at hi
      rcases hi with rfl | rfl | rfl | rfl | rfl | rfl | rfl | rfl | rfl | rfl | rfl | rfl | rfl | rfl | rfl <;>
        exact absurd hm (by simp [← ho, Instr.opcode])

/-- The row of a command masks OP and the reserved bits whole, and exactly those of K, CH and AUTO that the command does not
decode; what it matches is the opcode, with zeros there. -/
theorem tableRow_fields (i : Instr) :
    (fieldOp i.tableRow.1 = 0xFF ∧ fieldOp i.tableRow.2 = i.opcode) ∧
    (fieldReserved i.tableRow.1 = 0x7FFF ∧ fieldReserved i.tableRow.2 = 0) ∧
    (fieldK i.tableRow.1 = (if i.decodesK then 0 else 0xF) ∧ fieldK i.tableRow.2 = 0) ∧
    (fieldCh i.tableRow.1 = (if i.decodesCh then 0 else 0xF) ∧ fieldCh i.tableRow.2 = 0) ∧
    (fieldAuto i.tableRow.1 = !i.decodesAuto ∧ fieldAuto i.tableRow.2 = false) := by
  cases i <;>
    simp only [Instr.tableRow, Instr.opcode, Instr.decodesK, Instr.decodesCh, Instr.decodesAuto] <;> decide +revert

/-- The fields of a masked word. -/
theorem field_and (v w : Word) : fieldOp (v &&& w) = fieldOp v &&& fieldOp w ∧
    fieldReserved (v &&& w) = fieldReserved v &&& fieldReserved w ∧ fieldK (v &&& w) = fieldK v &&& fieldK w ∧
    fieldCh (v &&& w) = fieldCh v &&& fieldCh w ∧ fieldAuto (v &&& w) = (fieldAuto v && fieldAuto w) := by
  have sub : ∀ a n, (v &&& w).extractLsb' a n = v.extractLsb' a n &&& w.extractLsb' a n := fun a n => by
    ext j hj; simp
  exact ⟨sub _ _, sub _ _, sub _ _, sub _ _, by simp [fieldAuto]⟩

end Sys2Proof
end

