-- ==== Sys2Proof/Laws/Units.lean ====
section
/-! SUPPORT. The units' functions: how long their answers are, what a region's address test means, and the fields of the two
updates that depend on their argument. -/

namespace Sys2Proof.Machine

/-! ## Lengths -/

@[simp] theorem byteBits_length (b : Byte) : (byteBits b).length = 8 := by simp [byteBits]

@[simp] theorem bytesToBits_length (bs : List Byte) : (bytesToBits bs).length = 8 * bs.length := by
  induction bs with
  | nil => rfl
  | cons b bs ih =>
    rw [bytesToBits, List.flatMap_cons, List.length_append, ← bytesToBits, ih, byteBits_length, List.length_cons]; omega

@[simp] theorem bitsToBytes_length (bits : List Byte) : (bitsToBytes bits).length = cdiv bits.length 8 := by
  simp [bitsToBytes]

@[simp] theorem bitsToSyms_length (k ic : Nat) (bits : List Byte) :
    (bitsToSyms k ic bits).length = cdiv bits.length k := by simp [bitsToSyms]

@[simp] theorem expand_length (ic k : Nat) (c : Byte) : (expand ic k c).length = k := by simp [expand]

theorem symbolBits_length_le (ic k : Nat) (c : Byte) : (symbolBits ic k c).length ≤ k := by
  unfold symbolBits; split <;> simp

@[simp] theorem redundancy_length (p : List Byte) (f : Nat) : (redundancy p f).length = f := by simp [redundancy]

@[simp] theorem fecEncode_length (r : Nat) (p : List Byte) : (fecEncode r p).length = p.length + fecSize r p.length := by
  simp [fecEncode]

@[simp] theorem flipBit_length (p : List Byte) (x b : Nat) : (flipBit p x b).length = p.length := by simp [flipBit]

@[simp] theorem searchFlip_length (p q : List Byte) (i : Nat) : (searchFlip p q i).length = p.length := by
  unfold searchFlip; split <;> simp

@[simp] theorem correctIndex_length (rc : Bool) (q p : List Byte) (i : Nat) :
    (correctIndex rc q p i).length = p.length := by unfold correctIndex; split <;> simp

@[simp] theorem fecCorrect_length (rc : Bool) (p q : List Byte) : (fecCorrect rc p q).length = p.length := by
  unfold fecCorrect
  generalize mismatches p q = is
  induction is generalizing p with
  | nil => rfl
  | cons i is ih => rw [List.foldl_cons, ih, correctIndex_length]

@[simp] theorem bigEndian_length (w : Word) : (bigEndian w).length = 4 := rfl

@[simp] theorem diagnostics_length (is : List Nat) (d : Nat) : (diagnostics is d).length = 4 * min d is.length := by
  simp [diagnostics, List.length_flatMap]; omega

@[simp] theorem layoutBytes_length (q : Scheme) (ch n : Nat) (syms : List Byte) :
    (layoutBytes q ch n syms).length = n * ch := by simp [layoutBytes]

@[simp] theorem channelOffsets_length (ch n : Nat) : (channelOffsets ch n).length = 3 * n := by
  simp [channelOffsets, List.length_flatMap]; omega

theorem extractCodes_length (q : Scheme) (n : Nat) {vs : List Byte} (h : vs.length = 3 * n) :
    (extractCodes q vs).length = 3 * n := by
  induction n generalizing vs with
  | zero => have : vs = [] := List.length_eq_zero_iff.1 h; subst this; rfl
  | succ n ih =>
    match vs, h with
    | a :: b :: c :: rest, h =>
      have := ih (vs := rest) (by simpa [Nat.mul_succ] using h)
      rw [extractCodes, List.length_append, this]
      split <;> (simp; omega)

theorem keptBits_length_le (e : Option Nat) (bits : List Byte) : (keptBits e bits).length ≤ bits.length := by
  unfold keptBits; split <;> simp

/-- The reading loop of SYMS2BITS collects at most k bits per symbol. -/
theorem collectBits_length {p : Params} {m : Memory} {ic k : Nat} {e : Option Nat} {n a d : Nat} {acc bits : List Byte}
    {d' : Nat} (h : collectBits p m ic k e n a d acc = .ok (bits, d')) : bits.length ≤ acc.length + k * n := by
  induction n generalizing a d acc with
  | zero => cases h; omega
  | succ n ih =>
    simp only [collectBits] at h
    split at h
    · cases h; omega
    · split at h
      · cases h
      · have := ih h
        have hs := symbolBits_length_le ic k ‹_›
        rw [List.length_append] at this
        rw [Nat.mul_succ]; omega

/-! ## Regions -/

theorem Region.has_iff (g : Region) (a : Nat) : g.has a = true ↔ g.base ≤ a ∧ a < g.base + g.len := by simp [Region.has]

theorem Region.has_false_iff (g : Region) (a : Nat) : g.has a = false ↔ a < g.base ∨ g.base + g.len ≤ a := by
  rw [← Bool.not_eq_true, Region.has_iff]; omega

theorem Region.inRange_iff (size : Nat) (g : Region) : g.inRange size = true ↔ (0 < g.len → g.base + g.len ≤ size) := by
  simp [Region.inRange]; omega

/-- Two regions overlap exactly when some address is in both. -/
theorem Region.overlaps_iff (g h : Region) : g.overlaps h = true ↔ ∃ a, g.has a = true ∧ h.has a = true := by
  simp only [Region.overlaps, Region.has_iff, Bool.and_eq_true, bne_iff_ne, decide_eq_true_eq]
  constructor
  · rintro ⟨⟨⟨h1, h2⟩, h3⟩, h4⟩
    exact ⟨max g.base h.base, by omega⟩
  · rintro ⟨a, h1, h2⟩; omega

/-- A command whose region check passes stores and reads inside DMEM. -/
theorem rangeOk_inRange {i : Instr} {s : State} (h : rangeOk i s = true) {g : Region}
    (hg : g ∈ inputRegions i s ∨ g ∈ outputRegions i s) : 0 < g.len → g.base + g.len ≤ s.params.dmemSize := by
  simp only [rangeOk, regionsLegal, Bool.and_eq_true, List.all_eq_true, List.mem_append] at h
  exact (g.inRange_iff _).1 (h.1.1 g hg)

/-- No output of a command whose region check passes shares an address with an input. -/
theorem rangeOk_disjoint {i : Instr} {s : State} (h : rangeOk i s = true) {g o : Region} (hg : g ∈ inputRegions i s)
    (ho : o ∈ outputRegions i s) : ¬ ∃ a, o.has a = true ∧ g.has a = true := by
  simp only [rangeOk, regionsLegal, Bool.and_eq_true, List.all_eq_true] at h
  have := h.1.2 o ho g hg
  rw [← Region.overlaps_iff]; simpa using this

/-- An output beside an input that is not empty is shorter than 2^32 bytes, so its length fits a register. -/
theorem rangeOk_fits {i : Instr} {s : State} (hp : s.params.Legal) (h : rangeOk i s = true) {g o : Region}
    (hg : g ∈ inputRegions i s) (ho : o ∈ outputRegions i s) (hpos : 0 < g.len) : o.len < 2 ^ 32 := by
  by_contra hbig
  have h1 := rangeOk_inRange h (.inr ho) (by omega)
  have h2 := rangeOk_inRange h (.inl hg) hpos
  have := hp.2
  refine rangeOk_disjoint h hg ho ⟨g.base, ?_⟩
  simp only [Region.has_iff]; omega

/-! ## Updates whose fields depend on the argument -/

theorem State.setCount_fits {s : State} {n : Nat} (h : n < 2 ^ 32) : s.setCount n = s.setR0 (toReg n) := by
  rw [State.setCount, if_pos h]

/-- Only R0 and the draw counter change. -/
theorem State.setCount_frame (s : State) (n : Nat) : ∃ w d, s.setCount n = (s.setR0 w).setDraws d := by
  unfold State.setCount; split
  · exact ⟨toReg n, s.draws, rfl⟩
  · exact ⟨_, _, rfl⟩

/-- Only SHORT changes. -/
theorem State.flagShort_frame (s : State) (e : Option Nat) (n : Nat) :
    ∃ b, s.flagShort e n = s.setShort b ∧ (e = none → b = s.status.short) := by
  cases e with
  | none => exact ⟨s.status.short, rfl, fun _ => rfl⟩
  | some e => exact ⟨_, rfl, by simp⟩

theorem toReg_toNat {n : Nat} (h : n < 2 ^ 32) : (toReg n).toNat = n := by
  rw [toReg, BitVec.toNat_ofNat, Nat.mod_eq_of_lt h]

/-! ## A completion -/

/-- A command that completes leaves ERR = 0. -/
theorem Completion.err {i : Instr} {s t : State} (h : Completion i s t) : t.status.err = .none := by
  cases i <;> simp only [Completion] at h
  case cfgCommit => obtain ⟨_, rfl⟩ := h; simp
  case syms2bits => obtain ⟨_, _, _, rfl⟩ := h; simp
  case fecDec =>
    obtain ⟨_, _, _, h⟩ := h
    split at h
    · simp only [fecCopy, complete_eq] at h; cases h; simp
    · simp only [fecRepair, complete_eq] at h; cases h; simp
  case bytes2bits | fecEnc | extract => obtain ⟨_, _, _, rfl⟩ := h; simp
  case layout | bits2bytes | bits2syms => obtain ⟨_, _, _, _, rfl⟩ := h; simp
  all_goals (subst h; simp)

/-! ## Stores -/

theorem mismatches_length_le (p q : List Byte) : (mismatches p q).length ≤ q.length := by
  unfold mismatches; exact (List.length_filter_le _ _).trans (by simp)

/-- What the correcting path of FEC_DEC leaves: the payload and the entries of what is left are stored, and nothing else of
DMEM changes. -/
theorem fecRepair_dmem {n : Nat} {buf : List Byte} {s t : State} (h : fecRepair n buf s = .next t) :
    t.dmem = (s.dmem.writeBytes s.a2.toNat (fecCorrect s.params.recheck (buf.take n) (buf.drop n))).writeBytes s.a3.toNat
      (diagnostics (mismatches (fecCorrect s.params.recheck (buf.take n) (buf.drop n)) (buf.drop n))
        (min (mismatches (fecCorrect s.params.recheck (buf.take n) (buf.drop n)) (buf.drop n)).length
          s.act.maxWarn.toNat)) := by
  cases h; rfl

theorem fecCopy_dmem {buf : List Byte} {s t : State} (h : fecCopy buf s = .next t) :
    t.dmem = s.dmem.writeBytes s.a2.toNat buf := by cases h; rfl

theorem Failure.dmem {i : Instr} {s t : State} (h : Failure i s t) : t.dmem = s.dmem := by
  unfold Failure at h
  split at h
  · obtain ⟨_, rfl⟩ := h; rfl
  · obtain ⟨_, _, _, rfl⟩ := h; rfl

/-- The stretches that a command stores: none, one or two, each inside DMEM. -/
def StoresInside (s t : State) : Prop :=
  ∃ stores : List (Nat × List Byte), t.dmem = stores.foldl (fun m c => m.writeBytes c.1 c.2) s.dmem ∧
    ∀ c ∈ stores, c.2 = [] ∨ c.1 + c.2.length ≤ s.params.dmemSize

theorem StoresInside.of_same {s t : State} (h : t.dmem = s.dmem) : StoresInside s t :=
  ⟨[], h, fun _ hc => nomatch hc⟩

theorem StoresInside.of_region {i : Instr} {s t : State} {g : Region} {bs : List Byte} (hr : rangeOk i s = true)
    (hg : g ∈ outputRegions i s) (hn : bs.length ≤ g.len) (ht : t.dmem = s.dmem.writeBytes g.base bs) :
    StoresInside s t := by
  refine ⟨[(g.base, bs)], ht, fun c hc => ?_⟩
  cases List.mem_singleton.1 hc
  have := rangeOk_inRange hr (.inr hg)
  rcases Nat.eq_zero_or_pos bs.length with h0 | h0
  · exact .inl (List.length_eq_zero_iff.1 h0)
  · exact .inr (by simp only at this ⊢; omega)

theorem StoresInside.of_fecDec {s t : State} {buf : List Byte} (hl : buf.length = s.a1.toNat)
    (hr : rangeOk .fecDec s = true)
    (h : t.dmem = s.dmem.writeBytes s.a2.toNat buf ∧ fecCopies s.act.ratio.toNat s.a1.toNat = true ∨
      ∃ (p : List Byte) (left : List Nat), fecCopies s.act.ratio.toNat s.a1.toNat = false ∧
        p.length = min (fecPayload s.act.ratio.toNat s.a1.toNat) buf.length ∧
        left.length ≤ fecRedundancy s.act.ratio.toNat s.a1.toNat ∧
        t.dmem = (s.dmem.writeBytes s.a2.toNat p).writeBytes s.a3.toNat
          (diagnostics left (min left.length s.act.maxWarn.toNat))) : StoresInside s t := by
  rcases h with ⟨h, hcp⟩ | ⟨p, left, hcp, hp, hleft, h⟩
  · exact .of_region (g := Region.mk s.a2.toNat s.a1.toNat) hr (by simp [outputRegions, hcp])
      (by show buf.length ≤ s.a1.toNat; omega) h
  · have h1 := rangeOk_inRange hr (g := Region.mk s.a2.toNat (fecPayload s.act.ratio.toNat s.a1.toNat))
      (.inr (by simp [outputRegions, hcp]))
    have h2 := rangeOk_inRange hr (g := Region.mk s.a3.toNat
      (4 * min (fecRedundancy s.act.ratio.toNat s.a1.toNat) s.act.maxWarn.toNat)) (.inr (by simp [outputRegions, hcp]))
    simp only at h1 h2
    refine ⟨[(s.a2.toNat, p), (s.a3.toNat, diagnostics left (min left.length s.act.maxWarn.toNat))], h, fun c hc => ?_⟩
    simp only [List.mem_cons, List.not_mem_nil, or_false] at hc
    rcases hc with rfl | rfl
    · simp only [← List.length_eq_zero_iff]; omega
    · simp only [← List.length_eq_zero_iff, diagnostics_length]; omega

/-- A command stores inside DMEM alone. -/
theorem exec_stores {i : Instr} {s t : State} (h : exec i s = .next t) : StoresInside s t := by
  rcases exec_next h with hf | ⟨hck, hc⟩
  · exact .of_same hf.dmem
  have hr : i ≠ .cfgCommit → rangeOk i s = true := fun hi => (hck hi).2.2.2.2
  clear hck h
  cases i <;> simp only [Completion] at hc
  case cfgCommit => obtain ⟨_, rfl⟩ := hc; exact .of_same rfl
  case bytes2bits =>
    obtain ⟨bs, d, hl, rfl⟩ := hc
    exact .of_region (bs := bytesToBits bs) (hr (by simp)) List.mem_cons_self (by simp [hl]) rfl
  case bits2bytes =>
    obtain ⟨bs, d, hl, _, rfl⟩ := hc
    exact .of_region (bs := bitsToBytes bs) (hr (by simp)) List.mem_cons_self (by simp [hl]) rfl
  case bits2syms k =>
    obtain ⟨bs, d, hl, _, rfl⟩ := hc
    exact .of_region (bs := bitsToSyms (widthOf s k) s.scheme.icount bs) (hr (by simp)) List.mem_cons_self (by simp [hl]) rfl
  case syms2bits k auto =>
    obtain ⟨bits, d, hb, rfl⟩ := hc
    obtain ⟨b, hb', -⟩ := State.flagShort_frame (((s.setDraws d).store s.a2.toNat (keptBits (expectedBits s auto) bits)).setR0
      (toReg (keptBits (expectedBits s auto) bits).length)) (expectedBits s auto) bits.length
    refine .of_region (bs := keptBits (expectedBits s auto) bits) (hr (by simp)) List.mem_cons_self ?_ (by rw [hb']; rfl)
    have h1 := collectBits_length hb
    have h2 := keptBits_length_le (expectedBits s auto) bits
    cases auto
    · simp only [expectedBits, keptBits, List.length_take, Bool.false_eq_true, if_false]; omega
    · simp only [List.length_nil] at h1; simp only [if_true]; omega
  case fecEnc =>
    obtain ⟨bs, d, hl, rfl⟩ := hc
    exact .of_region (bs := fecEncode s.act.ratio.toNat bs) (hr (by simp)) List.mem_cons_self (by simp [hl]) rfl
  case fecDec =>
    obtain ⟨buf, d, hl, hc⟩ := hc
    refine .of_fecDec hl (hr (by simp)) ?_
    split at hc
    · exact .inl ⟨by simpa using fecCopy_dmem hc, ‹_›⟩
    · have hd := fecRepair_dmem hc
      simp only [State.setDraws_dmem, State.setDraws_a2, State.setDraws_a3, State.setDraws_act, State.setDraws_params] at hd
      refine .inr ⟨_, _, eq_false_of_ne_true ‹_›, by rw [fecCorrect_length, List.length_take], ?_, hd⟩
      refine (mismatches_length_le _ _).trans ?_
      rw [List.length_drop, hl]; exact Nat.le_refl _
  case layout ch =>
    obtain ⟨bs, d, hl, _, rfl⟩ := hc
    obtain ⟨w, e, he⟩ := State.setCount_frame ((s.setDraws d).store s.a2.toNat (layoutBytes s.scheme ch.toNat (pixelCount s) bs))
      (pixelCount s * ch.toNat)
    exact .of_region (bs := layoutBytes s.scheme ch.toNat (pixelCount s) bs) (hr (by simp)) List.mem_cons_self (by simp)
      (by rw [he]; rfl)
  case extract ch =>
    obtain ⟨vs, d, hl, rfl⟩ := hc
    rw [channelOffsets_length] at hl
    exact .of_region (bs := extractCodes s.scheme vs) (hr (by simp)) List.mem_cons_self
      (by rw [extractCodes_length _ _ hl]) rfl
  all_goals (subst hc; exact .of_same (by simp))

/-- A command keeps DMEM's canonical form and its bounds. -/
theorem StoresInside.memoryInv {s t : State} (h : StoresInside s t) (hp : t.params = s.params) (hm : s.MemoryInv) :
    t.MemoryInv := by
  obtain ⟨stores, ht, hs⟩ := h
  unfold State.MemoryInv at *
  rw [ht, hp]
  clear ht
  generalize s.dmem = m at hm ⊢
  induction stores generalizing m with
  | nil => exact hm
  | cons c rest ih =>
    exact ih (fun c' hc' => hs c' (List.mem_cons_of_mem _ hc')) _
      ⟨Memory.writeBytes_wf hm.1 _ _, Memory.writeBytes_below hm.2 _ _ (hs c List.mem_cons_self)⟩

end Sys2Proof.Machine
end

