-- ==== Sys2Proof/Laws/Fec.lean ====
section
/-! SUPPORT. The geometry of an FEC buffer, the diagnostic entries one by one, a redundancy byte as an XOR, and what the
search and the correction of one index do. -/

namespace Sys2Proof.Machine

/-- The split never takes more than the buffer. -/
theorem fecPayload_le (r m : Nat) : fecPayload r m ≤ m := by
  unfold fecPayload roundRatio
  rw [← Nat.lt_succ_iff, Nat.div_lt_iff_lt_mul (by omega)]
  nlinarith

/-- The payload and the diagnostic entries of the correcting path lie apart (43_fec R145, 20_memory R57 (c)). -/
theorem fecDec_outputs_apart {s : State} (hr : rangeOk .fecDec s = true)
    (hcp : fecCopies s.act.ratio.toNat s.a1.toNat = false) :
    ¬ ∃ a, Region.has ⟨s.a2.toNat, fecPayload s.act.ratio.toNat s.a1.toNat⟩ a = true ∧
      Region.has ⟨s.a3.toNat, 4 * min (fecRedundancy s.act.ratio.toNat s.a1.toNat) s.act.maxWarn.toNat⟩ a = true := by
  rw [← Region.overlaps_iff]
  simp only [rangeOk, regionsLegal, outputRegions, hcp, Bool.and_eq_true, Bool.false_eq_true, if_false] at hr
  have h := hr.2
  unfold apart at h
  simp only [List.all_cons, List.all_nil, Bool.and_true, Bool.and_eq_true, Bool.not_eq_true'] at h
  rw [h.1]; exact Bool.false_ne_true

/-- The entries one after the other, four bytes each (43_fec R150). -/
theorem flatMap_bigEndian_getElem (ws : List Word) {j i : Nat} (hj : j < ws.length) (hi : i < 4) :
    (ws.flatMap bigEndian)[4 * j + i]? = (bigEndian ws[j])[i]? := by
  induction ws generalizing j with
  | nil => simp at hj
  | cons w ws ih =>
    rw [List.flatMap_cons]
    cases j with
    | zero => rw [List.getElem?_append_left (by simpa using hi)]; simp
    | succ j =>
      rw [List.getElem?_append_right (by simp; omega)]
      have : 4 * (j + 1) + i - (bigEndian w).length = 4 * j + i := by simp; omega
      rw [this, ih (by simpa using hj)]
      simp

/-- Stored diagnostics hold each listed index at its own word. -/
theorem holds_diagnostics (m : Memory) (a : Nat) (is : List Nat) (d : Nat) {j : Nat} (hj : j < min d is.length) :
    (m.writeBytes a (diagnostics is d)).Holds (a + 4 * j) (bigEndian (toReg (is[j]'(by omega)))) := by
  intro i hi
  have hi4 : i < 4 := by simpa using hi
  have hlen : 4 * j + i < (diagnostics is d).length := by simp; omega
  rw [Nat.add_assoc, Memory.read_writeBytes_inside _ _ _ hlen, ← List.getElem?_eq_getElem hlen, ← List.getElem?_eq_getElem hi]
  have e : diagnostics is d = ((is.take d).map toReg).flatMap bigEndian := by
    rw [diagnostics, List.flatMap_map]
  rw [e, flatMap_bigEndian_getElem _ (by simp; omega) hi4]
  simp

/-- An XOR over a list of positions, started anywhere. -/
theorem foldl_xor_init (js : List Nat) (v : Nat → Byte) (x : Byte) :
    js.foldl (fun x j => x ^^^ v j) x = x ^^^ js.foldl (fun x j => x ^^^ v j) 0 := by
  induction js generalizing x with
  | nil => simp
  | cons j js ih => rw [List.foldl_cons, List.foldl_cons, ih, ih (0 ^^^ v j)]; simp [BitVec.xor_assoc]

/-- The flips tried for a block, numbered in their order. -/
theorem candidates_eq (n f i : Nat) :
    candidates n f i = (List.range 64).map fun t => (contributor n f i (t / 8), t % 8) := rfl

/-- Everything the search for one index can do (43_fec R148 (b), (d)): the first flip that fits, or nothing. -/
theorem searchFlip_cases (p q : List Byte) (i : Nat) :
    (∃ j b, j < 8 ∧ b < 8 ∧ verifies (flipBit p (contributor p.length q.length i j) b) q i = true ∧
      (∀ j' b', j' < 8 → b' < 8 → j' < j ∨ (j' = j ∧ b' < b) →
        verifies (flipBit p (contributor p.length q.length i j') b') q i = false) ∧
      searchFlip p q i = flipBit p (contributor p.length q.length i j) b) ∨
    ((∀ j b, j < 8 → b < 8 → verifies (flipBit p (contributor p.length q.length i j) b) q i = false) ∧
      searchFlip p q i = p) := by
  unfold searchFlip
  rw [candidates_eq, List.find?_map]
  cases h : (List.range 64).find? _ with
  | none =>
    refine .inr ⟨fun j b hj hb => ?_, rfl⟩
    have := List.find?_range_eq_none.1 h (8 * j + b) (by omega)
    simpa [show (8 * j + b) / 8 = j by omega, show (8 * j + b) % 8 = b by omega] using this
  | some t =>
    obtain ⟨ht, hr, hmin⟩ := List.find?_range_eq_some.1 h
    have h64 : t < 64 := List.mem_range.1 hr
    refine .inl ⟨t / 8, t % 8, by omega, by omega, ht, fun j b hj hb hlt => ?_, rfl⟩
    have := hmin (8 * j + b) (by omega)
    simpa [show (8 * j + b) / 8 = j by omega, show (8 * j + b) % 8 = b by omega] using this

/-- One index of the correction pass does what 43_fec R148 says. -/
theorem correctIndex_step (recheck : Bool) (q p : List Byte) (i : Nat) :
    CorrectionStep recheck q i p (correctIndex recheck q p i) := by
  have hv : ∀ p', verifies p' q i = true ↔ red p' q.length i = q.getD i 0 := fun p' => beq_iff_eq
  have hn : ∀ p', verifies p' q i = false ↔ red p' q.length i ≠ q.getD i 0 := fun p' => by
    rw [← Bool.not_eq_true, hv]
  unfold CorrectionStep correctIndex
  simp only [Bool.and_eq_true, hv]
  split
  · rfl
  · simpa only [hv, hn, contributor] using searchFlip_cases p q i

end Sys2Proof.Machine
end

