-- ==== Sys2Proof/Laws/Quantization.lean ====
section
/-! SUPPORT. Arithmetic of the scheme: the ceiling division, the logarithm, and what a committed configuration bounds. -/

namespace Sys2Proof.Machine

/-- A ceiling division is the least count of parts that cover. -/
theorem cdiv_le_iff {a b n : Nat} (hb : 0 < b) : cdiv a b ≤ n ↔ a ≤ n * b := by
  unfold cdiv
  rw [← Nat.lt_succ_iff, Nat.div_lt_iff_lt_mul hb, Nat.succ_mul]; omega

theorem le_floorLog2_iff {n e : Nat} (h : 1 ≤ n) : e ≤ floorLog2 n ↔ 2 ^ e ≤ n := by
  unfold floorLog2; rw [Nat.le_log2 (by omega)]

theorem intervalCount_le {l f : Nat} (hl : 1 ≤ l) : intervalCount l f ≤ 255 := by
  unfold intervalCount; rw [cdiv_le_iff hl]; nlinarith [Nat.sub_le 255 f]

/-- The conditions of 41_quantization R100, written out. -/
theorem stagedLegal_iff (c : Staged) : stagedLegal c = true ↔
    c.l ≠ 0 ∧ c.filler ≠ 255 ∧ c.minDim ≠ 0 ∧ 2 ≤ intervalCount c.l.toNat c.filler.toNat := by
  simp only [stagedLegal, Bool.and_eq_true, bne_iff_ne, decide_eq_true_eq, and_assoc]

theorem toNat_pos_of_ne {w : Nat} {x : BitVec w} (h : x ≠ 0#w) : 1 ≤ x.toNat := by
  have : x.toNat ≠ 0 := fun h' => h (BitVec.eq_of_toNat_eq (by simpa using h'))
  omega

/-- What a committed configuration bounds (10_state R28, 41_quantization R101, R102). -/
theorem Active.Committed.bounds {a : Active} (h : a.Committed) :
    1 ≤ a.l.toNat ∧ a.filler.toNat ≤ 254 ∧ 2 ≤ a.icount.toNat ∧ 1 ≤ a.minDim.toNat ∧
    a.icount.toNat = intervalCount a.l.toNat a.filler.toNat ∧ a.bps.toNat = floorLog2 a.icount.toNat := by
  obtain ⟨c, hc, rfl⟩ := h
  obtain ⟨h1, h2, h3, h4⟩ := (stagedLegal_iff c).1 hc
  have h1 := toNat_pos_of_ne h1
  have h2 : c.filler.toNat ≤ 254 := by
    have : c.filler.toNat ≠ 255 := fun h' => h2 (BitVec.eq_of_toNat_eq h')
    have := c.filler.isLt
    omega
  have h5 := intervalCount_le (f := c.filler.toNat) h1
  have hb : bitsPerSymbol (intervalCount c.l.toNat c.filler.toNat) < 8 := by
    by_contra h
    have := (le_floorLog2_iff (e := 8) (by omega)).1 (show 8 ≤ floorLog2 (intervalCount c.l.toNat c.filler.toNat) from
      Nat.le_of_not_lt h)
    omega
  have e1 : (BitVec.ofNat 8 (intervalCount c.l.toNat c.filler.toNat)).toNat = intervalCount c.l.toNat c.filler.toNat := by
    rw [BitVec.toNat_ofNat, Nat.mod_eq_of_lt (by omega)]
  have e2 : (BitVec.ofNat 3 (bitsPerSymbol (intervalCount c.l.toNat c.filler.toNat))).toNat =
      bitsPerSymbol (intervalCount c.l.toNat c.filler.toNat) := by
    rw [BitVec.toNat_ofNat, Nat.mod_eq_of_lt (by omega)]
  refine ⟨h1, h2, ?_, toNat_pos_of_ne h3, e1, ?_⟩
  · show 2 ≤ (BitVec.ofNat 8 _).toNat
    rw [e1]; exact h4
  · show (BitVec.ofNat 3 _).toNat = floorLog2 (BitVec.ofNat 8 _).toNat
    rw [e1, e2]; rfl

end Sys2Proof.Machine
end

