-- ==== Sys2Proof/Laws/Grid.lean ====
section
/-! SUPPORT. The digit-by-digit square root, and the places of a grid's bytes. -/

namespace Sys2Proof.Machine

/-- The digits give the floor of the root. -/
theorem floorSqrt_spec {d p : Nat} (h : p < 4 ^ d) :
    floorSqrt d p * floorSqrt d p ≤ p ∧ p < (floorSqrt d p + 1) * (floorSqrt d p + 1) := by
  induction d generalizing p with
  | zero => simp at h; subst h; simp [floorSqrt]
  | succ d ih =>
    obtain ⟨h1, h2⟩ := ih (p := p / 4) (by rw [Nat.pow_succ] at h; omega)
    simp only [floorSqrt, sqrtDigit]
    generalize floorSqrt d (p / 4) = r at *
    generalize hq : p / 4 = q at *
    have e : p = 4 * q + p % 4 := by omega
    generalize p % 4 = m at e
    split
    · exact ⟨by assumption, by nlinarith [show m < 4 by omega]⟩
    · exact ⟨by nlinarith, by nlinarith⟩

/-- A number has half as many base-4 digits as binary ones. -/
theorem lt_four_pow_digits (p : Nat) : p < 4 ^ (p.log2 / 2 + 1) := by
  have h : 4 ^ (p.log2 / 2 + 1) = 2 ^ (2 * (p.log2 / 2 + 1)) := by rw [show (4 : Nat) = 2 ^ 2 from rfl, ← Nat.pow_mul]
  rw [h]
  exact lt_of_lt_of_le Nat.lt_log2_self (Nat.pow_le_pow_right (by omega) (by omega))

/-- Channel c of pixel x is a byte of the grid. -/
theorem inGrid {x c n ch : Nat} (hx : x < n) (hc : c < ch) : x * ch + c < n * ch := by nlinarith

theorem div_mod_channel {x c ch : Nat} (hc : c < ch) : (x * ch + c) / ch = x ∧ (x * ch + c) % ch = c := by
  rw [Nat.mul_comm]
  exact ⟨by rw [Nat.mul_add_div (by omega), Nat.div_eq_of_lt hc]; omega, by rw [Nat.mul_add_mod, Nat.mod_eq_of_lt hc]⟩

theorem layoutBytes_getElem (q : Scheme) {ch n : Nat} (syms : List Byte) {x c : Nat} (hx : x < n) (hc : c < ch) :
    (layoutBytes q ch n syms)[x * ch + c]'(by simpa using inGrid hx hc) = channelByte q syms x c := by
  obtain ⟨h1, h2⟩ := div_mod_channel (x := x) hc
  simp only [layoutBytes, List.getElem_map, List.getElem_range, h1, h2]

theorem channelOffsets_getElem {ch n x c : Nat} (hx : x < n) (hc : c < 3) :
    (channelOffsets ch n)[3 * x + c]'(by simp; omega) = x * ch + c := by
  induction n with
  | zero => omega
  | succ n ih =>
    have e : channelOffsets ch (n + 1) = channelOffsets ch n ++ [n * ch, n * ch + 1, n * ch + 2] := by
      simp [channelOffsets, List.range_succ]
    simp only [e]
    rcases Nat.lt_or_ge x n with h | h
    · rw [List.getElem_append_left (by simp; omega), ih h]
    · have : x = n := by omega
      subst this
      rw [List.getElem_append_right (by simp)]
      have : 3 * x + c - (channelOffsets ch x).length = c := by simp
      simp only [this]
      interval_cases c <;> rfl

end Sys2Proof.Machine
end

