-- ==== Sys2Proof/Laws/Packing.lean ====
section
/-! SUPPORT. The cells of a byte, of a window and of an expansion, one by one. -/

namespace Sys2Proof.Machine

/-- Every cell of a stream is 0 or 1 exactly when none is bad (20_memory R56). -/
theorem any_badCell_eq_false {bits : List Byte} : bits.any badCell = false ↔ ∀ c ∈ bits, c = 0 ∨ c = 1 := by
  have cell : ∀ c : Byte, badCell c = false ↔ c = 0 ∨ c = 1 := by decide +revert
  rw [List.any_eq_false]
  constructor
  · intro h c hc; exact (cell c).1 (eq_false_of_ne_true (h c hc))
  · intro h c hc; rw [(cell c).2 (h c hc)]; exact Bool.false_ne_true

theorem byteBits_getElem (b : Byte) {j : Nat} (h : j < 8) :
    (byteBits b)[j]'(by simpa using h) = if b.getLsbD (7 - j) then 1 else 0 := by simp [byteBits, bitCell]

theorem bytesToBits_cons (b : Byte) (bs : List Byte) : bytesToBits (b :: bs) = byteBits b ++ bytesToBits bs := by
  simp [bytesToBits]

theorem bytesToBits_getElem {bs : List Byte} {i j : Nat} (hi : i < bs.length) (hj : j < 8) :
    (bytesToBits bs)[8 * i + j]'(by simp; omega) = if bs[i].getLsbD (7 - j) then 1 else 0 := by
  induction bs generalizing i with
  | nil => simp at hi
  | cons b bs ih =>
    simp only [bytesToBits_cons]
    cases i with
    | zero => rw [List.getElem_append_left (by simp; omega)]; simpa using byteBits_getElem b hj
    | succ i =>
      rw [List.getElem_append_right (by simp; omega)]
      have : 8 * (i + 1) + j - (byteBits b).length = 8 * i + j := by simp; omega
      simp only [this]
      simpa using ih (by simpa using hi)

theorem getD_cell {bits : List Byte} (h : ∀ c ∈ bits, c = 0 ∨ c = 1) (i : Nat) :
    bits.getD i 0 = 0 ∨ bits.getD i 0 = 1 := by
  rw [List.getD_eq_getElem?_getD]
  cases hi : bits[i]? with
  | none => exact .inl rfl
  | some c => exact h c (List.mem_of_getElem? hi)

/-- A window's value: below 2^k, its bits the cells in order, the first on top. -/
theorem window_bits {bits : List Byte} (hb : ∀ c ∈ bits, c = 0 ∨ c = 1) (k g : Nat) : window k bits g < 2 ^ k ∧
    ∀ j, j < k → (window k bits g).testBit (k - 1 - j) = decide (bits.getD (k * g + j) 0 = 1) := by
  unfold window
  generalize k * g = o
  induction k with
  | zero => simp
  | succ k ih =>
    rw [List.range_succ, List.foldl_append]
    simp only [List.foldl_cons, List.foldl_nil]
    generalize (List.range k).foldl (fun v t => 2 * v + (bits.getD (o + t) 0).toNat) 0 = v at ih
    obtain ⟨x, hx, hx'⟩ : ∃ x, (bits.getD (o + k) 0).toNat = x ∧ (x = 0 ∧ bits.getD (o + k) 0 ≠ 1 ∨
        x = 1 ∧ bits.getD (o + k) 0 = 1) := by
      rcases getD_cell hb (o + k) with h | h <;> rw [h]
      · exact ⟨0, rfl, .inl ⟨rfl, by decide⟩⟩
      · exact ⟨1, rfl, .inr ⟨rfl, rfl⟩⟩
    rw [hx]
    refine ⟨by rw [Nat.pow_succ]; omega, fun j hj => ?_⟩
    rcases Nat.lt_or_ge j k with h | h
    · rw [← ih.2 j h, show k + 1 - 1 - j = (k - 1 - j) + 1 by omega, Nat.testBit_succ]
      congr 1; omega
    · have : j = k := by omega
      subst this
      rw [show j + 1 - 1 - j = 0 by omega, Nat.testBit_zero]
      rcases hx' with ⟨rfl, h'⟩ | ⟨rfl, h'⟩ <;> simp only [h', decide_false, decide_true] <;> simp

theorem expand_cells (ic k : Nat) (c : Byte) : ∀ x ∈ expand ic k c, x = 0 ∨ x = 1 := by
  intro x hx
  simp only [expand, List.mem_map, bitCell] at hx
  obtain ⟨a, _, rfl⟩ := hx
  split <;> simp

theorem symbolBits_eq (ic k : Nat) (c : Byte) : symbolBits ic k c = if c = 0xFF then [] else expand ic k c := by
  unfold symbolBits Symbol.ofCode
  by_cases h : c = 0xFF
  · rw [if_pos h, if_pos h]
  · rw [if_neg h, if_neg h]

/-- Where DMEM holds the symbols up to the last or to one at which collection is over, the reading loop collects the bits of
the first of them and reads no other. -/
theorem collectBits_holds {p : Params} {m : Memory} {ic k : Nat} {e : Option Nat} {codes : List Byte} {a d len : Nat}
    (h : m.Holds a codes) (hlen : codes.length ≤ len) (acc : List Byte)
    (hend : codes.length = len ∨ collected e (acc ++ codes.flatMap (symbolBits ic k)).length = true) :
    ∃ n, n ≤ codes.length ∧
      collectBits p m ic k e len a d acc = .ok (acc ++ (codes.take n).flatMap (symbolBits ic k), d) ∧
      (n = len ∨ collected e (acc ++ (codes.take n).flatMap (symbolBits ic k)).length = true) := by
  induction codes generalizing a acc len with
  | nil =>
    refine ⟨0, Nat.le_refl _, ?_, ?_⟩
    · cases len with
      | zero => simp [collectBits]
      | succ len =>
        have hc : collected e acc.length = true := by simpa using hend
        simp [collectBits, hc]
    · simpa using hend
  | cons c codes ih =>
    obtain ⟨len, rfl⟩ : ∃ l, len = l + 1 := ⟨len - 1, by simp at hlen; omega⟩
    simp only [collectBits]
    by_cases hc : collected e acc.length = true
    · exact ⟨0, by simp, by simp [hc], .inr (by simpa using hc)⟩
    · have h₀ : m.read a = some c := h 0 (by simp)
      have h₁ : m.Holds (a + 1) codes := fun i hi => by
        have := h (i + 1) (by simpa using hi)
        rw [Nat.add_assoc, Nat.add_comm 1 i]; simpa using this
      obtain ⟨n, hn, he, hend⟩ := ih h₁ (by simpa using hlen) (acc ++ symbolBits ic k c) (by simpa using hend)
      refine ⟨n + 1, by simpa using hn, ?_, ?_⟩
      · rw [if_neg hc, readByte_written h₀]
        simp only [he, List.take_succ_cons, List.flatMap_cons, List.append_assoc]
      · simpa using hend

theorem expand_getElem (ic k : Nat) (c : Byte) {j : Nat} (h : j < k) :
    (expand ic k c)[j]'(by simpa using h) = bitCell ((c.toNat % ic).testBit (k - 1 - j)) := by simp [expand]

/-- The expansion of a window's code, for a width whose windows all lie below IC, is the window's cells, zeros past the end. -/
theorem symbolBits_window {bits : List Byte} (hb : ∀ c ∈ bits, c = 0 ∨ c = 1) {k ic : Nat} (hk : 2 ^ k ≤ ic) (hic : ic ≤ 255)
    (g : Nat) : symbolBits ic k (BitVec.ofNat 8 (window k bits g % ic)) = (List.range k).map fun j => bits.getD (k * g + j) 0 := by
  obtain ⟨hw, hbit⟩ := window_bits hb k g
  have hm : window k bits g % ic = window k bits g := Nat.mod_eq_of_lt (by omega)
  have hn : (BitVec.ofNat 8 (window k bits g)).toNat = window k bits g := by
    rw [BitVec.toNat_ofNat, Nat.mod_eq_of_lt (by omega)]
  have hne : BitVec.ofNat 8 (window k bits g) ≠ 0xFF := fun h => by
    have := congrArg BitVec.toNat h
    rw [hn] at this
    have : window k bits g = 255 := this
    omega
  rw [hm, symbolBits_eq, if_neg hne]
  refine List.ext_getElem (by simp) fun j h₁ h₂ => ?_
  rw [expand_getElem _ _ _ (by simpa using h₁), hn, hm, hbit j (by simpa using h₁)]
  simp only [List.getElem_map, List.getElem_range]
  rcases getD_cell hb (k * g + j) with h | h <;> rw [h] <;> rfl

/-- The bits that come back from a stream's symbols: the stream, and the zeros that filled its last symbol. -/
theorem flatMap_bitsToSyms {bits : List Byte} (hb : ∀ c ∈ bits, c = 0 ∨ c = 1) {k ic : Nat} (hpos : 1 ≤ k) (hk : 2 ^ k ≤ ic)
    (hic : ic ≤ 255) : (bitsToSyms k ic bits).flatMap (symbolBits ic k) =
      bits ++ List.replicate (k * cdiv bits.length k - bits.length) 0 := by
  have hcov : bits.length ≤ k * cdiv bits.length k := by
    rw [Nat.mul_comm]; exact (cdiv_le_iff hpos).1 (Nat.le_refl _)
  have windows : ∀ n, ((List.range n).map fun g => BitVec.ofNat 8 (window k bits g % ic)).flatMap (symbolBits ic k) =
      (List.range (k * n)).map fun t => bits.getD t 0 := by
    intro n
    induction n with
    | zero => rfl
    | succ n ih =>
      rw [List.range_succ, List.map_append, List.flatMap_append, ih, Nat.mul_succ, List.range_add, List.map_append]
      simp only [List.map_cons, List.map_nil, List.flatMap_cons, List.flatMap_nil, List.append_nil, List.map_map]
      rw [symbolBits_window hb hk hic]; rfl
  rw [bitsToSyms, windows]
  refine List.ext_getElem (by simp; omega) fun j h₁ h₂ => ?_
  simp only [List.getElem_map, List.getElem_range]
  rcases Nat.lt_or_ge j bits.length with h | h
  · rw [List.getElem_append_left h, List.getD_eq_getElem _ _ h]
  · rw [List.getElem_append_right h, List.getElem_replicate, List.getD_eq_default _ _ h]

end Sys2Proof.Machine
end

