-- ==== Sys2Proof/Laws/Steps.lean ====
section
/-! SUPPORT. Everything a step can be: whose turn it is, what a host interaction changes, what the engine does. -/

namespace Sys2Proof.Machine

/-- Everything a register access can name. -/
theorem accessedReg_ok {width offset : Nat} {r : Reg} :
    accessedReg width offset = .ok r ↔ width = 32 ∧ offset % 4 = 0 ∧ Reg.ofOffset offset = some r := by
  unfold accessedReg
  split
  · simp_all
  · split
    · simp_all
    · split <;> simp_all

/-- Everything a host interaction that is no fault changes. -/
theorem hostAct_next {op : HostOp} {s t : State} (h : hostAct op s = .next t) :
    (∃ vs d, t = { s with replies := vs, draws := d }) ∨
    (∃ r v, s.status.busy = false ∧ t = writeReg s r v) ∨
    (∃ a b, s.status.busy = false ∧ a < s.params.dmemSize ∧ t = s.setDmem (s.dmem.write a b)) ∨
    (∃ ops vs, op = .wait ∧ t = { s with hostOps := ops, replies := vs }) ∨
    (op = .reset ∧ t = s.resetSignal) := by
  cases op with
  | regRead w o =>
    simp only [hostAct, hostRegRead] at h
    split at h
    · cases h
    · cases h; exact .inl ⟨_, s.draws, rfl⟩
  | regWrite w o v =>
    simp only [hostAct, hostRegWrite] at h
    split at h
    · cases h
    · split at h
      · cases h
      · cases h; exact .inr (.inl ⟨_, v, eq_false_of_ne_true ‹¬ _ = true›, rfl⟩)
  | memRead a =>
    simp only [hostAct, hostMemRead] at h
    split at h
    · cases h
    · split at h
      · cases h
      · split at h
        · cases h
        · cases h; exact .inl ⟨_, _, rfl⟩
  | memWrite a b =>
    simp only [hostAct, hostMemWrite] at h
    split at h
    · cases h
    · split at h
      · cases h
      · cases h
        exact .inr (.inr (.inl ⟨a, b, eq_false_of_ne_true ‹¬ s.status.busy = true›, by omega, rfl⟩))
  | wait =>
    simp only [hostAct, hostWait] at h
    cases h
    refine .inr (.inr (.inr (.inl ?_)))
    split
    · exact ⟨.wait :: s.hostOps, _, rfl, rfl⟩
    · exact ⟨s.hostOps, s.replies ++ [.reg s.status.toWord], rfl, rfl⟩
  | reset => cases h; exact .inr (.inr (.inr (.inr ⟨rfl, rfl⟩)))

/-- A step is a stutter of an idle block, the host's first interaction, or the engine's step; a turn may be used up. -/
theorem step_cases (s : State) :
    (s.hostOps = [] ∧ s.status.busy = false ∧ step s = .next s) ∨
    (∃ op rest ts, s.hostOps = op :: rest ∧ (nextTurn s).1 = some .host ∧
      step s = hostAct op { s with hostOps := rest, turns := ts }) ∨
    (∃ ts, s.status.busy = true ∧ (nextTurn s).1 = some .engine ∧ step s = engineStep { s with turns := ts }) := by
  cases hb : s.status.busy with
  | false =>
    cases ho : s.hostOps with
    | nil => exact .inl ⟨rfl, rfl, by simp [step, nextTurn, hb, ho]⟩
    | cons op rest =>
      exact .inr (.inl ⟨op, rest, s.turns, rfl, by simp [nextTurn, hb, ho], by simp [step, nextTurn, hb, ho, hostStep]⟩)
  | true =>
    cases ho : s.hostOps with
    | nil =>
      refine .inr (.inr ⟨s.turns, rfl, by simp [nextTurn, hb, ho], ?_⟩)
      simp only [step, nextTurn, hb, ho]; rw [← ho]
    | cons op rest =>
      cases ht : s.turns with
      | nil =>
        refine .inr (.inr ⟨s.turns, rfl, by simp [nextTurn, hb, ho, ht], ?_⟩)
        simp only [step, nextTurn, hb, ho, ht]; rw [← ho, ← ht]
      | cons x ts =>
        cases x with
        | host =>
          exact .inr (.inl ⟨op, rest, ts, rfl, by simp [nextTurn, hb, ho, ht],
            by simp [step, nextTurn, hb, ho, ht, hostStep]⟩)
        | engine =>
          exact .inr (.inr ⟨ts, rfl, by simp [nextTurn, hb, ho, ht], by simp [step, nextTurn, hb, ho, ht]⟩)

/-- The engine's step is ERR_ILLEGAL for an illegal word and the command's execution for any other. -/
theorem engineStep_cases (s : State) :
    (∃ r, decode s.cmd = .error r ∧ engineStep s = .next (s.finish .illegal)) ∨
    (∃ i, decode s.cmd = .ok i ∧ engineStep s = exec i s) := by
  cases h : decode s.cmd with
  | error r => exact .inl ⟨r, rfl, by simp [engineStep, h]⟩
  | ok i => exact .inr ⟨i, rfl, by simp [engineStep, h]⟩

/-- One more step of a run. -/
theorem run_succ {k : Nat} {s t : State} (h : step s = .next t) :
    Host.Core.run Sys2Proof.core (k + 1) s = Host.Core.run Sys2Proof.core k t := by
  have unrolled : ∀ (M : Host.Core) (a b : M.State), M.step a = .next b → M.run (k + 1) a = M.run k b := by
    intro M a b hab
    rw [Host.Core.run, hab]
  exact unrolled Sys2Proof.core s t h

end Sys2Proof.Machine
end

