-- ==== Sys2Proof/Tests/Slice0.lean ====
section
/-! SUPPORT. Tests: expected values are those of spec/95_test_vectors.md (the vector's id stands with each test) or words
written out from 30_encoding R70 and R71. The second half shows, for every obligation with hypotheses, a state that meets
them. -/

namespace Sys2Proof.Machine

/-! ## Small states -/

/-- A block after `CONFIGURE L, F, R, W, M`, with bytes at address 0 and the operand registers given. -/
def configured (c : Staged) (bytes : List Byte) (a0 a1 a2 a3 a4 : Word) : State :=
  { State.reset with
    cfg := c
    act := activeOf c
    status := { State.reset.status with cfgValid := true }
    dmem := Memory.writeBytes [] 0 bytes
    a0 := a0
    a1 := a1
    a2 := a2
    a3 := a3
    a4 := a4 }

/-- The staged values of setup S0. -/
def stagedS0 : Staged := { l := 5, filler := 10, ratio := 0, maxWarn := 4, minDim := 1 }

/-- S0 with another ratio. -/
def stagedRatio (r : Word) : Staged := { l := 5, filler := 10, ratio := r, maxWarn := 4, minDim := 1 }

/-- Setup S0. -/
def atS0 (bytes : List Byte) (a0 a1 a2 a3 a4 : Word) : State := configured stagedS0 bytes a0 a1 a2 a3 a4

/-- STATUS, R0, R1 and the bytes from an address up, after one step. -/
def shown (o : Result) (a n : Nat) : Option (Word × Word × Word × List (Option Byte)) :=
  match o with
  | .next t => some (t.status.toWord, t.r0, t.r1, (List.range n).map fun i => t.dmem.read (a + i))
  | .fault _ => none
  | .refused _ => none

/-- The engine's one step on the word of a command. -/
def ran (i : Instr) (s : State) (a n : Nat) : Option (Word × Word × Word × List (Option Byte)) :=
  shown (step (s.startCommand (encode i))) a n

/-! ## WellFormed: one ill-formed term for each check -/

theorem test_wellFormed_bits2syms : (Instr.bits2syms 9).wellFormed = false ∧ (Instr.bits2syms 8).wellFormed = true := by decide
theorem test_wellFormed_syms2bits : (Instr.syms2bits 15 true).wellFormed = false ∧ (Instr.syms2bits 0 true).wellFormed = true := by decide
theorem test_wellFormed_layout : (Instr.layout 0).wellFormed = false ∧ (Instr.layout 5).wellFormed = false ∧
    (Instr.layout 3).wellFormed = true := by decide
theorem test_wellFormed_extract : (Instr.extract 2).wellFormed = false ∧ (Instr.extract 4).wellFormed = true := by decide

/-! ## Decoding: words written from 30_encoding R70 and R71, every constructor -/

theorem test_decode_cfgCommit : decode 0x00000001 = .ok .cfgCommit := by decide
theorem test_decode_qIcount : decode 0x00000010 = .ok .qIcount := by decide
theorem test_decode_qBps : decode 0x00000011 = .ok .qBps := by decide
theorem test_decode_qAnchor : decode 0x00000012 = .ok .qAnchor := by decide
theorem test_decode_qIsfiller : decode 0x00000013 = .ok .qIsfiller := by decide
theorem test_decode_qTosymbol : decode 0x00000014 = .ok .qTosymbol := by decide
theorem test_decode_bytes2bits : decode 0x00000020 = .ok .bytes2bits := by decide
theorem test_decode_bits2bytes : decode 0x00000021 = .ok .bits2bytes := by decide
/-- V-ENC-05, V-ENC-13. -/
theorem test_decode_bits2syms : decode 0x00000522 = .ok (.bits2syms 5) ∧ decode 0x00000F22 = .ok (.bits2syms 15) := by decide
/-- V-ENC-02, V-PACK-19. -/
theorem test_decode_syms2bits : decode 0x00010023 = .ok (.syms2bits 0 true) ∧ decode 0x00010323 = .ok (.syms2bits 3 true) ∧
    decode 0x00000923 = .ok (.syms2bits 9 false) := by decide
theorem test_decode_fecEnc : decode 0x00000030 = .ok .fecEnc := by decide
theorem test_decode_fecDec : decode 0x00000031 = .ok .fecDec := by decide
/-- V-ENC-03, V-ENC-15. -/
theorem test_decode_layout : decode 0x00003040 = .ok (.layout 3) ∧ decode 0x00000040 = .ok (.layout 0) := by decide
/-- V-ENC-04, V-ENC-17. -/
theorem test_decode_extract : decode 0x00004041 = .ok (.extract 4) ∧ decode 0x00005041 = .ok (.extract 5) := by decide
theorem test_decode_plan : decode 0x00000050 = .ok .plan := by decide
/-- V-ENC-06 to V-ENC-12, V-ENC-18, V-ENC-19. -/
theorem test_decode_illegal : decode 0x00000000 = .error .unassignedOp ∧ decode 0x00020020 = .error .reservedBits ∧
    decode 0x80000010 = .error .reservedBits ∧ decode 0x00000130 = .error .strayK ∧ decode 0x00003050 = .error .strayCh ∧
    decode 0x00010022 = .error .strayAuto ∧ decode 0x00011023 = .error .strayCh ∧ decode 0x00000110 = .error .strayK ∧
    decode 0x00000002 = .error .unassignedOp := by decide
theorem test_decodeTableWord : decodeTableWord 32 0x00000323 = some (.syms2bits 3 false) ∧ decodeTableWord 32 2 = none := by
  decide

/-! ## Commands: one step each -/

/-- V-QNT-01. -/
theorem test_cfgCommit : (match step ((atS0 [] 0 0 0 0 0).startCommand 0x00000001) with
    | .next t => (t.status.toWord, t.act.icount, t.act.bps) | .fault _ => (0, 0, 0) | .refused _ => (0, 0, 0)) =
    (0x002, 49, 5) := by decide
/-- V-ERR-05, the first row; V-ERR-06 on what stays active. -/
theorem test_cfgCommit_invalid : (match step (({ atS0 [] 0 0 0 0 0 with
      cfg := { l := 255, filler := 0, ratio := 0, maxWarn := 4, minDim := 1 } }).startCommand 0x00000001) with
    | .next t => (t.status.toWord, t.act.l, t.act.icount) | .fault _ => (0, 0, 0) | .refused _ => (0, 0, 0)) =
    (0x200, 5, 49) := by decide
/-- V-SRC-01 step 1. -/
theorem test_qIcount : ran .qIcount (atS0 [] 0 0 0 0 0) 0 0 = some (0x002, 49, 0, []) := by decide
/-- V-ERR-02. -/
theorem test_qIcount_unconfigured : ran .qIcount State.reset 0 0 = some (0x200, 0, 0, []) := by decide
/-- V-SRC-01 step 2. -/
theorem test_qBps : ran .qBps (atS0 [] 0 0 0 0 0) 0 0 = some (0x002, 5, 0, []) := by decide
/-- V-QNT-02. -/
theorem test_qAnchor : ran .qAnchor (atS0 [] 48 0 0 0 0) 0 0 = some (0x002, 253, 0, []) := by decide
/-- V-QNT-03. -/
theorem test_qAnchor_last : ran .qAnchor (atS0 [] 49 0 0 0 0) 0 0 = some (0x302, 0, 0, []) := by decide
/-- V-QNT-05. -/
theorem test_qIsfiller : ran .qIsfiller (atS0 [] 10 0 0 0 0) 0 0 = some (0x002, 1, 0, []) ∧
    ran .qIsfiller (atS0 [] 11 0 0 0 0) 0 0 = some (0x002, 0, 0, []) := ⟨by decide, by decide⟩
/-- V-QNT-06. -/
theorem test_qIsfiller_wide : ran .qIsfiller (atS0 [] 256 0 0 0 0) 0 0 = some (0x302, 0, 0, []) := by decide
/-- V-QNT-04. -/
theorem test_qTosymbol : ran .qTosymbol (atS0 [] 93 0 0 0 0) 0 0 = some (0x002, 16, 0, []) ∧
    ran .qTosymbol (atS0 [] 10 0 0 0 0) 0 0 = some (0x002, 0xFF, 0, []) := ⟨by decide, by decide⟩
/-- V-PACK-01. -/
theorem test_bytes2bits : ran .bytes2bits (atS0 [0xA5] 0 1 0x100 0 0) 0x100 8 =
    some (0x002, 8, 0, [some 1, some 0, some 1, some 0, some 0, some 1, some 0, some 1]) := by decide
/-- V-ERR-10. -/
theorem test_bytes2bits_overlap : ran .bytes2bits (atS0 [1, 2] 0 2 1 0 0) 1 2 = some (0x402, 0, 0, [some 2, none]) := by decide
/-- V-PACK-03. -/
theorem test_bits2bytes : ran .bits2bytes (atS0 [1, 1, 1, 1, 1, 1, 1, 1, 1] 0 9 0x100 0 0) 0x100 2 =
    some (0x002, 2, 0, [some 0xFF, some 0x80]) := by decide
/-- V-PACK-04, V-ERR-16. -/
theorem test_bits2bytes_format : ran .bits2bytes (atS0 [1, 0, 2] 0 3 0x100 0 0) 0x100 1 = some (0x502, 0, 0, [none]) := by
  decide
/-- V-PACK-12. -/
theorem test_bits2syms : ran (.bits2syms 3) (configured { l := 50, filler := 4, ratio := 0, maxWarn := 4, minDim := 1 }
    [1, 1, 1, 1, 0, 1] 0 6 0x100 0 0) 0x100 2 = some (0x002, 2, 0, [some 1, some 5]) := by decide
/-- V-PACK-08. -/
theorem test_bits2syms_width : ran (.bits2syms 9) (atS0 [1] 0 1 0x100 0 0) 0 0 = some (0x302, 0, 0, []) := by decide
/-- V-PACK-14. -/
theorem test_syms2bits : ran (.syms2bits 0 false) (atS0 [0x09, 0xFF, 0x01] 0 3 0x100 10 0) 0x100 10 =
    some (0x002, 10, 0, [some 0, some 1, some 0, some 0, some 1, some 0, some 0, some 0, some 0, some 1]) := by decide
/-- V-PACK-18. -/
theorem test_syms2bits_auto : ran (.syms2bits 0 true) (atS0 [1, 2] 0 2 0x100 0 0) 0x100 9 =
    some (0x002, 8, 0, [some 0, some 0, some 0, some 0, some 1, some 0, some 0, some 0, none]) := by decide
/-- V-FEC-06. -/
theorem test_fecEnc : ran .fecEnc (configured (stagedRatio 0x8000) [0xAA, 0xBB, 0xCC] 0 3 0x100 0 0) 0x100 4 =
    some (0x002, 4, 0, [some 0xAA, some 0xBB, some 0xCC, some 0x11]) := by decide
/-- V-FEC-05. -/
theorem test_fecDec : ran .fecDec (configured (stagedRatio 0x2000) [1, 2, 3, 4, 5] 0 5 0x100 0x200 0) 0x200 4 =
    some (0x002, 4, 1, [some 0, some 0, some 0, some 0]) := by decide
/-- V-FEC-16. -/
theorem test_fecDec_domain : ran .fecDec (configured (stagedRatio 0xFFFFFFFF) [] 0 5 0x100 0x200 0) 0 0 =
    some (0x702, 0, 0, []) := by decide
/-- V-LAY-02. -/
theorem test_layout : ran (.layout 4) (atS0 [0x09, 0x01, 0x14, 0x10] 0 4 0x100 2 1) 0x100 8 = some (0x002, 8, 0,
    [some 0x3A, some 0x12, some 0x71, some 0, some 0x5D, some 0, some 0, some 0]) := by decide
/-- V-LAY-12. -/
theorem test_layout_channels : ran (.layout 5) (atS0 [] 0 7 0x100 2 1) 0 0 = some (0x302, 0, 0, []) := by decide
/-- V-LAY-06, the second pixel. -/
theorem test_extract : ran (.extract 3) (atS0 [0x3A, 0x05, 0x71] 0 3 0x100 1 1) 0x100 3 =
    some (0x002, 3, 0, [some 0x09, some 0xFF, some 0x14]) := by decide
/-- V-LAY-04, plen 4. -/
theorem test_extract_short : ran (.extract 3) (atS0 [0x3A, 0x12, 0x71, 0x5D] 0 4 0x100 2 1) 0x100 6 =
    some (0x022, 6, 0, [some 0x09, some 0x01, some 0x14, some 0x10, some 0xFF, some 0xFF]) := by decide
/-- V-SRC-01 step 6 and 45_dimension_planner R190's example. -/
theorem test_plan : (match step ((atS0 [] 2 0 0 0 0).startCommand 0x00000050) with
    | .next t => (t.r0, t.r1, t.r2, t.r3) | .fault _ => (0, 0, 0, 0) | .refused _ => (0, 0, 0, 0)) = (2, 1, 4, 2) := by decide
/-- 45_dimension_planner R190: the first count that is too large. -/
theorem test_plan_large : ran .plan (atS0 [] 0x10000000 0 0 0 0) 0 0 = some (0x302, 0, 0, []) := by decide
/-- V-ENC-06 under S0. -/
theorem test_illegal_word : shown (step ((atS0 [] 0 0 0 0 0).startCommand 0)) 0 0 = some (0x102, 0, 0, []) := by decide
/-- 20_memory R51: an unwritten byte is a fault under the default parameter. -/
theorem test_unwritten : step ((atS0 [1] 0 2 0x100 0 0).startCommand 0x00000020) = .fault (.unwrittenRead 1) := rfl

/-! ## Operations -/

/-- 43_fec R146: the ties of V-FEC-02, and 45_dimension_planner R192's examples. -/
theorem test_arithmetic : fecPayload 0x10000 5 = 3 ∧ fecPayload 0x10000 15 = 8 ∧ fecPayload 6554 22 = 20 ∧
    ceilSqrt 0 = 0 ∧ ceilSqrt 9 = 3 ∧ ceilSqrt 10 = 4 ∧ ceilSqrt 54 = 8 := by decide
/-- 00_scope R9: the floor of the logarithm, by 41_quantization R102's examples. -/
theorem test_log : floorLog2 49 = 5 ∧ floorLog2 3 = 1 ∧ floorLog2 255 = 7 := by decide
/-- V-FEC-14: every contributor of every block has even multiplicity. -/
theorem test_redundancy : redundancy [0, 1, 2, 3, 4, 5, 6, 7, 8, 9] 5 = [0, 0, 0, 0, 0] := by decide
/-- V-FEC-12: under FEC_SYNDROME_RECHECK = 1 index 5 is skipped, under 0 it is searched again. -/
theorem test_fecCorrect : fecCorrect true [0x18, 0x87, 0x9C, 0x82, 0xEE] [0x0D, 0x76, 0x9A, 0x65, 0x84, 0x0D, 0x76] =
      [0x18, 0x8F, 0x9C, 0x82, 0xEA] ∧
    fecCorrect false [0x18, 0x87, 0x9C, 0x82, 0xEE] [0x0D, 0x76, 0x9A, 0x65, 0x84, 0x0D, 0x76] =
      [0x19, 0x8F, 0x9C, 0x82, 0xEA] := by decide
/-- 20_memory R53: most significant byte first. -/
theorem test_bigEndian : bigEndian 0x00000102 = [0, 0, 1, 2] := by decide
/-- What the host asks: the placed word is the next step's command. -/
theorem test_withFetchWord : step (State.reset.withFetchWord 32 0x00000001) =
    exec .cfgCommit (State.reset.startCommand 0x00000001) := rfl
/-- 20_memory R57: a region without bytes is always legal (V-ERR-11). -/
theorem test_empty_region : ran .bytes2bits (atS0 [] 0x100000 0 0x200000 0 0) 0 0 = some (0x002, 0, 0, []) := by decide

/-! ## Witnesses: for each obligation with hypotheses, values that meet them all -/

/-- A busy block: PLAN latched under S0, the engine to move. -/
def busyPlan : State := (atS0 [] 2 0 0 0 0).startCommand 0x00000050

theorem holds_atS0 (bytes : List Byte) (a1 a2 a3 a4 : Word) : (atS0 bytes 0 a1 a2 a3 a4).dmem.Holds 0 bytes :=
  Memory.holds_writeBytes [] 0 bytes

theorem committed_atS0 (bytes : List Byte) (a0 a1 a2 a3 a4 : Word) : (atS0 bytes a0 a1 a2 a3 a4).act.Committed :=
  ⟨stagedS0, by decide, rfl⟩

theorem witness_IllegalWordsEndWithErrIllegal : decode State.reset.cmd = .error .unassignedOp := by decide

theorem witness_TableRowsSelectCommands : decode 0x00010F23 = .ok (.syms2bits 15 true) ∧
    0x00010F23 &&& (Instr.syms2bits 0 false).tableRow.1 = (Instr.syms2bits 0 false).tableRow.2 ∧
    0x00010F23 &&& (Instr.syms2bits 15 true).tableRow.1 = (Instr.syms2bits 15 true).tableRow.2 := by decide

theorem witness_StepRunsTheLatchedCommand : (busyPlan.status.busy = true ∧ decode busyPlan.cmd = .ok .plan ∧
    busyPlan.hostOps = []) ∧ (busyPlan.withHost [.wait] [.engine]).status.busy = true ∧
    decode (busyPlan.withHost [.wait] [.engine]).cmd = .ok .plan ∧ (busyPlan.withHost [.wait] [.engine]).hostOps ≠ [] ∧
    (busyPlan.withHost [.wait] [.engine]).turns = .engine :: [] := by decide

theorem witness_HostActsInProgramOrder : (State.reset.withHost [.wait] []).hostOps = [.wait] ∧
    (State.reset.withHost [.wait] []).status.busy = false ∧ (busyPlan.withHost [.wait] [.host]).hostOps = [.wait] ∧
    (busyPlan.withHost [.wait] [.host]).status.busy = true ∧
    (busyPlan.withHost [.wait] [.host]).turns = .host :: [] := by decide

theorem witness_EndedRunStays : State.reset.Ended := ⟨rfl, rfl⟩

/-- A busy block with a poll before the engine's step, that step, and a block whose command has ended. -/
theorem witness_WaitEndsWithTheEngineStep : ((busyPlan.withHost [.wait] [.host, .engine]).status.busy = true ∧
    (busyPlan.withHost [.wait] [.host, .engine]).hostOps = .wait :: []) ∧
    (∃ t, step (busyPlan.withHost [.wait] []) = .next t ∧ t.hostOps = .wait :: [] ∧ t.status.busy = false) ∧
    (State.reset.withHost [.wait] []).hostOps = .wait :: [] ∧ (State.reset.withHost [.wait] []).status.busy = false :=
  ⟨by decide, ⟨_, rfl, rfl, rfl⟩, by decide⟩

theorem witness_ResetRegistersAndMemory : 0xFFFFF < Params.default.dmemSize ∧ Params.default.unwritten = .fault ∧
    0 < ({ dmemSize := 1, recheck := false, unwritten := .any } : Params).dmemSize ∧
    ({ dmemSize := 1, recheck := false, unwritten := .any } : Params).unwritten = .any := by decide

theorem witness_ResetDiscardsTheCommand : ((State.reset.withHost [.reset] []).hostOps = .reset :: [] ∧
    (State.reset.withHost [.reset] []).status.busy = false) ∧ (busyPlan.withHost [.reset] [.host]).hostOps = .reset :: [] ∧
    (busyPlan.withHost [.reset] [.host]).turns = .host :: [] := by decide

theorem witness_ResetMeetsTheInvariant : Params.default.Legal ∧ ({ Params.default with dmemSize := 1 } : Params).Legal ∧
    ({ Params.default with dmemSize := 2 ^ 32 } : Params).Legal := by decide

/-- S0 as a commit leaves it. -/
theorem inv_atS0 : (atS0 [7] 0 0 0 0 0).Inv :=
  ⟨by decide, ⟨by decide, by decide⟩, ⟨.inr ⟨stagedS0, by decide, rfl⟩, fun _ => ⟨stagedS0, by decide, rfl⟩⟩,
    ⟨fun h => (by cases h), fun h => absurd rfl h⟩⟩

theorem witness_StepKeepsTheInvariant : ∃ s t : State, s.Inv ∧ step s = .next t ∧ t.status.busy = true :=
  ⟨{ atS0 [7] 0 0 0 0 0 with hostOps := [wr .cmd 0x50] }, _, inv_atS0, rfl, rfl⟩

theorem witness_ParametersNeverChange : ∃ t, step busyPlan = .next t := ⟨_, rfl⟩

/-- An unconfigured block, a commit, one step that changes the active registers and CFG_VALID, and one that clears it. -/
theorem witness_OnlyCommitChangesTheConfiguration :
    (Instr.qBps ≠ .cfgCommit ∧ State.reset.status.cfgValid = false) ∧ (∃ t, exec .cfgCommit State.reset = .next t) ∧
    (∃ s t : State, step s = .next t ∧ ¬ ((nextTurn s).1 = some .host ∧ s.hostOps.head? = some .reset) ∧
      t.act ≠ s.act ∧ t.status.cfgValid ≠ s.status.cfgValid) ∧
    ∃ s t : State, step s = .next t ∧ ¬ ((nextTurn s).1 = some .host ∧ s.hostOps.head? = some .reset) ∧
      t.status.cfgValid = false ∧ s.status.cfgValid = true :=
  ⟨by decide, ⟨_, rfl⟩, ⟨({ State.reset with cfg := stagedS0 }).startCommand 1, _, rfl, by decide, by decide, by decide⟩,
    ⟨({ atS0 [] 0 0 0 0 0 with cfg := State.reset.cfg }).startCommand 1, _, rfl, by decide, by decide, by decide⟩⟩

theorem witness_CommandsLeaveHostRegisters : ∃ t, exec .qBps (atS0 [] 0 0 0 0 0) = .next t ∧ Instr.qBps ≠ .cfgCommit :=
  ⟨_, rfl, by decide⟩

/-- A command that completes and one that fails. -/
theorem witness_ResultRegistersWrittenOnlyAsListed : (∃ t, exec .qBps (atS0 [] 0 0 0 0 0) = .next t) ∧
    (∃ t, exec .cfgCommit (atS0 [] 0 0 0 0 0) = .next t) ∧
    ∃ t, exec .qAnchor (atS0 [] 49 0 0 0 0) = .next t ∧ t.status.err ≠ .none := ⟨⟨_, rfl⟩, ⟨_, rfl⟩, ⟨_, rfl, by decide⟩⟩

theorem witness_FlagsWrittenOnlyByTheirCommands : ∃ t, exec (.layout 3) (atS0 [] 0 0 0x100 0 1) = .next t ∧
    Instr.layout 3 ≠ .fecDec ∧ (∀ k auto, Instr.layout 3 ≠ .syms2bits k auto) ∧ (∀ ch, Instr.layout 3 ≠ .extract ch) ∧
    (atS0 [] 0 0 0x100 0 1).status.FlagsClear := ⟨_, rfl, by decide, by decide, by decide, rfl, rfl, rfl, rfl⟩

/-- The byte before and the byte after the eight cells stored. -/
theorem witness_MemoryChangesOnlyWhereStored : (atS0 [0xA5] 0 1 0x100 0 0).params.Legal ∧
    ∃ t, exec .bytes2bits (atS0 [0xA5] 0 1 0x100 0 0) = .next t ∧ NotStored .bytes2bits (atS0 [0xA5] 0 1 0x100 0 0) t 0xFF ∧
      NotStored .bytes2bits (atS0 [0xA5] 0 1 0x100 0 0) t 0x108 :=
  ⟨by decide, _, rfl, by unfold NotStored; decide, by unfold NotStored; decide⟩

theorem witness_FailedCommandsChangeOnlyStatus : (∃ t, exec .qAnchor (atS0 [] 49 0 0 0 0) = .next t ∧ t.status.err ≠ .none) ∧
    (∃ t, exec .cfgCommit State.reset = .next t ∧ t.status.err ≠ .none) ∧ decode State.reset.cmd = .error .unassignedOp :=
  ⟨⟨_, rfl, by decide⟩, ⟨_, rfl, by decide⟩, by decide⟩

theorem witness_CommandsFaultOnlyAtUnwrittenBytes : ∃ f, exec .bytes2bits (atS0 [1] 0 2 0x100 0 0) = .fault f := ⟨_, rfl⟩

/-- Under either UNWRITTEN_READ: two written bytes, and two unwritten ones. -/
theorem witness_CommandsEndWhenInputsAreReadable : InputsReadable .bytes2bits (atS0 [1, 2] 0 2 0x100 0 0) ∧
    InputsReadable .bytes2bits { atS0 [] 0 2 0x100 0 0 with params := { Params.default with unwritten := .any } } := by
  constructor
  · intro g hg a ha
    cases List.mem_singleton.1 hg
    simp only [Region.has, Bool.and_eq_true, decide_eq_true_eq] at ha
    have : a < 2 := ha.2
    obtain rfl | rfl : a = 0 ∨ a = 1 := by omega
    · exact .inl (by decide)
    · exact .inl (by decide)
  · intro g _ a _; exact .inr rfl

/-- One state per check: none passes before the one that fails (V-ERR-02, V-QNT-03, V-ERR-12, V-ERR-14, V-ERR-10), one state
that passes all, one staged configuration that is invalid and one illegal word. -/
theorem witness_FirstFailingCheckIsReported :
    decode State.reset.cmd = .error .unassignedOp ∧ stagedLegal State.reset.cfg = false ∧
    State.reset.status.cfgValid = false ∧
    ((atS0 [] 49 0 0 0 0).status.cfgValid = true ∧ ¬ operandOk .qAnchor (atS0 [] 49 0 0 0 0)) ∧
    (operandOk (.layout 3) (atS0 [] 0 7 0xFFFFF 2 1) ∧ ¬ capacityOk (.layout 3) (atS0 [] 0 7 0xFFFFF 2 1)) ∧
    (operandOk .fecDec (configured (stagedRatio 0xFFFFFFFF) [] 0 5 0xFFFFF 0 0) ∧
      capacityOk .fecDec (configured (stagedRatio 0xFFFFFFFF) [] 0 5 0xFFFFF 0 0) ∧
      ¬ domainOk .fecDec (configured (stagedRatio 0xFFFFFFFF) [] 0 5 0xFFFFF 0 0)) ∧
    (domainOk .bytes2bits (atS0 [1, 2] 0 2 1 0 0) ∧ rangeOk .bytes2bits (atS0 [1, 2] 0 2 1 0 0) = false) ∧
    ChecksPass (.layout 3) (atS0 [] 0 6 0x100 2 1) :=
  ⟨by decide, by decide, by decide, ⟨by decide, (by decide : ¬ (49 : Word).toNat < (atS0 [] 49 0 0 0 0).act.icount.toNat)⟩,
    ⟨.inl rfl, (by decide : ¬ cdiv 7 3 ≤ 2 * 1)⟩,
    ⟨trivial, trivial, (by decide : ¬ (5 < 5 ∨ fecPayload 0xFFFFFFFF 5 ≠ 0))⟩, ⟨trivial, by decide⟩,
    ⟨rfl, .inl rfl, (by decide : cdiv 6 3 ≤ 2 * 1), trivial, by decide⟩⟩

theorem witness_BadInputEndsWithErrFormat : (∃ t, exec (.extract 3) (atS0 [] 0 0 0x100 0 0) = .next t) ∧
    (ChecksPass .bits2bytes (atS0 [1, 0, 2] 0 3 0x100 0 0) ∧ (atS0 [1, 0, 2] 0 3 0x100 0 0).dmem.Holds 0 [1, 0, 2]) ∧
    (ChecksPass (.bits2syms 5) (atS0 [1, 0, 1] 0 3 0x100 0 0) ∧ (atS0 [1, 0, 1] 0 3 0x100 0 0).dmem.Holds 0 [1, 0, 1]) ∧
    ChecksPass (.layout 3) (atS0 [0x30, 0x31, 0xFE, 0xFF] 0 4 0x100 2 1) ∧
    (atS0 [0x30, 0x31, 0xFE, 0xFF] 0 4 0x100 2 1).dmem.Holds 0 [0x30, 0x31, 0xFE, 0xFF] :=
  ⟨⟨_, rfl⟩, ⟨⟨rfl, trivial, trivial, trivial, by decide⟩, holds_atS0 _ _ _ _ _⟩,
    ⟨⟨rfl, (by decide : legalK 5), trivial, trivial, by decide⟩, holds_atS0 _ _ _ _ _⟩,
    ⟨rfl, .inl rfl, (by decide : cdiv 4 3 ≤ 2 * 1), trivial, by decide⟩, holds_atS0 _ _ _ _ _⟩

/-- The hypotheses of a command with no operand, capacity or domain check, and one that breaks each part of the rule: a region
one byte too long (a), V-ERR-10 (b), V-ERR-15 (c). -/
theorem witness_RegionCheckMeansDisjoint :
    (Instr.fecDec ≠ .cfgCommit ∧ (configured (stagedRatio 0x2000) [] 0 18 0x100 0x10F 0).status.cfgValid = true ∧
      operandOk .fecDec (configured (stagedRatio 0x2000) [] 0 18 0x100 0x10F 0) ∧
      capacityOk .fecDec (configured (stagedRatio 0x2000) [] 0 18 0x100 0x10F 0) ∧
      domainOk .fecDec (configured (stagedRatio 0x2000) [] 0 18 0x100 0x10F 0)) ∧
    rangeOk .fecDec (configured (stagedRatio 0x2000) [] 0 18 0x100 0x10F 0) = false ∧
    rangeOk .bytes2bits (atS0 [1, 2] 0 2 1 0 0) = false ∧ rangeOk .bytes2bits (atS0 [1] 0 1 0xFFFF9 0 0) = false ∧
    rangeOk .bytes2bits (atS0 [1] 0 1 0xFFFF8 0 0) = true :=
  ⟨⟨by decide, rfl, trivial, trivial, .inr (by decide)⟩, by decide, by decide, by decide, by decide⟩

/-- A valid staged configuration with the least count of intervals, and each way to be invalid (V-QNT-09, V-ERR-05). -/
theorem witness_CommitValidatesAndActivates :
    ((1 : BitVec 8) ≠ 0 ∧ (253 : BitVec 8) ≠ 255 ∧ (1 : Word) ≠ 0 ∧ 2 ≤ cdiv (255 - 253) 1) ∧
    State.reset.cfg.l = 0 ∧ State.reset.cfg.minDim = 0 ∧ cdiv (255 - 0) 255 < 2 ∧ cdiv (255 - 254) 1 < 2 := by decide

theorem witness_IntervalCountAndBitsBounds : (1 ≤ 255 ∧ 0 ≤ 254) ∧ (1 ≤ 1 ∧ 253 ≤ 254 ∧ 2 ≤ intervalCount 1 253) := by decide

theorem witness_AnchorsDecodeToTheirIndex : (atS0 [] 0 0 0 0 0).act.Committed ∧ 48 < (atS0 [] 0 0 0 0 0).scheme.icount :=
  ⟨committed_atS0 _ _ _ _ _ _, by decide⟩

/-- Each clause at its boundary: the last filler value, the first data value and the last value. -/
theorem witness_ToSymbolFindsTheInterval : (atS0 [] 0 0 0 0 0).act.Committed ∧ 10 ≤ (atS0 [] 0 0 0 0 0).scheme.f ∧
    (atS0 [] 0 0 0 0 0).scheme.f < 11 ∧ (atS0 [] 0 0 0 0 0).scheme.f < 255 :=
  ⟨committed_atS0 _ _ _ _ _ _, by decide, by decide, by decide⟩

theorem witness_CountQueriesReadTheConfiguration : (atS0 [] 0 0 0 0 0).status.cfgValid = true ∧
    (atS0 [] 0 0 0 0 0).act.Committed ∧ State.reset.status.cfgValid = false := ⟨rfl, committed_atS0 _ _ _ _ _ _, rfl⟩

theorem witness_AnchorQueryGivesTheMidpoint : (atS0 [] 48 0 0 0 0).status.cfgValid = true ∧
    (atS0 [] 48 0 0 0 0).act.Committed ∧ (atS0 [] 48 0 0 0 0).a0.toNat < (atS0 [] 48 0 0 0 0).act.icount.toNat ∧
    (atS0 [] 49 0 0 0 0).act.icount.toNat ≤ (atS0 [] 49 0 0 0 0).a0.toNat :=
  ⟨rfl, committed_atS0 _ _ _ _ _ _, by decide, by decide⟩

theorem witness_ValueQueriesClassifyBytes : (atS0 [] 255 0 0 0 0).status.cfgValid = true ∧
    (atS0 [] 255 0 0 0 0).act.Committed ∧ (atS0 [] 255 0 0 0 0).a0.toNat ≤ 255 ∧ 255 < (atS0 [] 256 0 0 0 0).a0.toNat :=
  ⟨rfl, committed_atS0 _ _ _ _ _ _, by decide, by decide⟩

theorem witness_BytesBecomeCellsMsbFirst : (atS0 [0xA5] 0 1 0x100 0 0).params.Legal ∧
    ChecksPass .bytes2bits (atS0 [0xA5] 0 1 0x100 0 0) ∧ (atS0 [0xA5] 0 1 0x100 0 0).dmem.Holds 0 [0xA5] :=
  ⟨by decide, ⟨rfl, trivial, trivial, trivial, by decide⟩, holds_atS0 _ _ _ _ _⟩

theorem witness_CellsBecomeBytesZeroPadded : (atS0 [1, 0, 1] 0 3 0x100 0 0).params.Legal ∧
    ChecksPass .bits2bytes (atS0 [1, 0, 1] 0 3 0x100 0 0) ∧ (atS0 [1, 0, 1] 0 3 0x100 0 0).dmem.Holds 0 [1, 0, 1] ∧
    ∀ c ∈ ([1, 0, 1] : List Byte), c = 0 ∨ c = 1 :=
  ⟨by decide, ⟨rfl, trivial, trivial, trivial, by decide⟩, holds_atS0 _ _ _ _ _, by decide⟩

theorem witness_CellsBecomeSymbolCodes : (atS0 [1, 0, 1] 0 3 0x100 0 0).params.Legal ∧
    ChecksPass (.bits2syms 0) (atS0 [1, 0, 1] 0 3 0x100 0 0) ∧ (atS0 [1, 0, 1] 0 3 0x100 0 0).act.Committed ∧
    (atS0 [1, 0, 1] 0 3 0x100 0 0).dmem.Holds 0 [1, 0, 1] ∧ ∀ c ∈ ([1, 0, 1] : List Byte), c = 0 ∨ c = 1 :=
  ⟨by decide, ⟨rfl, (by decide : legalK 0), trivial, trivial, by decide⟩, committed_atS0 _ _ _ _ _ _,
    holds_atS0 _ _ _ _ _, by decide⟩

theorem witness_ExpansionIsLowBitsMsbFirst : (9 : Byte).toNat < 49 ∧ (9 : Byte).toNat < 2 ^ 5 := by decide

/-- Two symbols of five bits, a Filler between them, and more bits expected than there are; one symbol written of three, and
as many bits expected as it has; and no symbol written, with no bit expected. -/
theorem witness_SymbolsBecomeExpectedCells : ChecksPass (.syms2bits 0 false) (atS0 [9, 0xFF, 1] 0 3 0x100 11 0) ∧
    (atS0 [9, 0xFF, 1] 0 3 0x100 11 0).dmem.Holds 0 [9, 0xFF, 1] ∧
    (([9, 0xFF, 1] : List Byte).flatMap fun c => if c = 0xFF then [] else expand 49 5 c).length < 11 ∧
    (ChecksPass (.syms2bits 0 false) (atS0 [9] 0 3 0x100 5 0) ∧ (atS0 [9] 0 3 0x100 5 0).dmem.Holds 0 [9] ∧
      5 ≤ (([9] : List Byte).flatMap fun c => if c = 0xFF then [] else expand 49 5 c).length) ∧
    ChecksPass (.syms2bits 0 false) (atS0 [] 0 3 0x100 0 0) ∧ (atS0 [] 0 3 0x100 0 0).dmem.Holds 0 [] ∧
    (atS0 [] 0 3 0x100 0 0).a3.toNat ≤ 0 :=
  ⟨⟨rfl, (by decide : legalK 0), trivial, trivial, by decide⟩, holds_atS0 _ _ _ _ _, by decide,
    ⟨⟨rfl, (by decide : legalK 0), trivial, trivial, by decide⟩, holds_atS0 _ _ _ _ _, by decide⟩,
    ⟨rfl, (by decide : legalK 0), trivial, trivial, by decide⟩, holds_atS0 _ _ _ _ _, by decide⟩

theorem witness_AutoKeepsWholeBytesOfCells : (atS0 [1, 2] 0 2 0x100 0 0).params.Legal ∧
    ChecksPass (.syms2bits 0 true) (atS0 [1, 2] 0 2 0x100 0 0) ∧ (atS0 [1, 2] 0 2 0x100 0 0).dmem.Holds 0 [1, 2] :=
  ⟨by decide, ⟨rfl, (by decide : legalK 0), trivial, trivial, by decide⟩, holds_atS0 _ _ _ _ _⟩

/-- The widest k that comes back for 49 intervals and the narrowest that does not; the least and the greatest interval count
with a width that does not. -/
theorem witness_PackingRoundTrips : (1 ≤ 5 ∧ 2 ^ 5 ≤ 49 ∧ 49 ≤ 255 ∧ ∀ c ∈ ([1, 0, 1] : List Byte), c = 0 ∨ c = 1) ∧
    (6 ≤ 8 ∧ 49 < 2 ^ 6) ∧ (2 ≤ 2 ∧ 2 < 2 ^ 2) ∧ 255 < 2 ^ 8 := by decide

/-- A block at ratio 0.5 with bytes at address 0. -/
def atHalf (bytes : List Byte) (a1 : Word) : State := configured (stagedRatio 0x8000) bytes 0 a1 0x100 0x200 0

theorem holds_atHalf (bytes : List Byte) (a1 : Word) : (atHalf bytes a1).dmem.Holds 0 bytes := Memory.holds_writeBytes [] 0 bytes

theorem witness_FecEncAppendsRedundancy : (atHalf [1, 2, 3, 4] 4).params.Legal ∧ ChecksPass .fecEnc (atHalf [1, 2, 3, 4] 4) ∧
    (atHalf [1, 2, 3, 4] 4).dmem.Holds 0 [1, 2, 3, 4] ∧ 4 * (atHalf [1, 2, 3, 4] 4).act.ratio.toNat / 65536 = 2 :=
  ⟨by decide, ⟨rfl, trivial, trivial, trivial, by decide⟩, holds_atHalf _ _, by decide⟩

/-- The longest buffer that is short, and one without redundancy (ratio 0). -/
theorem witness_FecDecCopiesShortBuffers :
    (ChecksPass .fecDec (atHalf [1, 2, 3, 4] 4) ∧ (atHalf [1, 2, 3, 4] 4).dmem.Holds 0 [1, 2, 3, 4]) ∧
    ChecksPass .fecDec (atS0 [1, 2, 3, 4, 5] 0 5 0x100 0x200 0) ∧
    (atS0 [1, 2, 3, 4, 5] 0 5 0x100 0x200 0).dmem.Holds 0 [1, 2, 3, 4, 5] ∧
    5 = (2 * 5 * 65536 + (65536 + 0)) / (2 * (65536 + 0)) :=
  ⟨⟨⟨rfl, trivial, trivial, .inl (by decide), by decide⟩, holds_atHalf _ _⟩,
    ⟨rfl, trivial, trivial, .inr (by decide), by decide⟩, holds_atS0 _ _ _ _ _, by decide⟩

/-- Six bytes at ratio 0.5 split into four and two; here both blocks verify, and with another stored byte one does not. -/
theorem witness_FecDecReportsWhatStillMismatches : ChecksPass .fecDec (atHalf [1, 2, 3, 4, 0, 0] 6) ∧
    (atHalf [1, 2, 3, 4, 0, 0] 6).dmem.Holds 0 [1, 2, 3, 4, 0, 0] ∧
    4 = (2 * 6 * 65536 + (65536 + 0x8000)) / (2 * (65536 + 0x8000)) ∧
    (∀ i, i < 2 → red [1, 2, 3, 4] 2 i = ([0, 0] : List Byte).getD i 0) ∧
    ChecksPass .fecDec (atHalf [1, 2, 3, 4, 8, 0] 6) ∧ (atHalf [1, 2, 3, 4, 8, 0] 6).dmem.Holds 0 [1, 2, 3, 4, 8, 0] ∧
    (List.range 2).filter (fun i => red [1, 2, 3, 4] 2 i != ([8, 0] : List Byte).getD i 0) = [0] :=
  ⟨⟨rfl, trivial, trivial, .inr (by decide), by decide⟩, holds_atHalf _ _, by decide, by decide,
    ⟨rfl, trivial, trivial, .inr (by decide), by decide⟩, holds_atHalf _ _, by decide⟩

/-- V-FEC-12's payload, n = 5 and f = 7: in block 1 the first contributor of odd multiplicity is j = 3; the other clause
by a syndrome of two bits and by V-FEC-14's blocks. -/
theorem witness_SearchFlipsFirstOddContributor :
    ((2 : Nat) < 5 ∧ (3 : Nat) < 8) ∧
    (∃ q : List Byte, q.length = 7 ∧ red [0x18, 0x8F, 0x9C, 0x82, 0xEA] 7 1 ^^^ q.getD 1 0 = 1#8 <<< 3 ∧
      red [0x18, 0x8F, 0x9C, 0x82, 0xEA] 7 1 ≠ q.getD 1 0) ∧
    blockMultiplicity 5 7 1 (contributor 5 7 1 3) % 2 = 1 ∧
    (∀ j, j < 3 → blockMultiplicity 5 7 1 (contributor 5 7 1 j) % 2 = 0) ∧
    (∃ q : List Byte, q.length = 7 ∧ ∀ b, b < 8 → red [0x18, 0x8F, 0x9C, 0x82, 0xEA] 7 1 ^^^ q.getD 1 0 ≠ 1#8 <<< b) ∧
    ∀ j, j < 8 → blockMultiplicity 10 5 0 (contributor 10 5 0 j) % 2 = 0 :=
  ⟨by decide, ⟨[0, 0x7E, 0, 0, 0, 0, 0], by decide⟩, by decide, by decide, ⟨[0, 0x75, 0, 0, 0, 0, 0], by decide⟩, by decide⟩

/-- Both ways to come back (their completion is the last line): a short buffer without redundancy, and a split that gives the payload's length. -/
theorem witness_FecRoundTripExactly :
    ((atS0 [1, 2, 3, 4] 0 4 0x100 0x200 0).status.cfgValid = true ∧
      rangeOk .fecDec (atS0 [1, 2, 3, 4] 0 4 0x100 0x200 0) = true ∧
      (atS0 [1, 2, 3, 4] 0 4 0x100 0x200 0).dmem.Holds 0 (fecEncode 0 [1, 2, 3, 4])) ∧
    (atHalf (fecEncode 0x8000 [1, 2, 3, 4]) 6).status.cfgValid = true ∧
    rangeOk .fecDec (atHalf (fecEncode 0x8000 [1, 2, 3, 4]) 6) = true ∧
    6 = 4 + 4 * 0x8000 / 65536 ∧ (atHalf (fecEncode 0x8000 [1, 2, 3, 4]) 6).dmem.Holds 0 (fecEncode 0x8000 [1, 2, 3, 4]) ∧
    (2 * 6 * 65536 + (65536 + 0x8000)) / (2 * (65536 + 0x8000)) = 4 ∧
    ∃ t, exec .fecDec (atHalf (fecEncode 0x8000 [1, 2, 3, 4]) 6) = .next t ∧ t.status.err = .none ∧ t.r0.toNat = 4 :=
  ⟨⟨rfl, by decide, holds_atS0 _ _ _ _ _⟩, rfl, by decide, by decide, holds_atHalf _ _, by decide, _, rfl, rfl, rfl⟩

/-- V-FEC-14's blocks. -/
theorem witness_EvenBlocksDetectNothing : 1 ≤ 10 ∧
    (∀ j, j < 8 → blockMultiplicity 10 5 2 (contributor 10 5 2 j) % 2 = 0) ∧
    ([0, 1, 2, 3, 4, 5, 6, 7, 8, 9] : List Byte).length = 10 ∧ ([0, 0, 1, 0, 0] : List Byte).getD 2 0 ≠ 0 := by decide

/-- Symbols, a Filler among them, that fill the grid of one pixel (V-LAY-08). -/
theorem checks_layout : ChecksPass (.layout 3) (atS0 [0x09, 0xFF, 0x30] 0 3 0x100 1 1) :=
  ⟨rfl, .inl rfl, (by decide : cdiv 3 3 ≤ 1 * 1), trivial, by decide⟩

theorem witness_LayoutWritesAnchorsInPixelOrder : ChecksPass (.layout 3) (atS0 [0x09, 0xFF, 0x30] 0 3 0x100 1 1) ∧
    (atS0 [0x09, 0xFF, 0x30] 0 3 0x100 1 1).act.Committed ∧
    (atS0 [0x09, 0xFF, 0x30] 0 3 0x100 1 1).dmem.Holds 0 [0x09, 0xFF, 0x30] ∧
    (∀ c ∈ ([0x09, 0xFF, 0x30] : List Byte), c.toNat < (atS0 [] 0 3 0x100 1 1).act.icount.toNat ∨ c = 0xFF) ∧
    (atS0 [] 0 3 0x100 1 1).a3.toNat * (atS0 [] 0 3 0x100 1 1).a4.toNat * (3 : BitVec 4).toNat < 2 ^ 32 :=
  ⟨checks_layout, committed_atS0 _ _ _ _ _ _, holds_atS0 _ _ _ _ _, by decide, by decide⟩

/-- A buffer one byte short of its grid (V-LAY-04's kind). -/
theorem witness_ExtractDecodesEveryPixel : (atS0 [58, 18] 0 2 0x100 1 1).params.Legal ∧
    ChecksPass (.extract 3) (atS0 [58, 18] 0 2 0x100 1 1) ∧
    ∀ x c, x < 1 → c < 3 → x * (3 : BitVec 4).toNat + c < (atS0 [58, 18] 0 2 0x100 1 1).a1.toNat →
      (atS0 [58, 18] 0 2 0x100 1 1).dmem.read (x * (3 : BitVec 4).toNat + c) = some (if x * 3 + c = 0 then 58 else 18) :=
  ⟨by decide, ⟨rfl, .inl rfl, trivial, trivial, by decide⟩, by
    intro x c hx hc h
    obtain rfl : x = 0 := by omega
    have : 0 * 3 + c < 2 := h
    obtain rfl | rfl : c = 0 ∨ c = 1 := by omega
    · decide
    · decide⟩

theorem witness_WholePixelTestChangesNothing : ([58, 5, 113] : List Byte).length % 3 = 0 := by decide

/-- EXTRACT of the pixel that LAYOUT wrote; the hypotheses on LAYOUT's own state are those of
witness_LayoutWritesAnchorsInPixelOrder, of the same state. -/
theorem witness_ExtractRecoversTheLayout : ∃ t u : State,
    (atS0 [0x09, 0xFF, 0x30] 0 3 0x100 1 1).params.Legal ∧
    exec (.layout 3) (atS0 [0x09, 0xFF, 0x30] 0 3 0x100 1 1) = .next t ∧ u.dmem = t.dmem ∧ u.act = t.act ∧
    u.params = t.params ∧ ChecksPass (.extract 3) u ∧ u.a0 = 0x100 ∧ u.a3 = 1 ∧ u.a4 = 1 ∧ u.a1.toNat = 1 * 1 * 3 :=
  ⟨_, { atS0 [0x09, 0xFF, 0x30] 0x100 3 0x200 1 1 with
      dmem := (atS0 [0x09, 0xFF, 0x30] 0 3 0x100 1 1).dmem.writeBytes 0x100 [58, 0, 253] }, by decide, rfl, by decide, rfl,
    rfl, ⟨rfl, .inl rfl, trivial, trivial, by decide⟩, rfl, rfl, rfl, rfl⟩

/-- The largest count that PLAN admits, and the first that it does not. -/
theorem witness_PlanComputesTheGrid : (atS0 [] 0x0FFFFFFF 0 0 0 0).status.cfgValid = true ∧
    (atS0 [] 0x0FFFFFFF 0 0 0 0).act.Committed ∧ (atS0 [] 0x0FFFFFFF 0 0 0 0).a0.toNat ≤ 0x0FFFFFFF ∧
    0x0FFFFFFF < (atS0 [] 0x10000000 0 0 0 0).a0.toNat :=
  ⟨rfl, committed_atS0 _ _ _ _ _ _, by decide, by decide⟩

theorem witness_PlannedGridHoldsTheSymbols : (atS0 [] 2 0 0 0 0).act.Committed ∧
    ∃ t u : State, exec .plan (atS0 [] 2 0 0 0 0) = .next t ∧ t.status.err = .none ∧ u.a1 = t.r2 ∧ u.a3 = t.r0 ∧ u.a4 = t.r1 :=
  ⟨committed_atS0 _ _ _ _ _ _, _, atS0 [] 0 4 0 2 1, rfl, rfl, by decide, by decide, by decide⟩

/-- V-SRC-01: two bytes, four symbols, two pixels. -/
theorem witness_PixelsCarryTheBuffer : (atS0 [] 0 0 0 0 0).act.Committed ∧
    bitsToSyms 5 49 (bytesToBits [0x48, 0x69]) = [0x09, 0x01, 0x14, 0x10] ∧ cdiv 4 3 ≤ 2 ∧
    layoutBytes (atS0 [] 0 0 0 0 0).scheme 3 2 [0x09, 0x01, 0x14, 0x10] = [0x3A, 0x12, 0x71, 0x5D, 0, 0] ∧
    extractCodes (atS0 [] 0 0 0 0 0).scheme [0x3A, 0x12, 0x71, 0x5D, 0, 0] = [0x09, 0x01, 0x14, 0x10, 0xFF, 0xFF] :=
  ⟨committed_atS0 _ _ _ _ _ _, by decide, by decide, by decide, by decide⟩

theorem witness_CmdWriteStartsTheCommand : State.reset.status.busy = false := rfl

theorem witness_RegistersReadBackWithoutAliases :
    Reg.cmd ∈ ([.cfgRatio, .cfgMaxwarn, .cfgMindim, .cmd, .a0, .a1, .a2, .a3, .a4] : List Reg) ∧
    Reg.cfgL ∈ ([.cfgL, .cfgFiller] : List Reg) ∧
    Reg.status ∈ ([.cfgSpcg, .actL, .actFiller, .actRatio, .actMaxwarn, .actMindim, .actIcount, .actBps, .r0, .r1, .r2, .r3,
      .status] : List Reg) ∧ Reg.a0 ≠ .cmd ∧ Reg.a0 ≠ .status := by decide

/-- A width, a misaligned offset, an offset between two registers, a busy block, and the first address past DMEM. -/
theorem witness_ProtocolViolationsFault : 16 ≠ 32 ∧ 0x41 % 4 ≠ 0 ∧ (∀ r ∈ Reg.all, r.offset ≠ 0x3C) ∧
    busyPlan.status.busy = true ∧ State.reset.params.dmemSize ≤ 0x100000 := by decide

/-- A written byte, the last address of DMEM unwritten, and the same under UNWRITTEN_READ = any. -/
theorem witness_AllowedInteractionsComplete : (atS0 [7] 0 0 0 0 0).status.busy = false ∧
    0xFFFFF < (atS0 [7] 0 0 0 0 0).params.dmemSize ∧ (atS0 [7] 0 0 0 0 0).dmem.read 0 = some 7 ∧
    (atS0 [7] 0 0 0 0 0).dmem.read 0xFFFFF = none ∧ (atS0 [7] 0 0 0 0 0).params.unwritten = .fault ∧
    ({ atS0 [7] 0 0 0 0 0 with params := { Params.default with unwritten := .any } } : State).params.unwritten = .any := by
  decide

end Sys2Proof.Machine
end

section
/-! SUPPORT. 10_state R34 and R36: which steps write ACT_* and CFG_VALID, and which commands write a result flag. -/

namespace Sys2Proof.Machine

/-! ## What the end of a command may write -/

/-- STATUS at a command's end: BUSY and ERR as every end writes them (10_state R33, R35), CFG_VALID by CFG_COMMIT alone (R34),
and each result flag by the command it belongs to (R36). -/
def StatusEnd (i : Instr) (st st' : Status) : Prop :=
  match i with
  | .cfgCommit => ∃ e v, st' = { st.ended e with cfgValid := v }
  | .fecDec => ∃ e c o, st' = { st.ended e with allCorr := c, omitted := o }
  | .syms2bits _ _ => ∃ e b, st' = { st.ended e with short := b }
  | .extract _ => ∃ e b, st' = { st.ended e with ambig := b }
  | .qIcount | .qBps | .qAnchor | .qIsfiller | .qTosymbol | .bytes2bits | .bits2bytes | .bits2syms _ | .fecEnc
  | .layout _ | .plan => ∃ e, st' = st.ended e

/-- An end that writes BUSY and ERR alone is one that every command may have. -/
theorem StatusEnd.of_ended (i : Instr) (st : Status) (e : ErrCode) : StatusEnd i st (st.ended e) := by
  cases i
  case cfgCommit => exact ⟨e, st.cfgValid, rfl⟩
  case fecDec => exact ⟨e, st.allCorr, st.omitted, rfl⟩
  case syms2bits => exact ⟨e, st.short, rfl⟩
  case extract => exact ⟨e, st.ambig, rfl⟩
  all_goals exact ⟨e, rfl⟩

theorem Failure.act_statusEnd {i : Instr} {s t : State} (h : Failure i s t) :
    (i ≠ .cfgCommit → t.act = s.act) ∧ StatusEnd i s.status t.status := by
  unfold Failure at h
  split at h
  next hi => obtain ⟨_, rfl⟩ := h; subst hi; exact ⟨fun _ => rfl, .config, false, rfl⟩
  next => obtain ⟨e, _, _, rfl⟩ := h; exact ⟨fun _ => rfl, .of_ended i s.status e⟩

@[simp] theorem State.setCount_act (s : State) (n : Nat) : (s.setCount n).act = s.act := by
  obtain ⟨_, _, h⟩ := State.setCount_frame s n
  simp [h]

@[simp] theorem State.setCount_status (s : State) (n : Nat) : (s.setCount n).status = s.status := by
  obtain ⟨_, _, h⟩ := State.setCount_frame s n
  simp [h]

@[simp] theorem State.flagShort_act (s : State) (e : Option Nat) (n : Nat) : (s.flagShort e n).act = s.act := by
  cases e <;> rfl

@[simp] theorem State.flagShort_status (s : State) (e : Option Nat) (n : Nat) :
    (s.flagShort e n).status = { s.status with short := e.elim s.status.short fun e => decide (n < e) } := by
  cases e <;> rfl

/-- The correcting path of FEC_DEC writes DMEM, R0, R1 and its own two flags. -/
theorem fecRepair_next {n : Nat} {buf : List Byte} {s t : State} (h : fecRepair n buf s = .next t) :
    ∃ m w₀ w₁ c o, t = (((((s.setDmem m).setR0 w₀).setR1 w₁).setAllCorr c).setOmitted o).finish .none := by
  rw [fecRepair, complete_eq] at h; cases h; exact ⟨_, _, _, _, _, rfl⟩

theorem Completion.act_statusEnd {i : Instr} {s t : State} (h : Completion i s t) :
    (i ≠ .cfgCommit → t.act = s.act) ∧ StatusEnd i s.status t.status := by
  cases i <;> simp only [Completion] at h
  case cfgCommit => obtain ⟨_, rfl⟩ := h; exact ⟨fun hi => absurd rfl hi, .none, true, rfl⟩
  case syms2bits k auto =>
    obtain ⟨bits, _, _, rfl⟩ := h
    exact ⟨by simp, .none, (expectedBits s auto).elim s.status.short fun e => decide (bits.length < e),
      by simp [Status.ended]⟩
  case fecDec =>
    obtain ⟨_, _, _, h⟩ := h
    split at h
    · rw [fecCopy, complete_eq] at h; cases h
      exact ⟨by simp, .none, true, s.status.omitted, by simp [Status.ended]⟩
    · obtain ⟨_, _, _, c, o, rfl⟩ := fecRepair_next h
      exact ⟨by simp, .none, c, o, by simp [Status.ended]⟩
  case extract ch =>
    obtain ⟨_, _, _, rfl⟩ := h
    exact ⟨by simp, .none, decide (s.a1.toNat ≠ pixelCount s * ch.toNat), by simp [Status.ended]⟩
  case bytes2bits | fecEnc => obtain ⟨_, _, _, rfl⟩ := h; exact ⟨by simp, .none, by simp⟩
  case bits2bytes | bits2syms | layout => obtain ⟨_, _, _, _, rfl⟩ := h; exact ⟨by simp, .none, by simp⟩
  all_goals (subst h; exact ⟨by simp, .none, by simp⟩)

theorem exec_act_statusEnd {i : Instr} {s t : State} (h : exec i s = .next t) :
    (i ≠ .cfgCommit → t.act = s.act) ∧ StatusEnd i s.status t.status := by
  rcases exec_next h with hf | ⟨_, hc⟩
  · exact hf.act_statusEnd
  · exact hc.act_statusEnd

/-- What `StatusEnd` keeps: each of CFG_VALID and the flags, by every command but its own. -/
theorem StatusEnd.kept {i : Instr} {st st' : Status} (h : StatusEnd i st st') :
    (i ≠ .cfgCommit → st'.cfgValid = st.cfgValid) ∧
    (i ≠ .fecDec → st'.allCorr = st.allCorr ∧ st'.omitted = st.omitted) ∧
    ((∀ k auto, i ≠ .syms2bits k auto) → st'.short = st.short) ∧
    ((∀ ch, i ≠ .extract ch) → st'.ambig = st.ambig) := by
  cases i
  case cfgCommit =>
    obtain ⟨_, _, rfl⟩ := h
    exact ⟨fun hi => absurd rfl hi, fun _ => ⟨rfl, rfl⟩, fun _ => rfl, fun _ => rfl⟩
  case fecDec =>
    obtain ⟨_, _, _, rfl⟩ := h
    exact ⟨fun _ => rfl, fun hi => absurd rfl hi, fun _ => rfl, fun _ => rfl⟩
  case syms2bits k auto =>
    obtain ⟨_, _, rfl⟩ := h
    exact ⟨fun _ => rfl, fun _ => ⟨rfl, rfl⟩, fun hi => absurd rfl (hi k auto), fun _ => rfl⟩
  case extract ch =>
    obtain ⟨_, _, rfl⟩ := h
    exact ⟨fun _ => rfl, fun _ => ⟨rfl, rfl⟩, fun _ => rfl, fun hi => absurd rfl (hi ch)⟩
  all_goals
    obtain ⟨_, rfl⟩ := h
    exact ⟨fun _ => rfl, fun _ => ⟨rfl, rfl⟩, fun _ => rfl, fun _ => rfl⟩

/-! ## The result flags (10_state R36) -/

/-- Settles O17: every end of a command is a `StatusEnd`, which keeps each flag but the command's own. -/
theorem flagsWrittenOnlyByTheirCommands : Obligations.FlagsWrittenOnlyByTheirCommands := by
  intro i s t h
  obtain ⟨-, hst⟩ := exec_act_statusEnd h
  obtain ⟨-, hfecDec, hsyms2bits, hextract⟩ := hst.kept
  refine ⟨hfecDec, hsyms2bits, hextract, ?_⟩
  rintro ⟨hallCorr, homitted, hshort, hambig⟩ h₁ h₂ h₃
  obtain ⟨hallCorr', homitted'⟩ := hfecDec h₁
  exact ⟨hallCorr'.trans hallCorr, homitted'.trans homitted, (hsyms2bits h₂).trans hshort, (hextract h₃).trans hambig⟩

/-! ## ACT_* and CFG_VALID (10_state R34) -/

/-- Neither ACT_* nor CFG_VALID has changed. -/
def ConfigKept (s t : State) : Prop := t.act = s.act ∧ t.status.cfgValid = s.status.cfgValid

/-- CFG_VALID says whether the staged configuration is valid, and ACT_* hold it where it is (41_quantization R100). -/
def ConfigCommitted (s t : State) : Prop :=
  t.act = (if stagedLegal s.cfg then activeOf s.cfg else s.act) ∧ t.status.cfgValid = stagedLegal s.cfg

theorem exec_configKept {i : Instr} {s t : State} (hi : i ≠ .cfgCommit) (h : exec i s = .next t) : ConfigKept s t := by
  obtain ⟨hact, hst⟩ := exec_act_statusEnd h
  exact ⟨hact hi, hst.kept.1 hi⟩

theorem execCfgCommit_configCommitted {s t : State} (h : exec .cfgCommit s = .next t) : ConfigCommitted s t := by
  cases hl : stagedLegal s.cfg with
  | true => rw [execCfgCommit_legal hl] at h; cases h; simp [ConfigCommitted, hl]
  | false => rw [execCfgCommit_illegal hl] at h; cases h; simp [ConfigCommitted, hl]

/-- The check of CFG_VALID is the first of every command but CFG_COMMIT (60_exceptions R223). -/
theorem failsWith_config {i : Instr} {s : State} (hi : i ≠ .cfgCommit) (hv : s.status.cfgValid = false) :
    FailsWith i s .config := by
  have hcheck : (!s.status.cfgValid) = true := by rw [hv]; rfl
  cases i
  case cfgCommit => exact absurd rfl hi
  all_goals exact if_pos hcheck

theorem writeReg_configKept (s : State) (r : Reg) (v : Word) : ConfigKept s (writeReg s r v) := by
  cases r <;> exact ⟨rfl, rfl⟩

theorem hostAct_configKept {op : HostOp} {s t : State} (hop : op ≠ .reset) (h : hostAct op s = .next t) :
    ConfigKept s t := by
  rcases hostAct_next h with ⟨_, _, rfl⟩ | ⟨r, v, _, rfl⟩ | ⟨_, _, _, _, rfl⟩ | ⟨_, _, _, rfl⟩ | ⟨hreset, _⟩
  · exact ⟨rfl, rfl⟩
  · exact writeReg_configKept s r v
  · exact ⟨rfl, rfl⟩
  · exact ⟨rfl, rfl⟩
  · exact absurd hreset hop

theorem engineStep_config {s t : State} (h : engineStep s = .next t) :
    ConfigKept s t ∨ decode s.cmd = .ok .cfgCommit ∧ ConfigCommitted s t := by
  rcases engineStep_cases s with ⟨_, _, he⟩ | ⟨i, hdec, he⟩
  · rw [he] at h; cases h; exact .inl ⟨rfl, rfl⟩
  · rw [he] at h
    by_cases hi : i = .cfgCommit
    · subst hi; exact .inr ⟨hdec, execCfgCommit_configCommitted h⟩
    · exact .inl (exec_configKept hi h)

/-- A step but a reset keeps ACT_* and CFG_VALID, or is the engine's on CFG_COMMIT. -/
theorem step_config {s t : State} (h : step s = .next t)
    (hreset : ¬ ((nextTurn s).1 = some .host ∧ s.hostOps.head? = some .reset)) :
    ConfigKept s t ∨ s.status.busy = true ∧ decode s.cmd = .ok .cfgCommit ∧ ConfigCommitted s t := by
  rcases step_cases s with ⟨_, _, hs⟩ | ⟨op, rest, ts, hops, hturn, hs⟩ | ⟨ts, hbusy, _, hs⟩ <;> rw [hs] at h
  · cases h; exact .inl ⟨rfl, rfl⟩
  · have hop : op ≠ .reset := by rintro rfl; exact hreset ⟨hturn, by rw [hops]; rfl⟩
    exact .inl (hostAct_configKept (s := { s with hostOps := rest, turns := ts }) hop h)
  · rcases engineStep_config h with hkept | ⟨hdec, hcommit⟩
    · exact .inl hkept
    · exact .inr ⟨hbusy, hdec, hcommit⟩

/-- Settles O14: the case split of a step into one that keeps the configuration and the engine's CFG_COMMIT. -/
theorem onlyCommitChangesTheConfiguration : Obligations.OnlyCommitChangesTheConfiguration := by
  refine ⟨fun i s hi hv => failsWith_config hi hv, fun s t h => (execCfgCommit_configCommitted h).2, ?_⟩
  intro s t h hreset
  rcases step_config h hreset with ⟨hact, hvalid⟩ | ⟨hbusy, hdec, hact, hvalid⟩
  · exact ⟨fun hne => absurd hact hne, fun hne => absurd hvalid hne⟩
  · refine ⟨fun hne => ?_, fun _ => ⟨hbusy, hdec, hvalid⟩⟩
    cases hl : stagedLegal s.cfg with
    | false => exact absurd (by simpa [hl] using hact) hne
    | true => exact ⟨hbusy, hdec, rfl, by simpa [hl] using hact, hvalid.trans hl⟩

end Sys2Proof.Machine
end

section
/-! SUPPORT. 20_memory R57: what the region check of a command means in addresses, and that it alone decides ERR_RANGE. -/

namespace Sys2Proof.Machine

/-! ## What the region check means -/

/-- Some address lies in both regions. -/
def Region.Meets (g h : Region) : Prop := ∃ a, g.has a = true ∧ h.has a = true

/-- A region that is not empty ends inside DMEM. -/
def Region.Fits (size : Nat) (g : Region) : Prop := ¬ (0 < g.len ∧ size < g.base + g.len)

theorem Region.inRange_iff_fits (size : Nat) (g : Region) : g.inRange size = true ↔ g.Fits size := by
  rw [Region.inRange_iff, Region.Fits, not_and, not_lt]

theorem Region.not_overlaps_iff (g h : Region) : (!g.overlaps h) = true ↔ ¬ g.Meets h := by
  rw [Bool.not_eq_true', ← Bool.not_eq_true, Region.overlaps_iff, Region.Meets]

/-- Part (c) of the check: the pairs that `apart` compares are those of `List.Pairwise`. -/
theorem apart_iff (gs : List Region) : apart gs = true ↔ gs.Pairwise fun g h => ¬ g.Meets h := by
  induction gs with
  | nil => simp [apart]
  | cons g gs ih => simp only [apart, Bool.and_eq_true, List.all_eq_true, Region.not_overlaps_iff, ih, List.pairwise_cons]

/-- The three parts of the check, in addresses. -/
theorem regionsLegal_iff (size : Nat) (ins outs : List Region) : regionsLegal size ins outs = true ↔
    ((∀ g ∈ ins ++ outs, g.Fits size) ∧ ∀ o ∈ outs, ∀ g ∈ ins, ¬ o.Meets g) ∧
      outs.Pairwise fun g h => ¬ g.Meets h := by
  simp only [regionsLegal, Bool.and_eq_true, List.all_eq_true, Region.inRange_iff_fits, Region.not_overlaps_iff, apart_iff]

/-- The check fails exactly if one of its three parts does. -/
theorem rangeOk_eq_false_iff (i : Instr) (s : State) : rangeOk i s = false ↔
    (∃ g ∈ inputRegions i s ++ outputRegions i s, 0 < g.len ∧ s.params.dmemSize < g.base + g.len) ∨
    (∃ o ∈ outputRegions i s, ∃ g ∈ inputRegions i s, o.Meets g) ∨
    ¬ (outputRegions i s).Pairwise fun g h => ¬ g.Meets h := by
  rw [← Bool.not_eq_true, rangeOk, regionsLegal_iff, not_and_or, not_and_or, or_assoc]
  simp only [Region.Fits, not_forall, not_not, exists_prop]

/-! ## What the region check decides -/

/-- The region check of every command comes after the other register checks and before its first read (60_exceptions
R223). -/
theorem failsWith_range {i : Instr} {s : State} (hi : i ≠ .cfgCommit) (hv : s.status.cfgValid = true)
    (ho : operandOk i s) (hc : capacityOk i s) (hd : domainOk i s) (hr : rangeOk i s = false) : FailsWith i s .range := by
  unfold FailsWith
  cases i
  case cfgCommit => exact absurd rfl hi
  case qIcount | qBps | qAnchor | qIsfiller | qTosymbol | plan => cases hr
  case bytes2bits => simp [exec, execBytes2bits, hv, hr]
  case bits2bytes => simp [exec, execBits2bytes, hv, hr]
  case fecEnc => simp [exec, execFecEnc, hv, hr]
  case bits2syms k => simp [exec, execBits2syms, hv, symbolWidth_legal (k := k) ho, hr]
  case syms2bits k auto => simp [exec, execSyms2bits, hv, symbolWidth_legal (k := k) ho, hr]
  case fecDec =>
    have hdom : ¬ (5 ≤ s.a1.toNat ∧ fecPayload s.act.ratio.toNat s.a1.toNat = 0) :=
      fun ⟨hlong, hnone⟩ => hd.elim hlong.not_gt fun hpos => hpos hnone
    simp only [exec, execFecDec, hv, hdom, hr]; rfl
  case layout ch =>
    have hch : legalCh ch := ho
    have hcap : ¬ pixelCount s < cdiv s.a1.toNat 3 := Nat.not_lt.2 hc
    simp [exec, execLayout, hv, hch, hcap, hr]
  case extract ch =>
    have hch : legalCh ch := ho
    simp [exec, execExtract, hv, hch, hr]

/-- A result that is no check's error but ERR_FORMAT: a fault, or a next state that has ended with that or none. -/
def EndsPastChecks (r : Result) : Prop := ∀ t, r = .next t → t.status.err = .none ∨ t.status.err = .format

theorem EndsPastChecks.completed (s : State) : EndsPastChecks (.next (s.finish .none)) := by
  rintro _ ⟨⟩; exact .inl rfl

theorem EndsPastChecks.badFormat (s : State) : EndsPastChecks (.next (s.finish .format)) := by
  rintro _ ⟨⟩; exact .inr rfl

theorem EndsPastChecks.fault (f : Fault) : EndsPastChecks (.fault f) := by
  rintro _ ⟨⟩

theorem EndsPastChecks.ite {c : Prop} [Decidable c] {r r' : Result} (h : EndsPastChecks r) (h' : EndsPastChecks r') :
    EndsPastChecks (if c then r else r') := by
  split <;> assumption

theorem EndsPastChecks.reads {s : State} {ps : List (Option Nat)} {k : List Byte → State → Result}
    (h : ∀ bs u, EndsPastChecks (k bs u)) : EndsPastChecks (withPlaces s ps k) := by
  intro t ht
  obtain ⟨bs, d, _, hk⟩ := withPlaces_next ht
  exact h bs _ t hk

/-- Past the register checks the check of the input format is the only one left (60_exceptions R223). -/
theorem exec_endsPastChecks {i : Instr} {s : State} (hi : i ≠ .cfgCommit) (hc : ChecksPass i s) :
    EndsPastChecks (exec i s) := by
  cases i
  case cfgCommit => exact absurd rfl hi
  case qIcount => rw [execQIcount_ready hc]; exact .completed _
  case qBps => rw [execQBps_ready hc]; exact .completed _
  case qAnchor => rw [execQAnchor_ready hc]; exact .completed _
  case qIsfiller => rw [execQIsfiller_ready hc]; exact .completed _
  case qTosymbol => rw [execQTosymbol_ready hc]; exact .completed _
  case plan => rw [execPlan_ready hc]; exact .completed _
  case bytes2bits => rw [execBytes2bits_ready hc]; exact .reads fun _ _ => .completed _
  case fecEnc => rw [execFecEnc_ready hc]; exact .reads fun _ _ => .completed _
  case extract ch => rw [execExtract_ready hc]; exact .reads fun _ _ => .completed _
  case fecDec => rw [execFecDec_ready hc]; exact .reads fun _ _ => .ite (.completed _) (.completed _)
  case bits2bytes => rw [execBits2bytes_ready hc]; exact .reads fun _ _ => .ite (.badFormat _) (.completed _)
  case bits2syms k => rw [execBits2syms_ready hc]; exact .reads fun _ _ => .ite (.badFormat _) (.completed _)
  case layout ch => rw [execLayout_ready hc]; exact .reads fun _ _ => .ite (.badFormat _) (.completed _)
  case syms2bits k auto =>
    rw [execSyms2bits_ready hc]
    split
    · exact .fault _
    · exact .completed _

/-- A command whose earlier checks pass ends with ERR_RANGE exactly if its region check fails (60_exceptions R226). -/
theorem failsWith_range_iff {i : Instr} {s : State} (hi : i ≠ .cfgCommit) (hv : s.status.cfgValid = true)
    (ho : operandOk i s) (hc : capacityOk i s) (hd : domainOk i s) : FailsWith i s .range ↔ rangeOk i s = false := by
  refine ⟨fun h => ?_, failsWith_range hi hv ho hc hd⟩
  by_contra hr
  rcases exec_endsPastChecks hi ⟨hv, ho, hc, hd, eq_true_of_ne_false hr⟩ _ h with herr | herr <;> cases herr

/-- Settles O24: the region check decides ERR_RANGE, and its three parts are those of 20_memory R57 in addresses. -/
theorem regionCheckMeansDisjoint : Obligations.RegionCheckMeansDisjoint :=
  fun i s hi hv ho hc hd => (failsWith_range_iff hi hv ho hc hd).trans (rangeOk_eq_false_iff i s)

end Sys2Proof.Machine
end

section
/-! SUPPORT. 41_quantization R100 and R106 to R110: CFG_COMMIT and the five queries. -/

namespace Sys2Proof.Machine

/-! ## The operand check -/

/-- The operand check is the first after that of CFG_VALID (60_exceptions R223, R225). -/
theorem failsWith_operand {i : Instr} {s : State} (hv : s.status.cfgValid = true) (ho : ¬ operandOk i s) :
    FailsWith i s .operand := by
  unfold FailsWith
  cases i <;> simp only [operandOk, not_true_eq_false, not_lt, not_le] at ho
  case qAnchor => simp [exec, execQAnchor, hv, State.scheme, ho]
  case qIsfiller => simp [exec, execQIsfiller, hv, ho]
  case qTosymbol => simp [exec, execQTosymbol, hv, ho]
  case plan => simp [exec, execPlan, hv, ho]
  case bits2syms k => simp [exec, execBits2syms, hv, symbolWidth_illegal (k := k) ho.not_ge]
  case syms2bits k auto => simp [exec, execSyms2bits, hv, symbolWidth_illegal (k := k) ho.not_ge]
  case layout ch => simp [exec, execLayout, hv, ho]
  case extract ch => simp [exec, execExtract, hv, ho]

/-! ## The staged configuration (R100) -/

theorem stagedLegal_eq_false_iff (c : Staged) : stagedLegal c = false ↔
    c.l = 0 ∨ c.filler = 255 ∨ c.minDim = 0 ∨ intervalCount c.l.toNat c.filler.toNat < 2 := by
  rw [← Bool.not_eq_true, stagedLegal_iff]
  simp only [not_and_or, ne_eq, not_not, not_le]

theorem floorLog2_spec {n : Nat} (hn : 1 ≤ n) : 2 ^ floorLog2 n ≤ n ∧ n < 2 ^ (floorLog2 n + 1) :=
  ⟨(le_floorLog2_iff hn).1 le_rfl, not_le.1 fun h => (Nat.lt_succ_self _).not_ge ((le_floorLog2_iff hn).2 h)⟩

/-- Settles O25: the two cases of validation, with the bounds of a committed configuration for the derived fields. -/
theorem commitValidatesAndActivates : Obligations.CommitValidatesAndActivates := by
  refine ⟨by decide, fun s => ⟨fun hvalid => ?_, fun hinvalid => ?_⟩⟩
  · have hlegal : stagedLegal s.cfg = true := (stagedLegal_iff s.cfg).2 hvalid
    obtain ⟨-, -, hcount, -, hicount, hbps⟩ := Active.Committed.bounds ⟨s.cfg, hlegal, rfl⟩
    obtain ⟨hlow, hhigh⟩ := floorLog2_spec (Nat.one_le_of_lt hcount)
    rw [← hbps] at hlow hhigh
    exact ⟨_, execCfgCommit_legal hlegal, rfl, rfl, rfl, rfl, rfl, rfl, hicount, hlow, hhigh⟩
  · have hillegal : stagedLegal s.cfg = false := (stagedLegal_eq_false_iff s.cfg).2 hinvalid
    exact ⟨_, execCfgCommit_illegal hillegal, rfl, fun i hi => failsWith_config hi rfl⟩

/-! ## The counts (R106, R107) -/

/-- Two intervals at least make at least one bit per symbol (R102). -/
theorem Active.Committed.one_le_bps {a : Active} (h : a.Committed) : 1 ≤ a.bps.toNat := by
  obtain ⟨-, -, hcount, -, -, hbps⟩ := h.bounds
  rw [hbps, le_floorLog2_iff (by omega)]
  exact hcount

/-- Settles O29: the active counts fit R0, and their bounds are those of a committed configuration. -/
theorem countQueriesReadTheConfiguration : Obligations.CountQueriesReadTheConfiguration := by
  refine ⟨by decide, by decide, fun s => ⟨fun hv => ⟨?_, ?_⟩, fun hc => ?_, fun hv => ⟨?_, ?_⟩⟩⟩
  · rw [execQIcount_ready ⟨hv, trivial, trivial, trivial, rfl⟩, State.scheme, toReg, BitVec.ofNat_toNat]; rfl
  · rw [execQBps_ready ⟨hv, trivial, trivial, trivial, rfl⟩, State.scheme, toReg, BitVec.ofNat_toNat]; rfl
  · obtain ⟨-, -, hcount, -⟩ := hc.bounds
    exact ⟨hcount, Nat.le_of_lt_succ s.act.icount.isLt, hc.one_le_bps, Nat.le_of_lt_succ s.act.bps.isLt⟩
  · exact failsWith_config (by decide) hv
  · exact failsWith_config (by decide) hv

/-! ## Intervals of a committed configuration (R101, R103, R105) -/

/-- Every interval starts inside the data range F+1 to 255. -/
theorem Active.Committed.start_le {a : Active} (h : a.Committed) {i : Nat} (hi : i < a.icount.toNat) :
    a.filler.toNat + 1 + i * a.l.toNat ≤ 255 := by
  obtain ⟨hl, hf, -, -, hicount, -⟩ := h.bounds
  have hstart : i * a.l.toNat < 255 - a.filler.toNat := by
    rw [hicount, intervalCount] at hi
    exact not_le.1 fun hcover => hi.not_ge ((cdiv_le_iff hl).2 hcover)
  omega

/-- The intervals cover the data range: the index of every byte in it is below the interval count. -/
theorem Active.Committed.index_lt {a : Active} (h : a.Committed) {v : Nat} (hv : v ≤ 255) :
    (v - (a.filler.toNat + 1)) / a.l.toNat < a.icount.toNat := by
  obtain ⟨hl, hf, -, -, hicount, -⟩ := h.bounds
  have hcover : 255 - a.filler.toNat ≤ a.icount.toNat * a.l.toNat := by
    rw [← cdiv_le_iff hl, hicount, intervalCount]
  rw [Nat.div_lt_iff_lt_mul hl]
  omega

/-- The anchor of an interval is a byte. -/
theorem anchor_le {s : State} (hc : s.act.Committed) {i : Nat} (hi : i < s.act.icount.toNat) :
    anchor s.scheme i ≤ 255 := by
  have hstart : s.scheme.f + 1 + i * s.scheme.l ≤ 255 := hc.start_le hi
  simp only [anchor]
  omega

/-- Settles O30: the anchor is a byte, so R0 holds it. -/
theorem anchorQueryGivesTheMidpoint : Obligations.AnchorQueryGivesTheMidpoint := by
  refine ⟨by decide, fun s hv => failsWith_config (by decide) hv, fun s hv hc => ⟨fun hi => ?_, fun hi => ?_⟩⟩
  · have hr0 := toReg_toNat (Nat.lt_of_le_of_lt (anchor_le hc hi) (by decide))
    exact ⟨_, _, _, execQAnchor_ready ⟨hv, hi, trivial, trivial, rfl⟩, rfl, rfl, rfl, hr0⟩
  · exact failsWith_operand hv hi.not_gt

/-! ## The class of a byte value (R104, R105, R109, R110) -/

theorem isFiller_iff (q : Scheme) (v : Nat) : isFiller q v = true ↔ v ≤ q.f := decide_eq_true_iff

/-- The clamp of R105 has no effect. -/
theorem toSymbol_eq {s : State} (hc : s.act.Committed) {v : Nat} (hv : v ≤ 255) :
    toSymbol s.scheme v = if v ≤ s.scheme.f then .filler else .data ((v - (s.scheme.f + 1)) / s.scheme.l) := by
  have hindex : (v - (s.scheme.f + 1)) / s.scheme.l ≤ s.scheme.icount - 1 := Nat.le_sub_one_of_lt (hc.index_lt hv)
  simp only [toSymbol, isFiller_iff, min_eq_left hindex]

theorem Symbol.code_data_toNat {i : Nat} (h : i < 256) : (Symbol.data i).code.toNat = i := by
  rw [Symbol.code, BitVec.toNat_ofNat, Nat.mod_eq_of_lt h]

theorem toSymbol_code_toNat {s : State} (hc : s.act.Committed) {v : Nat} (hv : v ≤ 255) :
    (toSymbol s.scheme v).code.toNat = if v ≤ s.scheme.f then 0xFF else (v - (s.scheme.f + 1)) / s.scheme.l := by
  rw [toSymbol_eq hc hv]
  split
  · rfl
  · exact Symbol.code_data_toNat ((hc.index_lt hv).trans s.act.icount.isLt)

/-- Settles O31: the two queries by their equations, a symbol code widened to R0. -/
theorem valueQueriesClassifyBytes : Obligations.ValueQueriesClassifyBytes := by
  refine ⟨⟨by decide, by decide⟩, fun s hv => ⟨failsWith_config (by decide) hv, failsWith_config (by decide) hv⟩,
    fun s hv hc => ⟨fun ha => ⟨?_, _, execQTosymbol_ready ⟨hv, ha, trivial, trivial, rfl⟩, rfl, ?_⟩, fun ha => ?_⟩⟩
  · rw [execQIsfiller_ready ⟨hv, ha, trivial, trivial, rfl⟩]
    simp only [isFiller_iff]
    rfl
  · exact (BitVec.toNat_setWidth_of_le (by decide)).trans (toSymbol_code_toNat hc ha)
  · exact ⟨failsWith_operand hv ha.not_ge, failsWith_operand hv ha.not_ge⟩

end Sys2Proof.Machine
end

section
/-! SUPPORT. 45_dimension_planner R190: PLAN, whose four results fit their registers. -/

namespace Sys2Proof.Machine

/-! ## The planner's arithmetic -/

/-- The rounded-up root is the least whose square covers: the digits leave a remainder exactly where the root is not exact. -/
theorem ceilSqrt_le_iff {p s : Nat} : ceilSqrt p ≤ s ↔ p ≤ s * s := by
  obtain ⟨hlow, hhigh⟩ := floorSqrt_spec (lt_four_pow_digits p)
  simp only [ceilSqrt]
  generalize floorSqrt (p.log2 / 2 + 1) p = r at *
  split
  case isTrue hexact => rw [← hexact, Nat.mul_self_le_mul_self_iff]
  case isFalse hrest =>
    refine ⟨fun h => hhigh.le.trans (Nat.mul_self_le_mul_self h), fun h => ?_⟩
    exact Nat.mul_self_lt_mul_self_iff.1 ((lt_of_le_of_ne hlow hrest).trans_le h)

theorem ceilSqrt_le_self (p : Nat) : ceilSqrt p ≤ p := ceilSqrt_le_iff.2 (Nat.le_mul_self p)

theorem cdiv_le_self {a b : Nat} (hb : 0 < b) : cdiv a b ≤ a := (cdiv_le_iff hb).2 (Nat.le_mul_of_pos_right a hb)

theorem pixelsNeeded_le_totalSymbols (bps n : Nat) : pixelsNeeded bps n ≤ totalSymbols bps n := cdiv_le_self (by decide)

/-- The limit 0x0FFF_FFFF on the count keeps 8n, hence the symbols and the pixels, below 2^31 (R190). -/
theorem totalSymbols_lt {bps n : Nat} (hbps : 1 ≤ bps) (hn : n ≤ 0x0FFFFFFF) : totalSymbols bps n < 2 ^ 32 := by
  have hle : totalSymbols bps n ≤ 8 * n := cdiv_le_self hbps
  omega

/-- Neither side of the grid is above both the pixels needed and the minimum. -/
theorem planGrid_sides_le {bps minDim : Nat} (n : Nat) (hmin : 1 ≤ minDim) :
    (planGrid bps minDim n).width ≤ max (pixelsNeeded bps n) minDim ∧
    (planGrid bps minDim n).height ≤ max (pixelsNeeded bps n) minDim :=
  ⟨max_le_max_right _ (ceilSqrt_le_self _), max_le_max_right _ (cdiv_le_self (hmin.trans (le_max_right _ _)))⟩

/-! ## The command -/

/-- Settles O49: PLAN by its equation, each of the four results below 2^32 under a committed configuration. -/
theorem planComputesTheGrid : Obligations.PlanComputesTheGrid := by
  refine ⟨by decide, fun s hv => failsWith_config (by decide) hv, ?_⟩
  rintro s _ _ _ _ hv hc rfl rfl rfl rfl
  refine ⟨fun hn => ?_, fun hn => failsWith_operand hv hn.not_ge⟩
  obtain ⟨-, -, -, hmin, -, -⟩ := hc.bounds
  have htotal := totalSymbols_lt hc.one_le_bps hn
  have hpixels := (pixelsNeeded_le_totalSymbols s.act.bps.toNat s.a0.toNat).trans_lt htotal
  have hside := max_lt hpixels s.act.minDim.isLt
  obtain ⟨hwidth, hheight⟩ := planGrid_sides_le (bps := s.act.bps.toNat) s.a0.toNat hmin
  exact ⟨_, execPlan_ready ⟨hv, hn, trivial, trivial, rfl⟩, rfl, toReg_toNat (hwidth.trans_lt hside),
    toReg_toNat (hheight.trans_lt hside), toReg_toNat htotal, toReg_toNat hpixels⟩

end Sys2Proof.Machine
end

section
/-! SUPPORT. 60_exceptions R223, R224 and R227: the order of a command's checks, what a failed command leaves, and where the
check of the input format fails. -/

namespace Sys2Proof.Machine

/-! ## The order of the checks (R223) -/

theorem engineStep_illegal {s : State} {r : IllegalWord} (h : decode s.cmd = .error r) :
    engineStep s = .next (s.finish .illegal) := by
  rcases engineStep_cases s with ⟨_, _, hs⟩ | ⟨i, hi, _⟩
  · exact hs
  · rw [h] at hi; cases hi

/-- LAYOUT alone has a capacity check, after that of its operand (R228). -/
theorem failsWith_capacity {i : Instr} {s : State} (hv : s.status.cfgValid = true) (ho : operandOk i s)
    (hc : ¬ capacityOk i s) : FailsWith i s .capacity := by
  cases i <;> simp only [capacityOk, not_true_eq_false, not_le] at hc
  case layout ch =>
    have hch : legalCh ch := ho
    simp [FailsWith, exec, execLayout, hv, hch, pixelCount, hc]

/-- FEC_DEC alone has a domain check, and neither of the two before it (R229). -/
theorem failsWith_domain {i : Instr} {s : State} (hv : s.status.cfgValid = true) (hd : ¬ domainOk i s) :
    FailsWith i s .domain := by
  cases i <;> simp only [domainOk, not_true_eq_false, not_or, not_lt, not_not] at hd
  case fecDec => simp [FailsWith, exec, execFecDec, hv, hd]

/-- Settles O22: one lemma per check, each with the checks before it passed. -/
theorem firstFailingCheckIsReported : Obligations.FirstFailingCheckIsReported := by
  refine ⟨fun _ _ => engineStep_illegal, fun _ => execCfgCommit_illegal, fun i s hi => ⟨failsWith_config hi, fun hv => ?_⟩⟩
  refine ⟨failsWith_operand hv, fun ho => ⟨failsWith_capacity hv ho, fun hc => ⟨failsWith_domain hv, fun hd => ?_⟩⟩⟩
  exact ⟨failsWith_range hi hv ho hc hd, fun hr => exec_endsPastChecks hi ⟨hv, ho, hc, hd, hr⟩⟩

/-! ## The end of a failed command (R224) -/

/-- What a failed command leaves: STATUS has changed as R224 says, and free values may have been drawn (assumption 5). -/
theorem Failure.eq {i : Instr} {s t : State} (h : Failure i s t) :
    t = { s with
      status := { s.status with busy := false, err := t.status.err,
                                cfgValid := if i = .cfgCommit then false else s.status.cfgValid }
      draws := t.draws } := by
  unfold Failure at h
  split at h
  next hi => obtain ⟨_, rfl⟩ := h; rw [if_pos hi]; rfl
  next hi => obtain ⟨e, d, _, rfl⟩ := h; rw [if_neg hi]; rfl

/-- Settles O19: a next state with an error is no completion, hence a failure. -/
theorem failedCommandsChangeOnlyStatus : Obligations.FailedCommandsChangeOnlyStatus := by
  refine ⟨fun i s t h herr => ?_, fun _ _ => engineStep_illegal⟩
  rcases exec_next h with hfail | ⟨_, hdone⟩
  · exact hfail.eq
  · exact absurd hdone.err herr

/-! ## The input formats (R227) -/

/-- The three commands that check the format of their input. -/
def ChecksFormat (i : Instr) : Prop := i = .bits2bytes ∨ (∃ k, i = .bits2syms k) ∨ ∃ ch, i = .layout ch

/-- Past the register checks a command without a check of its input's format can only fault or complete. -/
theorem exec_err_eq_none {i : Instr} {s t : State} (hf : ¬ ChecksFormat i) (hi : i ≠ .cfgCommit) (hc : ChecksPass i s)
    (h : exec i s = .next t) : t.status.err = .none := by
  cases i
  case cfgCommit => exact absurd rfl hi
  case bits2bytes => exact absurd (.inl rfl) hf
  case bits2syms k => exact absurd (.inr (.inl ⟨k, rfl⟩)) hf
  case layout ch => exact absurd (.inr (.inr ⟨ch, rfl⟩)) hf
  case qIcount => cases (execQIcount_ready hc).symm.trans h; rfl
  case qBps => cases (execQBps_ready hc).symm.trans h; rfl
  case qAnchor => cases (execQAnchor_ready hc).symm.trans h; rfl
  case qIsfiller => cases (execQIsfiller_ready hc).symm.trans h; rfl
  case qTosymbol => cases (execQTosymbol_ready hc).symm.trans h; rfl
  case plan => cases (execPlan_ready hc).symm.trans h; rfl
  case bytes2bits => obtain ⟨_, _, _, ⟨⟩⟩ := withPlaces_next ((execBytes2bits_ready hc).symm.trans h); rfl
  case fecEnc => obtain ⟨_, _, _, ⟨⟩⟩ := withPlaces_next ((execFecEnc_ready hc).symm.trans h); rfl
  case extract ch => obtain ⟨_, _, _, ⟨⟩⟩ := withPlaces_next ((execExtract_ready hc).symm.trans h); rfl
  case fecDec =>
    obtain ⟨_, _, _, hend⟩ := withPlaces_next ((execFecDec_ready hc).symm.trans h)
    split at hend <;> (cases hend; rfl)
  case syms2bits k auto =>
    rw [execSyms2bits_ready hc] at h
    split at h <;> cases h
    rfl

/-- ERR_FORMAT comes from a check of the input's format alone: not from CFG_COMMIT, nor from a register check. -/
theorem exec_err_ne_format {i : Instr} {s t : State} (hf : ¬ ChecksFormat i) (h : exec i s = .next t) :
    t.status.err ≠ .format := by
  by_cases hi : i = .cfgCommit
  · subst hi
    cases hl : stagedLegal s.cfg with
    | true => cases (execCfgCommit_legal hl).symm.trans h; simp
    | false => cases (execCfgCommit_illegal hl).symm.trans h; simp
  by_cases hc : ChecksPass i s
  · simp [exec_err_eq_none hf hi hc h]
  · obtain ⟨e, _, he, hstop⟩ := stopsEarly hi hc
    cases hstop.symm.trans h; exact he

/-- A check of input bytes that DMEM holds decides ERR_FORMAT: what passes it ends without an error. -/
theorem withPlaces_format_iff {s : State} {bs : List Byte} (hmem : s.dmem.Holds s.a0.toNat bs)
    (hlen : bs.length = s.a1.toNat) (bad : State → Byte → Bool) (out : List Byte → State → State) :
    (withPlaces s (places s.a0.toNat s.a1.toNat) fun bytes t =>
      if bytes.any (bad t) then .next (t.finish .format) else .next ((out bytes t).finish .none)) =
        .next (s.finish .format) ↔ bs.any (bad s) = true := by
  rw [← hlen, withPlaces_holds hmem]
  split
  next hbad => exact iff_of_true rfl hbad
  next hgood => exact iff_of_false (fun h => by cases congrArg (·.status.err) (Host.Outcome.next.inj h)) hgood

theorem any_badCell_iff {bits : List Byte} : bits.any badCell = true ↔ ∃ c ∈ bits, c ≠ 0 ∧ c ≠ 1 := by
  rw [← Bool.not_eq_false, any_badCell_eq_false]
  simp only [not_forall, not_or, exists_prop, ne_eq]

theorem codeOutOfRange_iff (ic : Nat) (c : Byte) : codeOutOfRange ic c = true ↔ ic ≤ c.toNat ∧ c.toNat ≤ 0xFE := by
  have hsentinel : c ≠ 0xFF ↔ c.toNat ≤ 0xFE := by bv_omega
  simp only [codeOutOfRange, Bool.and_eq_true, decide_eq_true_eq, bne_iff_ne, hsentinel]

/-- Settles O23: the three commands that check a format report what their check finds in the input, and no other command
has such a check. -/
theorem badInputEndsWithErrFormat : Obligations.BadInputEndsWithErrFormat := by
  refine ⟨fun i s t h₁ h₂ h₃ h => exec_err_ne_format ?_ h, fun i s bs hc hmem hlen => ⟨?_, ?_⟩⟩
  · rintro (rfl | ⟨k, rfl⟩ | ⟨ch, rfl⟩)
    exacts [h₁ rfl, h₂ k rfl, h₃ ch rfl]
  · rintro (rfl | ⟨k, rfl⟩)
    · rw [FailsWith, execBits2bytes_ready hc, ← any_badCell_iff]
      exact withPlaces_format_iff hmem hlen _ _
    · rw [FailsWith, execBits2syms_ready hc, ← any_badCell_iff]
      exact withPlaces_format_iff hmem hlen _ _
  · rintro ch rfl
    rw [FailsWith, execLayout_ready hc]
    refine (withPlaces_format_iff hmem hlen (fun t => codeOutOfRange t.scheme.icount) _).trans ?_
    simp only [List.any_eq_true, codeOutOfRange_iff]
    rfl

end Sys2Proof.Machine
end

section
/-! SUPPORT. 70_reset_and_hazards R250 and R258: the state after reset, and the host accesses that are faults. -/

namespace Sys2Proof.Machine

/-! ## The state after reset -/

/-- The reset values of 10_state R39: every register is 0, and CFG_SPCG is hard-wired to 3 (R26). -/
theorem readReg_resetWith (p : Params) (r : Reg) :
    readReg (State.resetWith p) r = if r = .cfgSpcg then 3 else 0 := by
  cases r
  case status => exact (by decide : State.reset.status.toWord = 0)
  all_goals rfl

/-! ## A host read inside DMEM of a byte that nothing has written -/

section
variable {s : State} {a : Nat} (hidle : s.status.busy = false) (hin : a < s.params.dmemSize) (hread : s.dmem.read a = none)
include hidle hin hread

theorem hostMemRead_unwritten_fault (hu : s.params.unwritten = .fault) : hostMemRead a s = .fault (.unwrittenRead a) := by
  simp [hostMemRead, readByte, hidle, hin, hread, hu]

theorem hostMemRead_unwritten_any (hu : s.params.unwritten = .any) :
    hostMemRead a s = .next ((s.setDraws (s.draws + 1)).reply (.mem (Config.freeByte s.draws))) := by
  simp [hostMemRead, readByte, hidle, hin, hread, hu]

end

/-- Settles O9: the register map at reset, and a read of unwritten DMEM under both values of UNWRITTEN_READ. -/
theorem resetRegistersAndMemory : Obligations.ResetRegistersAndMemory := by
  refine ⟨rfl, fun p => ⟨readReg_resetWith p, ⟨rfl, rfl, rfl, rfl, rfl, rfl, rfl⟩,
    fun a => ⟨rfl, fun hin hu => ?_, fun hin hu => ?_⟩⟩⟩
  · exact hostMemRead_unwritten_fault (s := State.resetWith p) rfl hin rfl hu
  · exact ⟨_, _, hostMemRead_unwritten_any (s := State.resetWith p) rfl hin rfl hu, rfl⟩

/-! ## The protocol violations -/

theorem Reg.offset_of_ofOffset {o : Nat} {r : Reg} (h : Reg.ofOffset o = some r) : r.offset = o :=
  beq_iff_eq.1 (List.find?_some (p := fun r : Reg => r.offset == o) h)

/-- An access that names no register: of another width, misaligned or outside the map (10_state R20). -/
theorem accessedReg_error {width offset : Nat} (h : width ≠ 32 ∨ offset % 4 ≠ 0 ∨ ∀ r : Reg, r.offset ≠ offset) :
    ∃ f, accessedReg width offset = .error f := by
  cases hacc : accessedReg width offset with
  | error f => exact ⟨f, rfl⟩
  | ok r =>
    obtain ⟨hwidth, haligned, hreg⟩ := accessedReg_ok.1 hacc
    obtain hw | ho | hmap := h
    exacts [absurd hwidth hw, absurd haligned ho, absurd (Reg.offset_of_ofOffset hreg) (hmap r)]

section
variable {s : State} {width offset a : Nat} {v : Word} {b : Byte}

theorem hostRegRead_fault {f : Fault} (h : accessedReg width offset = .error f) : hostRegRead width offset s = .fault f := by
  simp [hostRegRead, h]

theorem hostRegWrite_fault {f : Fault} (h : accessedReg width offset = .error f) :
    hostRegWrite width offset v s = .fault f := by
  simp [hostRegWrite, h]

/-- While BUSY = 1 a register write is a fault whether or not it names a register. -/
theorem hostRegWrite_busy (h : s.status.busy = true) : ∃ f, hostRegWrite width offset v s = .fault f := by
  cases hacc : accessedReg width offset with
  | error f => exact ⟨f, hostRegWrite_fault hacc⟩
  | ok r => exact ⟨.regWriteBusy, by simp [hostRegWrite, hacc, h]⟩

/-- A DMEM access is a fault while BUSY = 1 or past DMEM's end. -/
theorem hostMem_fault (h : s.status.busy = true ∨ s.params.dmemSize ≤ a) :
    (∃ f, hostMemRead a s = .fault f) ∧ ∃ f, hostMemWrite a b s = .fault f := by
  cases hb : s.status.busy with
  | true => exact ⟨⟨.dmemBusy, by simp [hostMemRead, hb]⟩, .dmemBusy, by simp [hostMemWrite, hb]⟩
  | false =>
    have hout : s.params.dmemSize ≤ a := h.resolve_left (by simp [hb])
    exact ⟨⟨.dmemOutOfRange a, by simp [hostMemRead, hb, hout]⟩, .dmemOutOfRange a, by simp [hostMemWrite, hb, hout]⟩

end

/-- Settles O57: an access that names no register, a write while BUSY = 1, and a DMEM access that is not allowed. -/
theorem protocolViolationsFault : Obligations.ProtocolViolationsFault := by
  refine fun s width offset a v b => ⟨fun hreg => ?_, fun hbusy => ?_, fun hout => hostMem_fault (.inr hout)⟩
  · obtain ⟨f, hf⟩ := accessedReg_error hreg
    exact ⟨⟨f, hostRegRead_fault hf⟩, f, hostRegWrite_fault hf⟩
  · exact ⟨hostRegWrite_busy hbusy, hostMem_fault (.inl hbusy)⟩

end Sys2Proof.Machine
end

section
/-! SUPPORT. 30_encoding R70 to R77: which words decode, to which command, and which row of the opcode table they match. -/

namespace Sys2Proof

/-! ## What a decoded word is -/

/-- A word decodes where its opcode is assigned, its reserved bits are 0 and so is every field the command does not decode
(30_encoding R75). -/
theorem decode_eq_ok_iff {w : Word} {i : Instr} : decode w = .ok i ↔
    decodeOp w = some i ∧ fieldReserved w = 0 ∧ (i.decodesK = false → fieldK w = 0) ∧
      (i.decodesCh = false → fieldCh w = 0) ∧ (i.decodesAuto = false → fieldAuto w = false) := by
  unfold decode
  cases decodeOp w with
  | none => simp
  | some j =>
    by_cases hji : j = i
    · subst hji
      dsimp only
      split_ifs <;> grind
    · dsimp only
      split_ifs <;> simp [hji]

/-- Where the opcode is assigned, the remaining reasons for a refusal are cases (b) to (e) of R75. -/
theorem decode_eq_error_iff {w : Word} {i : Instr} (h : decodeOp w = some i) : (∃ r, decode w = .error r) ↔
    fieldReserved w ≠ 0 ∨ (fieldK w ≠ 0 ∧ i.decodesK = false) ∨ (fieldCh w ≠ 0 ∧ i.decodesCh = false) ∨
      (fieldAuto w = true ∧ i.decodesAuto = false) := by
  simp only [decode, h]
  split_ifs <;> simp_all

/-- The word of a command carries its opcode, and 0 in the reserved bits and in every field it does not decode. -/
theorem encode_fields (i : Instr) : fieldOp (encode i) = i.opcode ∧ fieldReserved (encode i) = 0 ∧
    (i.decodesK = false → fieldK (encode i) = 0) ∧ (i.decodesCh = false → fieldCh (encode i) = 0) ∧
    (i.decodesAuto = false → fieldAuto (encode i) = false) := by
  cases i <;> simp [encode, Instr.decodesK, Instr.decodesCh, Instr.decodesAuto, fieldOp_packWord, fieldReserved_packWord,
    fieldK_packWord, fieldCh_packWord, fieldAuto_packWord]

/-- The opcode of a command's word selects the command, and its fields give the command's own back. -/
theorem decodeOp_encode (i : Instr) : decodeOp (encode i) = some i := by
  cases i <;> simp [decodeOp, encode, Instr.opcode, fieldOp_packWord, fieldK_packWord, fieldCh_packWord, fieldAuto_packWord]

theorem decode_encode (i : Instr) : decode (encode i) = .ok i :=
  decode_eq_ok_iff.2 ⟨decodeOp_encode i, (encode_fields i).2⟩

/-- A command decoded from a word has that word: the word is packed from its fields, those not decoded being 0. -/
theorem encode_of_decode {w : Word} {i : Instr} (h : decode w = .ok i) : encode i = w := by
  obtain ⟨hop, hreserved, hk, hch, hauto⟩ := decode_eq_ok_iff.1 h
  obtain ⟨hopcode, hi⟩ := decodeOp_cases hop
  rw [← packWord_fields hreserved, ← hopcode]
  simp only [List.mem_cons, List.not_mem_nil, or_false] at hi
  rcases hi with rfl | rfl | rfl | rfl | rfl | rfl | rfl | rfl | rfl | rfl | rfl | rfl | rfl | rfl | rfl <;>
    simp_all [encode, Instr.decodesK, Instr.decodesCh, Instr.decodesAuto]

/-- Settles O1: decoding a command's word gives it back, and a decoded word is packed from the command's fields. -/
theorem decodeInvertsEncode : Obligations.DecodeInvertsEncode :=
  fun _ i => ⟨encode_of_decode, fun h => h ▸ decode_encode i⟩

/-! ## The illegal words (R75) -/

/-- The opcodes that decode K, CH and AUTO (R72 to R74). -/
theorem decodes_iff_opcode (i : Instr) : (i.decodesK = false ↔ i.opcode ≠ 0x22 ∧ i.opcode ≠ 0x23) ∧
    (i.decodesCh = false ↔ i.opcode ≠ 0x40 ∧ i.opcode ≠ 0x41) ∧ (i.decodesAuto = false ↔ i.opcode ≠ 0x23) := by
  cases i <;> simp [Instr.decodesK, Instr.decodesCh, Instr.decodesAuto, Instr.opcode]

/-- Settles O2: a word without an assigned opcode is refused, and for the others the decoder's four tests, with each
"does not decode the field" read as a set of opcodes. -/
theorem illegalWordsEndWithErrIllegal : Obligations.IllegalWordsEndWithErrIllegal := by
  refine ⟨fun w => ?_, fun _ _ => Machine.engineStep_illegal⟩
  cases hop : decodeOp w with
  | none => exact iff_of_true ⟨.unassignedOp, by simp [decode, hop]⟩ (.inl (decodeOp_eq_none.1 hop))
  | some i =>
    have hassigned := mt decodeOp_eq_none.2 (by simp [hop] : decodeOp w ≠ none)
    obtain ⟨hopcode, -⟩ := decodeOp_cases hop
    obtain ⟨hk, hch, hauto⟩ := decodes_iff_opcode i
    rw [decode_eq_error_iff hop, hk, hch, hauto, hopcode]
    exact (or_iff_right hassigned).symm

/-! ## The rows of the opcode table (R77) -/

theorem encode_matches_tableRow (i : Instr) : encode i &&& i.tableRow.1 = i.tableRow.2 := by
  cases i
  case cfgCommit => exact Laws.TableRow.cfgCommit
  case qIcount => exact Laws.TableRow.qIcount
  case qBps => exact Laws.TableRow.qBps
  case qAnchor => exact Laws.TableRow.qAnchor
  case qIsfiller => exact Laws.TableRow.qIsfiller
  case qTosymbol => exact Laws.TableRow.qTosymbol
  case bytes2bits => exact Laws.TableRow.bytes2bits
  case bits2bytes => exact Laws.TableRow.bits2bytes
  case bits2syms k => exact Laws.TableRow.bits2syms k
  case syms2bits k auto => exact Laws.TableRow.syms2bits k auto
  case fecEnc => exact Laws.TableRow.fecEnc
  case fecDec => exact Laws.TableRow.fecDec
  case layout ch => exact Laws.TableRow.layout ch
  case extract ch => exact Laws.TableRow.extract ch
  case plan => exact Laws.TableRow.plan

/-- A word that matches a row has the row's opcode, and 0 in every bit that the row's command does not decode. -/
theorem fields_of_matches {w : Word} {i : Instr} (h : w &&& i.tableRow.1 = i.tableRow.2) :
    fieldOp w = i.opcode ∧ fieldReserved w = 0 ∧ (i.decodesK = false → fieldK w = 0) ∧
      (i.decodesCh = false → fieldCh w = 0) ∧ (i.decodesAuto = false → fieldAuto w = false) := by
  obtain ⟨hop, hreserved, hk, hch, hauto⟩ := field_and w i.tableRow.1
  obtain ⟨⟨hop₁, hop₂⟩, ⟨hres₁, hres₂⟩, ⟨hk₁, hk₂⟩, ⟨hch₁, hch₂⟩, hauto₁, hauto₂⟩ := tableRow_fields i
  have keep₈ : ∀ x : BitVec 8, x &&& 0xFF = x := fun x => BitVec.and_allOnes
  have keep₁₅ : ∀ x : BitVec 15, x &&& 0x7FFF = x := fun x => BitVec.and_allOnes
  have keep₄ : ∀ x : BitVec 4, x &&& 0xF = x := fun x => BitVec.and_allOnes
  rw [h] at hop hreserved hk hch hauto
  rw [hop₁, hop₂, keep₈] at hop
  rw [hres₁, hres₂, keep₁₅] at hreserved
  refine ⟨hop.symm, hreserved.symm, fun hi => ?_, fun hi => ?_, fun hi => ?_⟩
  · rw [hk₁, hk₂, hi, if_neg Bool.false_ne_true, keep₄] at hk; exact hk.symm
  · rw [hch₁, hch₂, hi, if_neg Bool.false_ne_true, keep₄] at hch; exact hch.symm
  · rw [hauto₁, hauto₂, hi, Bool.not_false, Bool.and_true] at hauto; exact hauto.symm

/-- A word with a command's opcode selects a command of the same row, which decodes the same fields. -/
theorem exists_decodeOp {w : Word} {i : Instr} (h : fieldOp w = i.opcode) : ∃ j, decodeOp w = some j ∧
    j.tableRow = i.tableRow ∧ j.decodesK = i.decodesK ∧ j.decodesCh = i.decodesCh ∧ j.decodesAuto = i.decodesAuto := by
  cases i <;> (refine ⟨_, by rw [decodeOp, h]; rfl, ?_⟩; exact ⟨rfl, rfl, rfl, rfl⟩)

/-- Settles O3: a row fixes the opcode of the words that match it, and the opcode the row. -/
theorem tableRowsSelectCommands : Obligations.TableRowsSelectCommands := by
  refine fun w => ⟨fun i h => encode_of_decode h ▸ encode_matches_tableRow i, fun i h => ?_, fun i j hi hj => ?_⟩
  · obtain ⟨hop, hreserved, hfields⟩ := fields_of_matches h
    obtain ⟨j, hj, hrow, hk, hch, hauto⟩ := exists_decodeOp hop
    rw [← hk, ← hch, ← hauto] at hfields
    exact ⟨j, decode_eq_ok_iff.2 ⟨hj, hreserved, hfields⟩, hrow⟩
  · obtain ⟨_, hdecode, hrow, -⟩ := exists_decodeOp (fields_of_matches hi).1
    obtain ⟨_, hdecode', hrow', -⟩ := exists_decodeOp (fields_of_matches hj).1
    cases hdecode.symm.trans hdecode'
    exact hrow.symm.trans hrow'

/-- Settles O4: thirteen closed words, decoded. -/
theorem wordsFromTheSpecDecode : Obligations.WordsFromTheSpecDecode := by
  refine ⟨?_, ?_, ?_, ?_, ?_, ?_, ?_, ?_, ?_, ?_, ?_, ?_, ?_⟩ <;> decide

end Sys2Proof
end

section
/-! SUPPORT. 10_state R27 to R31: the registers that a command cannot write, and the result registers it can. -/

namespace Sys2Proof.Machine

/-! ## The frame of a command -/

/-- What no command writes: CMD, the operand and staged registers, the parameters and the host's own fields. Every command
clears BUSY. -/
structure CommandFrame (s t : State) : Prop where
  cmd : t.cmd = s.cmd
  a0 : t.a0 = s.a0
  a1 : t.a1 = s.a1
  a2 : t.a2 = s.a2
  a3 : t.a3 = s.a3
  a4 : t.a4 = s.a4
  cfg : t.cfg = s.cfg
  params : t.params = s.params
  hostOps : t.hostOps = s.hostOps
  turns : t.turns = s.turns
  replies : t.replies = s.replies
  busy : t.status.busy = false

/-- The result registers as 30_encoding R71's table lists them: R0 for every command but CFG_COMMIT, R1 for FEC_DEC and PLAN,
R2 and R3 for PLAN. -/
def ResultsAsListed (i : Instr) (s t : State) : Prop :=
  (i = .cfgCommit → t.r0 = s.r0) ∧ (i ≠ .fecDec → i ≠ .plan → t.r1 = s.r1) ∧ (i ≠ .plan → t.r2 = s.r2 ∧ t.r3 = s.r3)

theorem Failure.frame {i : Instr} {s t : State} (h : Failure i s t) :
    CommandFrame s t ∧ t.r0 = s.r0 ∧ t.r1 = s.r1 ∧ t.r2 = s.r2 ∧ t.r3 = s.r3 := by
  rw [h.eq]
  exact ⟨by constructor <;> rfl, rfl, rfl, rfl, rfl⟩

theorem Completion.frame {i : Instr} {s t : State} (h : Completion i s t) :
    CommandFrame s t ∧ ResultsAsListed i s t := by
  cases i <;> simp only [Completion] at h
  case cfgCommit => obtain ⟨_, rfl⟩ := h; exact ⟨by constructor <;> simp, by simp [ResultsAsListed]⟩
  case syms2bits k auto =>
    obtain ⟨bits, d, _, rfl⟩ := h
    generalize expectedBits s auto = e
    obtain ⟨_, hshort, -⟩ := State.flagShort_frame
      (((s.setDraws d).store s.a2.toNat (keptBits e bits)).setR0 (toReg (keptBits e bits).length)) e bits.length
    rw [hshort]; exact ⟨by constructor <;> simp, by simp [ResultsAsListed]⟩
  case fecDec =>
    obtain ⟨_, _, _, h⟩ := h
    split at h
    · rw [fecCopy, complete_eq] at h; cases h
      exact ⟨by constructor <;> simp, by simp [ResultsAsListed]⟩
    · obtain ⟨_, _, _, _, _, rfl⟩ := fecRepair_next h
      exact ⟨by constructor <;> simp, by simp [ResultsAsListed]⟩
  case layout ch =>
    obtain ⟨syms, d, _, _, rfl⟩ := h
    obtain ⟨_, _, hcount⟩ := State.setCount_frame
      ((s.setDraws d).store s.a2.toNat (layoutBytes s.scheme ch.toNat (pixelCount s) syms)) (pixelCount s * ch.toNat)
    rw [hcount]; exact ⟨by constructor <;> simp, by simp [ResultsAsListed]⟩
  case bytes2bits | fecEnc | extract =>
    obtain ⟨_, _, _, rfl⟩ := h; exact ⟨by constructor <;> simp, by simp [ResultsAsListed]⟩
  case bits2bytes | bits2syms =>
    obtain ⟨_, _, _, _, rfl⟩ := h; exact ⟨by constructor <;> simp, by simp [ResultsAsListed]⟩
  all_goals (subst h; exact ⟨by constructor <;> simp, by simp [ResultsAsListed]⟩)

theorem exec_frame {i : Instr} {s t : State} (h : exec i s = .next t) : CommandFrame s t := by
  rcases exec_next h with hfail | ⟨_, hdone⟩
  · exact hfail.frame.1
  · exact hdone.frame.1

/-- Settles O15: the frame of every command, and that only CFG_COMMIT writes the configuration. -/
theorem commandsLeaveHostRegisters : Obligations.CommandsLeaveHostRegisters := by
  intro i s t h
  obtain ⟨hcmd, h₀, h₁, h₂, h₃, h₄, hcfg, hparams, hops, hturns, hreplies, hbusy⟩ := exec_frame h
  exact ⟨hcmd, h₀, h₁, h₂, h₃, h₄, hcfg, hparams, hops, hturns, hreplies, hbusy, fun hi => exec_configKept hi h⟩

/-- Settles O16: a failure writes no result register, and a completion those its rule lists. -/
theorem resultRegistersWrittenOnlyAsListed : Obligations.ResultRegistersWrittenOnlyAsListed := by
  intro i s t h
  rcases exec_next h with hfail | ⟨_, hdone⟩
  · obtain ⟨-, h₀, h₁, h₂, h₃⟩ := hfail.frame
    exact ⟨fun _ => ⟨h₀, h₁, h₂, h₃⟩, fun _ => h₀, fun _ _ => h₁, fun _ => ⟨h₂, h₃⟩⟩
  · exact ⟨fun herr => absurd hdone.err herr, hdone.frame.2⟩

end Sys2Proof.Machine
end

section
/-! SUPPORT. 70_reset_and_hazards R253 to R256: whose step it is, a host that waits, and the invariant that every step
keeps. -/

namespace Sys2Proof.Machine

/-! ## Whose step it is -/

theorem engineStep_legal {s : State} {i : Instr} (h : decode s.cmd = .ok i) : engineStep s = exec i s := by
  simp [engineStep, h]

section
variable {s : State} {op : HostOp} {rest : List HostOp} {ts : List Agent}

/-- The host moves while the block is idle. -/
theorem step_host_idle (hops : s.hostOps = op :: rest) (hidle : s.status.busy = false) :
    step s = hostAct op { s with hostOps := rest } := by
  simp [step, nextTurn, hidle, hops, hostStep]

/-- The host moves on its own turns while the engine is delayed. -/
theorem step_host_turn (hops : s.hostOps = op :: rest) (hbusy : s.status.busy = true) (hturns : s.turns = .host :: ts) :
    step s = hostAct op { s with hostOps := rest, turns := ts } := by
  simp [step, nextTurn, hbusy, hops, hturns, hostStep]

/-- The engine moves where the host cannot or has no turn left. -/
theorem step_engine_free (hbusy : s.status.busy = true) (hfree : s.hostOps = [] ∨ s.turns = []) :
    step s = engineStep s := by
  cases hops : s.hostOps with
  | nil => simp [step, nextTurn, hbusy, hops]
  | cons op rest =>
    have hturns : s.turns = [] := hfree.resolve_left (by simp [hops])
    simp [step, nextTurn, hbusy, hops, hturns]

/-- The engine moves on its own turns. -/
theorem step_engine_turn (hbusy : s.status.busy = true) (hops : s.hostOps ≠ []) (hturns : s.turns = .engine :: ts) :
    step s = engineStep { s with turns := ts } := by
  obtain ⟨op, rest, hops⟩ := List.exists_cons_of_ne_nil hops
  simp [step, nextTurn, hbusy, hops, hturns]

end

/-- Settles O5: the engine's step is the latched command's execution. -/
theorem stepRunsTheLatchedCommand : Obligations.StepRunsTheLatchedCommand := fun _ _ hbusy hdecode =>
  ⟨fun hfree => (step_engine_free hbusy hfree).trans (engineStep_legal hdecode),
    fun _ hops hturns => (step_engine_turn hbusy hops hturns).trans (engineStep_legal hdecode)⟩

/-- Settles O6: the two ways in which the host is the one to move. -/
theorem hostActsInProgramOrder : Obligations.HostActsInProgramOrder := fun _ _ _ hops =>
  ⟨step_host_idle hops, fun _ => step_host_turn hops⟩

/-- Settles O7: neither agent is enabled. -/
theorem endedRunStays : Obligations.EndedRunStays := by
  rintro s ⟨hops, hidle⟩
  simp [step, nextTurn, hops, hidle]

/-! ## A host that waits (30_encoding R79) -/

/-- What an engine's step leaves alone, an illegal word included. -/
theorem engineStep_frame {s t : State} (h : engineStep s = .next t) : CommandFrame s t := by
  rcases engineStep_cases s with ⟨_, _, hs⟩ | ⟨_, _, hs⟩ <;> rw [hs] at h
  · cases h; constructor <;> rfl
  · exact exec_frame h

/-- A poll with BUSY = 0 ends the wait. -/
theorem step_poll_idle {s : State} {rest : List HostOp} (hops : s.hostOps = .wait :: rest)
    (hidle : s.status.busy = false) :
    step s = .next { s with hostOps := rest, replies := s.replies ++ [.reg s.status.toWord] } := by
  rw [step_host_idle hops hidle]
  simp [hostAct, hostWait, State.reply, hidle]

/-- A poll with BUSY = 1 uses up a turn of the host and keeps it waiting. -/
theorem step_poll_busy {s : State} {rest : List HostOp} {ts : List Agent} (hops : s.hostOps = .wait :: rest)
    (hbusy : s.status.busy = true) (hturns : s.turns = .host :: ts) :
    step s = .next { s with replies := s.replies ++ [.reg s.status.toWord], turns := ts } := by
  rw [step_host_turn hops hbusy hturns]
  simp [hostAct, hostWait, State.reply, hbusy, hops]

/-- The state after k polls of a busy block: k replies with the unchanged STATUS, and k turns and the engine's own used up. -/
def State.polled (s : State) (k : Nat) : State :=
  { s with replies := s.replies ++ List.replicate k (.reg s.status.toWord), turns := s.turns.drop (k + 1) }

/-- The polls that come before the engine's step are the turns up to the engine's first, or all. -/
theorem polls_until_engine {s : State} {rest : List HostOp} (hops : s.hostOps = .wait :: rest)
    (hbusy : s.status.busy = true) : ∃ (k : Nat) (u : State), k ≤ s.turns.length ∧
      Host.Core.run Sys2Proof.core k s = .next u ∧ step u = engineStep (s.polled k) := by
  generalize hts : s.turns = ts
  induction ts generalizing s with
  | nil =>
    have hpolled : s.polled 0 = s := by
      simp only [State.polled, hts, List.replicate_zero, List.append_nil, List.drop_nil]
      rw [← hts]
    exact ⟨0, s, Nat.le_refl _, rfl, by rw [hpolled, step_engine_free hbusy (.inr hts)]⟩
  | cons agent ts ih =>
    cases agent with
    | engine =>
      refine ⟨0, s, Nat.zero_le _, rfl, ?_⟩
      rw [step_engine_turn hbusy (by simp [hops]) hts]
      simp [State.polled, hts]
    | host =>
      have hpoll := step_poll_busy hops hbusy hts
      obtain ⟨k, u, hk, hrun, hstep⟩ := ih (s := { s with replies := s.replies ++ [.reg s.status.toWord], turns := ts })
        hops hbusy rfl
      refine ⟨k + 1, u, Nat.succ_le_succ hk, (run_succ hpoll).trans hrun, hstep.trans ?_⟩
      simp [State.polled, hts, List.replicate_succ]

/-- Settles O8: the polls before the engine's step, then the poll that sees BUSY = 0. -/
theorem waitEndsWithTheEngineStep : Obligations.WaitEndsWithTheEngineStep := by
  refine fun s rest hops => ⟨fun hbusy => ?_, step_poll_idle hops⟩
  obtain ⟨k, u, hk, hrun, hstep⟩ := polls_until_engine hops hbusy
  refine ⟨k, u, hk, hrun, hstep, fun t ht => ?_⟩
  have hframe := engineStep_frame (hstep.symm.trans ht)
  exact ⟨hframe.busy, step_poll_idle (hframe.hostOps.trans hops) hframe.busy⟩

/-! ## Reset (R250, R251) -/

/-- The registers after the reset signal are those after reset, whatever the host's own fields. -/
theorem readReg_resetSignal (s : State) (r : Reg) : readReg s.resetSignal r = if r = .cfgSpcg then 3 else 0 := by
  rw [← readReg_resetWith s.params r]
  cases r <;> rfl

/-- Settles O10: the host's step is the reset signal. -/
theorem resetDiscardsTheCommand : Obligations.ResetDiscardsTheCommand := by
  intro s rest ts hops hturn
  have hstep : ∃ ts', step s = .next (State.resetSignal { s with hostOps := rest, turns := ts' }) := by
    cases hbusy : s.status.busy with
    | false => exact ⟨s.turns, step_host_idle hops hbusy⟩
    | true => exact ⟨ts, step_host_turn hops hbusy (hturn.resolve_left (by simp [hbusy]))⟩
  obtain ⟨ts', hstep⟩ := hstep
  exact ⟨_, hstep, readReg_resetSignal _, fun _ => rfl, rfl, rfl⟩

theorem Status.Inv.of_flagsClear {st : Status} (hbusy : st.busy = false) (hflags : st.FlagsClear) : st.Inv :=
  ⟨fun h => absurd h (by simp [hbusy]), fun _ => hflags⟩

/-- Settles O11: DMEM lists nothing, ACT_* hold the reset values and STATUS is 0. -/
theorem resetMeetsTheInvariant : Obligations.ResetMeetsTheInvariant := fun _ hlegal =>
  ⟨hlegal, ⟨List.Pairwise.nil, fun _ hc => nomatch hc⟩, ⟨.inl rfl, nofun⟩, .of_flagsClear rfl ⟨rfl, rfl, rfl, rfl⟩⟩

/-! ## The parameters (00_scope R8) -/

theorem hostAct_params {op : HostOp} {s t : State} (h : hostAct op s = .next t) : t.params = s.params := by
  rcases hostAct_next h with ⟨_, _, rfl⟩ | ⟨r, v, _, rfl⟩ | ⟨_, _, _, _, rfl⟩ | ⟨_, _, _, rfl⟩ | ⟨_, rfl⟩
  case inr.inl => cases r <;> rfl
  all_goals rfl

theorem step_params {s t : State} (h : step s = .next t) : t.params = s.params := by
  rcases step_cases s with ⟨_, _, hs⟩ | ⟨_, rest, ts, _, _, hs⟩ | ⟨_, _, _, hs⟩ <;> rw [hs] at h
  · cases h; rfl
  · exact hostAct_params (s := { s with hostOps := rest, turns := ts }) h
  · exact (engineStep_frame h).params

/-- Settles O13: neither the host's interactions nor the engine's step write the parameters. -/
theorem parametersNeverChange : Obligations.ParametersNeverChange := fun _ _ => step_params

/-! ## The invariant -/

theorem ConfigKept.configInv {s t : State} (h : ConfigKept s t) (hs : s.ConfigInv) : t.ConfigInv := by
  rw [State.ConfigInv, h.1, h.2]; exact hs

/-- CFG_COMMIT leaves the active configuration as it was, with CFG_VALID = 0, or a committed one. -/
theorem ConfigCommitted.configInv {s t : State} (h : ConfigCommitted s t) (hs : s.ConfigInv) : t.ConfigInv := by
  obtain ⟨hact, hvalid⟩ := h
  cases hl : stagedLegal s.cfg with
  | false => rw [State.ConfigInv, hact, hvalid, hl]; exact ⟨hs.1, nofun⟩
  | true =>
    rw [hl, if_pos rfl] at hact
    have hcommitted : t.act.Committed := ⟨s.cfg, hl, hact⟩
    exact ⟨.inr hcommitted, fun _ => hcommitted⟩

/-- The flags that a failing command leaves are those its CMD write cleared (R33, R224). -/
theorem exec_statusInv {i : Instr} {s t : State} (hflags : s.status.FlagsClear) (h : exec i s = .next t) : t.status.Inv := by
  rcases exec_next h with hfail | ⟨_, hdone⟩
  · exact .of_flagsClear (exec_frame h).busy (by rw [hfail.eq]; exact hflags)
  · exact ⟨fun hb => absurd hb (by simp [(exec_frame h).busy]), fun herr => absurd hdone.err herr⟩

/-- The engine's step keeps each part of the invariant: DMEM by the region check, the configuration by CFG_COMMIT's validation,
STATUS because a busy block has its flags at 0. -/
theorem engineStep_inv {s t : State} (hs : s.Inv) (hbusy : s.status.busy = true) (h : engineStep s = .next t) : t.Inv := by
  obtain ⟨hlegal, hmem, hconfig, hstatus⟩ := hs
  obtain ⟨-, hflags⟩ := hstatus.1 hbusy
  have hframe := engineStep_frame h
  refine ⟨hframe.params ▸ hlegal, ?_, ?_, ?_⟩
  · rcases engineStep_cases s with ⟨_, _, hs⟩ | ⟨_, _, hs⟩ <;> rw [hs] at h
    · cases h; exact hmem
    · exact (exec_stores h).memoryInv hframe.params hmem
  · rcases engineStep_config h with hkept | ⟨_, hcommitted⟩
    · exact hkept.configInv hconfig
    · exact hcommitted.configInv hconfig
  · rcases engineStep_cases s with ⟨_, _, hs⟩ | ⟨_, _, hs⟩ <;> rw [hs] at h
    · cases h; exact .of_flagsClear rfl hflags
    · exact exec_statusInv hflags h

/-- A register write changes neither DMEM nor ACT_*; a CMD write clears the flags as it sets BUSY (10_state R33). -/
theorem writeReg_inv {s : State} (hs : s.Inv) (r : Reg) (v : Word) : (writeReg s r v).Inv := by
  cases r
  case cmd =>
    obtain ⟨hlegal, hmem, hconfig, -⟩ := hs
    have hflags : s.status.started.FlagsClear := ⟨rfl, rfl, rfl, rfl⟩
    exact ⟨hlegal, hmem, hconfig, fun _ => ⟨rfl, hflags⟩, fun _ => hflags⟩
  all_goals exact hs

/-- A host interaction keeps the invariant: a DMEM write stays inside DMEM, and a reset starts anew. -/
theorem hostAct_inv {op : HostOp} {s t : State} (hs : s.Inv) (h : hostAct op s = .next t) : t.Inv := by
  rcases hostAct_next h with ⟨_, _, rfl⟩ | ⟨r, v, _, rfl⟩ | ⟨a, b, _, hin, rfl⟩ | ⟨_, _, _, rfl⟩ | ⟨_, rfl⟩
  · exact hs
  · exact writeReg_inv hs r v
  · obtain ⟨hlegal, ⟨hwf, hbelow⟩, hrest⟩ := hs
    refine ⟨hlegal, ⟨Memory.write_wf hwf a b, fun c hc => ?_⟩, hrest⟩
    rcases Memory.mem_write hc with rfl | hc
    · exact hin
    · exact hbelow c hc
  · exact hs
  · exact resetMeetsTheInvariant s.params hs.1

/-- Settles O12: the step is a stutter, the host's or the engine's, and each keeps the invariant. -/
theorem stepKeepsTheInvariant : Obligations.StepKeepsTheInvariant := by
  intro s t hs h
  rcases step_cases s with ⟨_, _, hstep⟩ | ⟨_, rest, ts, _, _, hstep⟩ | ⟨ts, hbusy, _, hstep⟩ <;> rw [hstep] at h
  · cases h; exact hs
  · exact hostAct_inv (s := { s with hostOps := rest, turns := ts }) hs h
  · exact engineStep_inv (s := { s with turns := ts }) hs hbusy h

end Sys2Proof.Machine
end

section
/-! SUPPORT. 10_state R20 to R39 and 70_reset_and_hazards R255: the register map, STATUS as a word, and the host interactions
that are allowed. -/

namespace Sys2Proof.Machine

/-! ## STATUS as a word (10_state R32) -/

theorem statusBit_getLsbD (b : Bool) (n j : Nat) :
    (statusBit b n).getLsbD j = (decide (j < 32 ∧ j = n) && b) := by
  simp only [statusBit, BitVec.getLsbD_shiftLeft, BitVec.getLsbD_setWidth, BitVec.getLsbD_ofBool]
  by_cases hj : j < n
  · simp [hj, hj.ne]
  · by_cases hn : j = n <;> grind

/-- Each bit of STATUS is that of its field. -/
theorem Status.toWord_getLsbD (st : Status) {j : Nat} (hj : j < 32) : st.toWord.getLsbD j =
    ((decide (j = 0) && st.busy) || (decide (j = 1) && st.cfgValid) || (decide (j = 2) && st.allCorr) ||
      (decide (j = 3) && st.omitted) || (decide (j = 4) && st.short) || (decide (j = 5) && st.ambig) ||
      (!decide (j < 8) && st.err.code.getLsbD (j - 8))) := by
  simp only [Status.toWord, BitVec.getLsbD_or, statusBit_getLsbD, BitVec.getLsbD_shiftLeft, BitVec.getLsbD_setWidth, hj,
    true_and, decide_true, Bool.true_and]
  have hj' : j - 8 < 32 := by omega
  simp [hj']

/-- Settles O53: the fields of STATUS bit by bit. -/
theorem statusWordLayout : Obligations.StatusWordLayout := by
  intro st
  refine ⟨?_, ?_, ?_, ?_, ?_, ?_, ?_, ?_, ?_⟩
  case refine_7 =>
    refine BitVec.eq_of_getLsbD_eq fun j hj => ?_
    have h : 6 + j < 8 := by omega
    rw [BitVec.getLsbD_extractLsb', st.toWord_getLsbD (by omega)]
    interval_cases j <;> simp
  case refine_8 =>
    refine BitVec.eq_of_getLsbD_eq fun j hj => ?_
    rw [BitVec.getLsbD_extractLsb', st.toWord_getLsbD (by omega), BitVec.getLsbD_of_ge st.err.code (12 + j - 8) (by omega)]
    simp
    omega
  case refine_9 =>
    have hcode : st.toWord.extractLsb' 8 4 = st.err.code := by
      refine BitVec.eq_of_getLsbD_eq fun j hj => ?_
      rw [BitVec.getLsbD_extractLsb', st.toWord_getLsbD (by omega)]
      simp [hj]
      omega
    rw [hcode]
    cases st.err <;> rfl
  all_goals (rw [st.toWord_getLsbD (by decide)]; simp)

/-! ## The register map (10_state R20, R39) -/

theorem Reg.ofOffset_offset (r : Reg) : Reg.ofOffset r.offset = some r := by cases r <;> rfl

theorem Reg.ofOffset_eq_some_iff {o : Nat} {r : Reg} : Reg.ofOffset o = some r ↔ r.offset = o :=
  ⟨Reg.offset_of_ofOffset, fun h => h ▸ r.ofOffset_offset⟩

/-- Settles O56: the lookup inverts the offsets, which are the four stretches of the map. -/
theorem offsetsNameRegisters : Obligations.OffsetsNameRegisters := by
  refine ⟨fun _ _ => Reg.ofOffset_eq_some_iff, fun o => ⟨?_, fun h => ?_⟩⟩
  · rintro ⟨r, hr⟩
    rw [← Reg.offset_of_ofOffset hr]
    cases r <;> decide
  · have hmap : ∀ o < 0x74, o % 4 = 0 ∧ (o ≤ 0x14 ∨ (0x20 ≤ o ∧ o ≤ 0x38) ∨ (0x40 ≤ o ∧ o ≤ 0x54) ∨ (0x60 ≤ o ∧ o ≤ 0x70)) →
        (Reg.ofOffset o).isSome = true := by decide
    exact Option.isSome_iff_exists.1 (hmap o (by omega) h)

/-- A write changes the value that one register reads as, and that of STATUS if it starts a command (10_state R33). -/
theorem readReg_writeReg_other {s : State} {r r' : Reg} {v : Word} (hne : r' ≠ r) (hstatus : r ≠ .cmd ∨ r' ≠ .status) :
    readReg (writeReg s r v) r' = readReg s r' := by
  cases r
  case cmd =>
    have hstatus : r' ≠ .status := hstatus.resolve_left (fun h => h rfl)
    cases r'
    case cmd => exact absurd rfl hne
    case status => exact absurd rfl hstatus
    all_goals rfl
  case cfgSpcg | actL | actFiller | actRatio | actMaxwarn | actMindim | actIcount | actBps | r0 | r1 | r2 | r3 | status => rfl
  all_goals cases r' <;> first | rfl | exact absurd rfl hne

/-- Settles O55: a write register by register. -/
theorem registersReadBackWithoutAliases : Obligations.RegistersReadBackWithoutAliases := by
  have low (v : Word) : (v.setWidth 8).setWidth 32 = v &&& 0xFF := by
    refine BitVec.eq_of_toNat_eq ?_
    have hmask := Nat.and_two_pow_sub_one_eq_mod v.toNat 8
    simp only [BitVec.toNat_setWidth, BitVec.toNat_and]
    exact (Nat.mod_eq_of_lt (by omega)).trans hmask.symm
  refine fun s r v => ⟨fun hr => ?_, fun hr => ?_, fun hr => ?_, fun r' => readReg_writeReg_other, ?_, rfl⟩
  · simp only [List.mem_cons, List.not_mem_nil, or_false] at hr
    rcases hr with rfl | rfl | rfl | rfl | rfl | rfl | rfl | rfl | rfl <;> rfl
  · simp only [List.mem_cons, List.not_mem_nil, or_false] at hr
    rcases hr with rfl | rfl <;> exact low v
  · simp only [List.mem_cons, List.not_mem_nil, or_false] at hr
    rcases hr with rfl | rfl | rfl | rfl | rfl | rfl | rfl | rfl | rfl | rfl | rfl | rfl | rfl <;> rfl
  · cases r <;> rfl

/-! ## What an allowed interaction does (70_reset_and_hazards R255) -/

theorem accessedReg_offset (r : Reg) : accessedReg 32 r.offset = .ok r :=
  accessedReg_ok.2 ⟨rfl, by cases r <;> rfl, r.ofOffset_offset⟩

section
variable {s : State} {a : Nat} {b : Byte}

theorem hostRegRead_offset (r : Reg) : hostRegRead 32 r.offset s = .next (s.reply (.reg (readReg s r))) := by
  simp [hostRegRead, accessedReg_offset]

theorem hostRegWrite_offset (r : Reg) (v : Word) (hidle : s.status.busy = false) :
    hostRegWrite 32 r.offset v s = .next (writeReg s r v) := by
  simp [hostRegWrite, accessedReg_offset, hidle]

theorem hostMemRead_written (hidle : s.status.busy = false) (hin : a < s.params.dmemSize) (hread : s.dmem.read a = some b) :
    hostMemRead a s = .next (s.reply (.mem b)) := by
  simp [hostMemRead, hidle, hin, readByte_written hread]

theorem hostMemWrite_inside (hidle : s.status.busy = false) (hin : a < s.params.dmemSize) :
    hostMemWrite a b s = .next (s.setDmem (s.dmem.write a b)) := by
  simp [hostMemWrite, hidle, hin]

end

/-- Settles O54: the register at 0x40 is CMD. -/
theorem cmdWriteStartsTheCommand : Obligations.CmdWriteStartsTheCommand :=
  fun _ w hidle => hostRegWrite_offset .cmd w hidle

/-- Settles O58: one lemma per row of R255's table. -/
theorem allowedInteractionsComplete : Obligations.AllowedInteractionsComplete := by
  refine fun s r v a b => ⟨hostRegRead_offset r, hostRegWrite_offset r v, fun hidle hin => ⟨hostMemRead_written hidle hin,
    hostMemRead_unwritten_fault hidle hin, fun hread hany => ⟨_, hostMemRead_unwritten_any hidle hin hread hany⟩, ?_⟩,
    _, rfl, readReg_resetSignal s, fun _ => rfl⟩
  exact ⟨_, hostMemWrite_inside hidle hin, rfl, s.dmem.read_write_same a b, fun x => s.dmem.read_write_other b⟩

end Sys2Proof.Machine
end

section
/-! SUPPORT. 20_memory R51 and R57: which bytes a command may change, and which reads of it can be a fault. -/

namespace Sys2Proof.Machine

/-! ## The bytes a command changes -/

/-- A stretch stored over a whole region leaves every address outside the region alone. -/
theorem Region.read_writeBytes {m : Memory} {g : Region} {bs : List Byte} {x : Nat} (hlen : bs.length = g.len)
    (hx : g.has x = false) : (m.writeBytes g.base bs).read x = m.read x :=
  Memory.read_writeBytes_outside m g.base bs (hlen ▸ (g.has_false_iff x).1 hx)

/-- The cells that SYMS2BITS writes are few enough for R0: at most A3, or with AUTO an output apart from the input. -/
theorem syms2bits_kept_lt {s : State} {k : BitVec 4} {auto : Bool} (hp : s.params.Legal)
    (hr : rangeOk (.syms2bits k auto) s = true) {bits : List Byte} {d : Nat}
    (h : collectBits s.params s.dmem s.scheme.icount (widthOf s k) (expectedBits s auto) s.a1.toNat s.a0.toNat s.draws [] =
      .ok (bits, d)) : (keptBits (expectedBits s auto) bits).length < 2 ^ 32 := by
  cases auto with
  | false =>
    have hlen : (keptBits (expectedBits s false) bits).length ≤ s.a3.toNat := by simp [expectedBits, keptBits]
    exact hlen.trans_lt s.a3.isLt
  | true =>
    have hbits : bits.length ≤ widthOf s k * s.a1.toNat := by simpa using collectBits_length h
    refine ((keptBits_length_le _ _).trans hbits).trans_lt ?_
    rcases Nat.eq_zero_or_pos s.a1.toNat with hzero | hpos
    · simp [hzero]
    · exact rangeOk_fits hp hr (g := ⟨s.a0.toNat, s.a1.toNat⟩) (o := ⟨s.a2.toNat, widthOf s k * s.a1.toNat⟩)
        List.mem_cons_self List.mem_cons_self hpos

/-- What the correcting path of FEC_DEC leaves in DMEM, R0 and R1: the payload and as many entries as R1 says. -/
theorem fecRepair_stores {n : Nat} {buf : List Byte} {s t : State} (hn : n ≤ buf.length) (hbuf : buf.length < 2 ^ 32)
    (h : fecRepair n buf s = .next t) : ∃ p entries : List Byte, p.length = t.r0.toNat ∧ entries.length = 4 * t.r1.toNat ∧
      t.dmem = (s.dmem.writeBytes s.a2.toNat p).writeBytes s.a3.toNat entries := by
  refine ⟨_, _, ?_, ?_, fecRepair_dmem h⟩ <;> (rw [fecRepair, complete_eq] at h; cases h)
  · simp [toReg_toNat (n := n) (by omega), hn]
  · simp only [diagnostics_length, State.finish_r1, State.setOmitted_r1, State.setAllCorr_r1, State.setR1_r1]
    rw [toReg_toNat (by omega)]
    omega

theorem fecCopy_r0 {buf : List Byte} {s t : State} (h : fecCopy buf s = .next t) : t.r0 = s.a1 := by
  rw [fecCopy, complete_eq] at h; cases h; simp

/-- A completed command changes no byte outside the stretches it stores. -/
theorem Completion.read_outside {i : Instr} {s t : State} {x : Nat} (hp : s.params.Legal)
    (hck : i ≠ .cfgCommit → ChecksPass i s) (h : Completion i s t) (hx : NotStored i s t x) :
    t.dmem.read x = s.dmem.read x := by
  have hr (hi : i ≠ .cfgCommit) : rangeOk i s = true := (hck hi).2.2.2.2
  clear hck
  cases i <;> simp only [Completion] at h
  case cfgCommit => obtain ⟨_, rfl⟩ := h; rfl
  case bytes2bits =>
    obtain ⟨bs, _, hlen, rfl⟩ := h
    exact Region.read_writeBytes (bs := bytesToBits bs) (by simp [hlen]) (hx _ List.mem_cons_self)
  case bits2bytes =>
    obtain ⟨bs, _, hlen, _, rfl⟩ := h
    exact Region.read_writeBytes (bs := bitsToBytes bs) (by simp [hlen]) (hx _ List.mem_cons_self)
  case bits2syms k =>
    obtain ⟨bs, _, hlen, _, rfl⟩ := h
    exact Region.read_writeBytes (bs := bitsToSyms (widthOf s k) s.scheme.icount bs) (by simp [hlen])
      (hx _ List.mem_cons_self)
  case fecEnc =>
    obtain ⟨bs, _, hlen, rfl⟩ := h
    exact Region.read_writeBytes (bs := fecEncode s.act.ratio.toNat bs) (by simp [hlen]) (hx _ List.mem_cons_self)
  case extract ch =>
    obtain ⟨vs, _, hlen, rfl⟩ := h
    rw [channelOffsets_length] at hlen
    exact Region.read_writeBytes (bs := extractCodes s.scheme vs) (extractCodes_length _ _ hlen)
      (hx _ List.mem_cons_self)
  case layout ch =>
    obtain ⟨syms, d, _, _, rfl⟩ := h
    obtain ⟨_, _, hcount⟩ := State.setCount_frame
      ((s.setDraws d).store s.a2.toNat (layoutBytes s.scheme ch.toNat (pixelCount s) syms)) (pixelCount s * ch.toNat)
    rw [hcount]
    exact Region.read_writeBytes (bs := layoutBytes s.scheme ch.toNat (pixelCount s) syms) (layoutBytes_length _ _ _ _)
      (hx _ List.mem_cons_self)
  case syms2bits k auto =>
    obtain ⟨bits, d, hbits, rfl⟩ := h
    have hfits := syms2bits_kept_lt hp (hr (by simp)) hbits
    generalize expectedBits s auto = e at *
    obtain ⟨_, hshort, -⟩ := State.flagShort_frame
      (((s.setDraws d).store s.a2.toNat (keptBits e bits)).setR0 (toReg (keptBits e bits).length)) e bits.length
    have hx' := hx _ List.mem_cons_self
    rw [hshort] at hx' ⊢
    exact Region.read_writeBytes (bs := keptBits e bits) (toReg_toNat hfits).symm hx'
  case fecDec =>
    obtain ⟨buf, d, hlen, h⟩ := h
    have h₀ := hx _ List.mem_cons_self
    have h₁ := hx _ (List.mem_cons_of_mem _ List.mem_cons_self)
    split at h
    · have hdmem : t.dmem = s.dmem.writeBytes s.a2.toNat buf := by simpa using fecCopy_dmem h
      have hr0 : t.r0 = s.a1 := by simpa using fecCopy_r0 h
      rw [hr0] at h₀
      rw [hdmem]
      exact Region.read_writeBytes (g := ⟨s.a2.toNat, s.a1.toNat⟩) hlen h₀
    · obtain ⟨p, entries, hp, hentries, ht⟩ := fecRepair_stores
        (by rw [hlen]; exact fecPayload_le _ _) (by rw [hlen]; exact s.a1.isLt) h
      simp only [State.setDraws_dmem, State.setDraws_a2, State.setDraws_a3] at ht
      rw [ht]
      exact (Region.read_writeBytes (g := ⟨s.a3.toNat, _⟩) hentries h₁).trans
        (Region.read_writeBytes (g := ⟨s.a2.toNat, _⟩) hp h₀)
  all_goals (subst h; simp)

/-- Settles O18: a failure stores nothing, and a completion only the stretches it names. -/
theorem memoryChangesOnlyWhereStored : Obligations.MemoryChangesOnlyWhereStored := by
  intro i s t hp h x hx
  rcases exec_next h with hfail | ⟨hck, hdone⟩
  · rw [hfail.dmem]
  · exact hdone.read_outside hp hck hx

/-! ## Where a command can fault (R51) -/

/-- A result that is no refusal, and a fault only at an unwritten address of the given regions, under UNWRITTEN_READ = fault. -/
def FaultsOnlyIn (gs : List Region) (s : State) (r : Result) : Prop :=
  (∀ x, r ≠ .refused x) ∧ ∀ f, r = .fault f → s.params.unwritten = .fault ∧
    ∃ a, f = .unwrittenRead a ∧ s.dmem.read a = none ∧ ∃ g ∈ gs, g.has a = true

theorem FaultsOnlyIn.next (gs : List Region) (s t : State) : FaultsOnlyIn gs s (.next t) := ⟨nofun, nofun⟩

theorem FaultsOnlyIn.ite {gs : List Region} {s : State} {c : Prop} [Decidable c] {r r' : Result} (h : FaultsOnlyIn gs s r)
    (h' : FaultsOnlyIn gs s r') : FaultsOnlyIn gs s (if c then r else r') := by
  split <;> assumption

theorem FaultsOnlyIn.fault {s : State} {g : Region} {a : Nat} (hu : s.params.unwritten = .fault) (hr : s.dmem.read a = none)
    (hg : g.has a = true) : FaultsOnlyIn [g] s (.fault (.unwrittenRead a)) := by
  refine ⟨nofun, fun f hf => ?_⟩
  cases hf
  exact ⟨hu, a, rfl, hr, g, List.mem_cons_self, hg⟩

/-- Reads of places inside a region fault only there. -/
theorem FaultsOnlyIn.reads {s : State} {g : Region} {ps : List (Option Nat)} {k : List Byte → State → Result}
    (hps : ∀ a, some a ∈ ps → g.has a = true) (hk : ∀ bs u, FaultsOnlyIn [g] s (k bs u)) :
    FaultsOnlyIn [g] s (withPlaces s ps k) := by
  rcases withPlaces_cases s ps k with ⟨bs, d, _, h⟩ | ⟨a, h, ha, hr, hu⟩ <;> rw [h]
  · exact hk bs _
  · exact .fault hu hr (hps a ha)

theorem places_in_region {base len a : Nat} (h : some a ∈ places base len) : Region.has ⟨base, len⟩ a = true :=
  (Region.has_iff _ _).2 (mem_places.1 h)

theorem extractPlaces_in_region {base avail ch n a : Nat} (h : some a ∈ extractPlaces base avail ch n) :
    Region.has ⟨base, avail⟩ a = true := by
  simp only [extractPlaces, List.mem_map] at h
  obtain ⟨o, _, ho⟩ := h
  rw [Region.has_iff]
  split at ho <;> grind

/-- Past its register checks a command can only fault at a byte it reads, which lies in its input region. -/
theorem exec_faultsOnlyIn {i : Instr} {s : State} (hi : i ≠ .cfgCommit) (hc : ChecksPass i s) :
    FaultsOnlyIn (inputRegions i s) s (exec i s) := by
  cases i
  case cfgCommit => exact absurd rfl hi
  case qIcount => rw [execQIcount_ready hc]; exact .next _ _ _
  case qBps => rw [execQBps_ready hc]; exact .next _ _ _
  case qAnchor => rw [execQAnchor_ready hc]; exact .next _ _ _
  case qIsfiller => rw [execQIsfiller_ready hc]; exact .next _ _ _
  case qTosymbol => rw [execQTosymbol_ready hc]; exact .next _ _ _
  case plan => rw [execPlan_ready hc]; exact .next _ _ _
  case bytes2bits => rw [execBytes2bits_ready hc]; exact .reads (fun _ => places_in_region) fun _ _ => .next _ _ _
  case fecEnc => rw [execFecEnc_ready hc]; exact .reads (fun _ => places_in_region) fun _ _ => .next _ _ _
  case extract ch =>
    rw [execExtract_ready hc]; exact .reads (fun _ => extractPlaces_in_region) fun _ _ => .next _ _ _
  case fecDec =>
    rw [execFecDec_ready hc]
    exact .reads (fun _ => places_in_region) fun _ _ => .ite (.next _ _ _) (.next _ _ _)
  case bits2bytes =>
    rw [execBits2bytes_ready hc]
    exact .reads (fun _ => places_in_region) fun _ _ => .ite (.next _ _ _) (.next _ _ _)
  case bits2syms k =>
    rw [execBits2syms_ready hc]
    exact .reads (fun _ => places_in_region) fun _ _ => .ite (.next _ _ _) (.next _ _ _)
  case layout ch =>
    rw [execLayout_ready hc]
    exact .reads (fun _ => places_in_region) fun _ _ => .ite (.next _ _ _) (.next _ _ _)
  case syms2bits k auto =>
    rw [execSyms2bits_ready hc]
    rcases collectBits_cases s.params s.dmem s.scheme.icount (widthOf s k) (expectedBits s auto) s.a1.toNat s.a0.toNat
      s.draws [] with ⟨bits, d, h⟩ | ⟨x, h, hlow, hhigh, hr, hu⟩ <;> rw [h]
    · exact .next _ _ _
    · exact .fault hu hr ((Region.has_iff _ _).2 ⟨hlow, hhigh⟩)

/-- Settles O20: CFG_COMMIT and a command that fails a register check end, and any other faults only where it reads. -/
theorem commandsFaultOnlyAtUnwrittenBytes : Obligations.CommandsFaultOnlyAtUnwrittenBytes := by
  intro i s
  show FaultsOnlyIn (inputRegions i s) s (exec i s)
  by_cases hi : i = .cfgCommit
  · subst hi
    cases hl : stagedLegal s.cfg with
    | true => rw [execCfgCommit_legal hl]; exact .next _ _ _
    | false => rw [execCfgCommit_illegal hl]; exact .next _ _ _
  by_cases hc : ChecksPass i s
  · exact exec_faultsOnlyIn hi hc
  · obtain ⟨e, _, _, h⟩ := stopsEarly hi hc
    rw [h]; exact .next _ _ _

/-- Settles O21: with readable inputs no fault is left, so the command ends, and every end clears BUSY. -/
theorem commandsEndWhenInputsAreReadable : Obligations.CommandsEndWhenInputsAreReadable := by
  intro i s hin
  obtain ⟨hrefused, hfault⟩ := commandsFaultOnlyAtUnwrittenBytes i s
  cases h : exec i s with
  | next t => exact ⟨t, rfl, (exec_frame h).busy⟩
  | refused r => exact absurd h (hrefused r)
  | fault f =>
    obtain ⟨hu, a, _, hread, g, hg, ha⟩ := hfault f h
    rcases hin g hg a ha with hwritten | hany
    · exact absurd hread hwritten
    · exact absurd (hu.symm.trans hany) (by simp)

end Sys2Proof.Machine
end

section
/-! SUPPORT. 41_quantization R101 to R111 and 45_dimension_planner R190 to R192: intervals and their anchors, and the planned
grid. -/

namespace Sys2Proof.Machine

/-! ## The interval count and bits per symbol (41_quantization R101, R102) -/

/-- Settles O26: the count is a ceiling division and bits per symbol its logarithm. -/
theorem intervalCountAndBitsBounds : Obligations.IntervalCountAndBitsBounds := by
  intro l f hl hf
  have hcover (n : Nat) : 255 - f ≤ n * l ↔ intervalCount l f ≤ n := (cdiv_le_iff hl).symm
  have hpos : 1 ≤ intervalCount l f := by
    by_contra hzero
    have := (hcover 0).2 (by omega)
    omega
  have hle := intervalCount_le (f := f) hl
  refine ⟨hcover, hpos, hle, fun htwo => ⟨(le_floorLog2_iff hpos).2 htwo, ?_, fun e => (le_floorLog2_iff hpos).symm⟩⟩
  by_contra h
  have : 2 ^ 8 ≤ intervalCount l f := (le_floorLog2_iff hpos).1 (by unfold bitsPerSymbol at h; omega)
  omega

/-! ## Anchors and intervals (R103 to R105, R111) -/

/-- The anchor of an interval lies in it. -/
theorem anchor_mem_interval {q : Scheme} {i : Nat} (hl : 1 ≤ q.l) (hstart : q.f + 1 + i * q.l ≤ 255) :
    q.f + 1 + i * q.l ≤ anchor q i ∧ anchor q i < q.f + 1 + i * q.l + q.l ∧ anchor q i ≤ 255 := by
  simp only [anchor]
  omega

/-- A value in the data range belongs to the interval that holds it. -/
theorem toSymbol_of_mem_interval {s : State} (hc : s.act.Committed) {v i : Nat} (hv : v ≤ 255)
    (hlow : s.scheme.f + 1 + i * s.scheme.l ≤ v) (hhigh : v < s.scheme.f + 1 + i * s.scheme.l + s.scheme.l) :
    toSymbol s.scheme v = .data i := by
  rw [toSymbol_eq hc hv, if_neg (by omega)]
  congr 1
  exact Nat.div_eq_of_lt_le (by omega) (by rw [Nat.succ_mul]; omega)

/-- Settles O27: the anchor lies in its own interval. -/
theorem anchorsDecodeToTheirIndex : Obligations.AnchorsDecodeToTheirIndex := by
  intro s hc i hi
  obtain ⟨hl, -⟩ := hc.bounds
  obtain ⟨hlow, hhigh, hle⟩ := anchor_mem_interval (q := s.scheme) hl (hc.start_le hi)
  exact ⟨toSymbol_of_mem_interval hc hle hlow hhigh, by omega, hle⟩

/-- Settles O28: the clamp has no effect, and the quotient by L numbers the interval. -/
theorem toSymbolFindsTheInterval : Obligations.ToSymbolFindsTheInterval := by
  refine fun s hc v hv => ⟨fun hfiller => ?_, fun hdata => ?_⟩
  · rw [toSymbol_eq hc hv, if_pos hfiller]
  · obtain ⟨hl, -⟩ := hc.bounds
    have hlow := Nat.div_mul_le_self (v - (s.scheme.f + 1)) s.scheme.l
    have hhigh := Nat.lt_mul_div_succ (v - (s.scheme.f + 1)) (show 0 < s.scheme.l from hl)
    rw [Nat.mul_comm] at hhigh
    exact ⟨(v - (s.scheme.f + 1)) / s.scheme.l, by rw [toSymbol_eq hc hv, if_neg hdata.not_ge], hc.index_lt hv, rfl,
      by omega, by omega⟩

/-! ## The planned grid (45_dimension_planner R190 to R192) -/

/-- Settles O51: the digits of the root leave a remainder exactly where it is not exact. -/
theorem ceilSqrtIsLeast : Obligations.CeilSqrtIsLeast := fun _ _ => ceilSqrt_le_iff

theorem Failure.err_ne_none {i : Instr} {s t : State} (h : Failure i s t) : t.status.err ≠ .none := by
  unfold Failure at h
  split at h
  · obtain ⟨_, rfl⟩ := h; simp
  · obtain ⟨e, _, he, rfl⟩ := h; exact he

/-- A command other than CFG_COMMIT that ends without an error has passed its register checks. -/
theorem checksPass_of_err_eq_none {i : Instr} {s t : State} (hi : i ≠ .cfgCommit) (h : exec i s = .next t)
    (herr : t.status.err = .none) : ChecksPass i s := by
  rcases exec_next h with hfail | ⟨hck, _⟩
  · exact absurd herr hfail.err_ne_none
  · exact hck hi

/-- Settles O50: the height covers the pixels in rows of the width, and the pixels the symbols in threes. -/
theorem plannedGridHoldsTheSymbols : Obligations.PlannedGridHoldsTheSymbols := by
  intro s t hc h herr
  obtain ⟨hv, hn, -⟩ := checksPass_of_err_eq_none (by simp) h herr
  obtain ⟨-, -, -, hmin, -⟩ := hc.bounds
  obtain ⟨t', ht', -, h₀, h₁, h₂, -⟩ := (planComputesTheGrid.2.2 s _ _ _ _ hv hc rfl rfl rfl rfl).1 hn
  cases ht'.symm.trans h
  generalize cdiv (8 * s.a0.toNat) s.act.bps.toNat = T at h₀ h₁ h₂
  generalize hw : max (ceilSqrt (cdiv T 3)) s.act.minDim.toNat = w at h₀ h₁
  have hcover : cdiv T 3 ≤ t.r0.toNat * t.r1.toNat := by
    rw [h₀, h₁, Nat.mul_comm, ← cdiv_le_iff (by omega)]
    exact le_max_left _ _
  refine ⟨?_, by omega, by omega, fun u ch hu₁ hu₃ hu₄ => ?_⟩
  · rw [h₂]; exact (cdiv_le_iff (by decide)).1 hcover
  · rw [capacityOk, hu₁, hu₃, hu₄, h₂]; exact hcover

end Sys2Proof.Machine
end

section
/-! SUPPORT. 42_bit_packing R120 to R128: what the four packing commands write where DMEM holds their input, and the laws. -/

namespace Sys2Proof.Machine

/-! ## Windows and expansions (R121, R125) -/

/-- A window is the number whose bits its cells are, the first on top. -/
theorem window_eq_of_bits {bits : List Byte} (hb : ∀ c ∈ bits, c = 0 ∨ c = 1) {k g v : Nat} (hv : v < 2 ^ k)
    (h : ∀ j, j < k → decide (bits.getD (k * g + j) 0 = 1) = v.testBit (k - 1 - j)) : window k bits g = v := by
  obtain ⟨hlt, hbit⟩ := window_bits hb k g
  refine Nat.eq_of_testBit_eq fun i => ?_
  rcases Nat.lt_or_ge i k with hi | hi
  · have hi' : k - 1 - (k - 1 - i) = i := by omega
    have := (hbit (k - 1 - i) (by omega)).trans (h (k - 1 - i) (by omega))
    rwa [hi'] at this
  · have hpow := Nat.pow_le_pow_right (n := 2) (by decide) hi
    rw [Nat.testBit_lt_two_pow (hlt.trans_le hpow), Nat.testBit_lt_two_pow (hv.trans_le hpow)]

theorem bitCell_eq_one (b : Bool) : decide (bitCell b = 1) = b := by cases b <;> rfl

/-- The window of an expansion is the code, where k bits are enough for it. -/
theorem window_expand {ic k : Nat} {c : Byte} (hic : c.toNat < ic) (hk : c.toNat < 2 ^ k) :
    window k (expand ic k c) 0 = c.toNat := by
  refine window_eq_of_bits (expand_cells ic k c) hk fun j hj => ?_
  rw [Nat.mul_zero, Nat.zero_add, List.getD_eq_getElem _ _ (by simpa using hj), expand_getElem ic k c hj, bitCell_eq_one,
    Nat.mod_eq_of_lt hic]

/-- Settles O35: the cells of an expansion one by one, and its window. -/
theorem expansionIsLowBitsMsbFirst : Obligations.ExpansionIsLowBitsMsbFirst := by
  refine fun ic k c => ⟨expand_length ic k c, fun j hj => ?_, window_expand⟩
  have hbit : ((c.toNat % ic) % 2 ^ k).testBit (k - 1 - j) = (c.toNat % ic).testBit (k - 1 - j) := by
    rw [Nat.testBit_mod_two_pow, decide_eq_true (by omega), Bool.true_and]
  rw [List.getElem?_eq_getElem (by simpa using hj), expand_getElem ic k c hj, hbit, bitCell]

/-! ## Commands on input that DMEM holds -/

section
variable {s : State} {bs : List Byte} (hmem : s.dmem.Holds s.a0.toNat bs) (hlen : bs.length = s.a1.toNat)
include hmem hlen

theorem withPlaces_input (k : List Byte → State → Result) : withPlaces s (places s.a0.toNat s.a1.toNat) k = k bs s := by
  rw [← hlen, withPlaces_holds hmem]

theorem execBytes2bits_holds (hc : ChecksPass .bytes2bits s) : exec .bytes2bits s =
    .next (((s.store s.a2.toNat (bytesToBits bs)).setR0 (toReg (8 * s.a1.toNat))).finish .none) := by
  rw [execBytes2bits_ready hc, withPlaces_input hmem hlen]

theorem execBits2bytes_holds (hc : ChecksPass .bits2bytes s) (hb : ∀ c ∈ bs, c = 0 ∨ c = 1) : exec .bits2bytes s =
    .next (((s.store s.a2.toNat (bitsToBytes bs)).setR0 (toReg (cdiv s.a1.toNat 8))).finish .none) := by
  rw [execBits2bytes_ready hc, withPlaces_input hmem hlen, any_badCell_eq_false.2 hb]
  rfl

theorem execBits2syms_holds {k : BitVec 4} (hc : ChecksPass (.bits2syms k) s) (hb : ∀ c ∈ bs, c = 0 ∨ c = 1) :
    exec (.bits2syms k) s = .next (((s.store s.a2.toNat (bitsToSyms (widthOf s k) s.scheme.icount bs)).setR0
      (toReg (cdiv s.a1.toNat (widthOf s k)))).finish .none) := by
  rw [execBits2syms_ready hc, withPlaces_input hmem hlen, any_badCell_eq_false.2 hb]
  rfl

end

/-- The bytes that a store leaves, one by one. -/
theorem read_stored {m : Memory} {a x i : Nat} {bs : List Byte} (hx : x = a + i) (hi : i < bs.length) :
    (m.writeBytes a bs).read x = some bs[i] := hx ▸ m.read_writeBytes_inside a bs hi

/-- Settles O32: the cells of each byte, at the place of the byte. -/
theorem bytesBecomeCellsMsbFirst : Obligations.BytesBecomeCellsMsbFirst := by
  intro s bs hp hc hmem hlen
  obtain ⟨-, -, -, -, hr⟩ := id hc
  have hfits : 8 * s.a1.toNat < 2 ^ 32 := by
    rcases Nat.eq_zero_or_pos s.a1.toNat with hzero | hpos
    · omega
    · exact rangeOk_fits hp hr (g := ⟨s.a0.toNat, s.a1.toNat⟩) (o := ⟨s.a2.toNat, 8 * s.a1.toNat⟩) List.mem_cons_self
        List.mem_cons_self hpos
  refine ⟨_, execBytes2bits_holds hmem hlen hc, ?_, rfl, fun i hi j hj => ?_⟩
  · exact (toReg_toNat hfits).trans (by rw [hlen])
  · rw [← bytesToBits_getElem hi hj]
    exact read_stored (Nat.add_assoc _ _ _) _

/-- Settles O33: byte g is the window of its eight cells. -/
theorem cellsBecomeBytesZeroPadded : Obligations.CellsBecomeBytesZeroPadded := by
  intro s bits hp hc hmem hlen hb
  have hfits : cdiv s.a1.toNat 8 < 2 ^ 32 := (cdiv_le_self (by decide)).trans_lt s.a1.isLt
  refine ⟨_, execBits2bytes_holds hmem hlen hc hb, ?_, rfl, fun g hg => ⟨BitVec.ofNat 8 (window 8 bits g), ?_, fun j hj => ?_⟩⟩
  · exact (toReg_toNat hfits).trans (by rw [hlen])
  · refine (read_stored rfl (by simpa using hg)).trans ?_
    simp [bitsToBytes]
  · obtain ⟨-, hbit⟩ := window_bits hb 8 g
    rw [BitVec.getLsbD_ofNat, decide_eq_true (by omega), Bool.true_and]
    exact hbit j hj

/-- The width that a legal field K names is at least 1 under a committed configuration (R124). -/
theorem one_le_widthOf {s : State} {k : BitVec 4} (hc : s.act.Committed) (hk : legalK k) : 1 ≤ widthOf s k := by
  rw [widthOf_legal hk]
  split
  · exact hc.one_le_bps
  · exact toNat_pos_of_ne ‹k ≠ 0›

/-- Settles O34: code g is the window of its k cells, reduced. -/
theorem cellsBecomeSymbolCodes : Obligations.CellsBecomeSymbolCodes := by
  intro s k w bits hp hc hcommitted hw hmem hlen hb
  obtain ⟨-, hk, -⟩ := id hc
  rw [← widthOf_legal hk] at hw
  subst hw
  obtain ⟨-, -, hcount, -⟩ := hcommitted.bounds
  have hfits : cdiv s.a1.toNat (widthOf s k) < 2 ^ 32 := (cdiv_le_self (one_le_widthOf hcommitted hk)).trans_lt s.a1.isLt
  refine ⟨_, execBits2syms_holds hmem hlen hc hb, ?_, rfl, fun g hg => ?_⟩
  · exact (toReg_toNat hfits).trans (by rw [hlen])
  · obtain ⟨hlt, hbit⟩ := window_bits hb (widthOf s k) g
    refine ⟨window (widthOf s k) bits g, BitVec.ofNat 8 (window (widthOf s k) bits g % s.act.icount.toNat), ?_, ?_, hlt, hbit⟩
    · refine (read_stored rfl (by simpa using hg)).trans ?_
      simp only [bitsToSyms, List.getElem_map, List.getElem_range]
      rfl
    · have := Nat.mod_lt (window (widthOf s k) bits g) (show 0 < s.act.icount.toNat by omega)
      rw [BitVec.toNat_ofNat, Nat.mod_eq_of_lt (this.trans s.act.icount.isLt)]

/-! ## SYMS2BITS (R123 to R127) -/

/-- The expansions of the codes but 0xFF, in order. -/
theorem flatMap_symbolBits (ic k : Nat) (codes : List Byte) : codes.flatMap (symbolBits ic k) =
    codes.flatMap fun c => if c = 0xFF then [] else expand ic k c :=
  congrArg (codes.flatMap ·) (funext (symbolBits_eq ic k))

/-- With an expected number of bits the loop collects the first of all bits: all of them, or at least as many as expected. -/
theorem collectBits_expected {p : Params} {m : Memory} {ic k e a d len : Nat} {codes : List Byte} (h : m.Holds a codes)
    (hlen : codes.length ≤ len)
    (hend : codes.length = len ∨ e ≤ (codes.flatMap (symbolBits ic k)).length) :
    ∃ bits rest, collectBits p m ic k (some e) len a d [] = .ok (bits, d) ∧
      codes.flatMap (symbolBits ic k) = bits ++ rest ∧ (rest = [] ∨ e ≤ bits.length) := by
  obtain ⟨n, hn, hbits, hstop⟩ := collectBits_holds (p := p) (d := d) (e := some e) h hlen []
    (by simpa [collected] using hend)
  refine ⟨_, (codes.drop n).flatMap (symbolBits ic k), hbits, ?_, ?_⟩
  · rw [List.nil_append, ← List.flatMap_append, List.take_append_drop]
  · rcases hstop with hall | hcollected
    · left; rw [List.drop_eq_nil_of_le (by omega), List.flatMap_nil]
    · right; simpa [collected] using hcollected

/-- With AUTO the loop collects the bits of all symbols. -/
theorem collectBits_auto {p : Params} {m : Memory} {ic k a d len : Nat} {codes : List Byte} (h : m.Holds a codes)
    (hlen : codes.length = len) :
    collectBits p m ic k none len a d [] = .ok (codes.flatMap (symbolBits ic k), d) := by
  obtain ⟨n, hn, hbits, hstop⟩ := collectBits_holds (p := p) (d := d) (e := none) (ic := ic) (k := k) h hlen.le [] (.inl hlen)
  have hall : n = codes.length := hlen ▸ hstop.resolve_right Bool.false_ne_true
  rw [hbits, hall, List.take_length, List.nil_append]

/-- SYMS2BITS once the bits it collects are known. -/
theorem execSyms2bits_collected {s : State} {k : BitVec 4} {auto : Bool} {bits : List Byte}
    (hc : ChecksPass (.syms2bits k auto) s)
    (h : collectBits s.params s.dmem s.scheme.icount (widthOf s k) (expectedBits s auto) s.a1.toNat s.a0.toNat s.draws [] =
      .ok (bits, s.draws)) :
    exec (.syms2bits k auto) s = .next ((((s.store s.a2.toNat (keptBits (expectedBits s auto) bits)).setR0
      (toReg (keptBits (expectedBits s auto) bits).length)).flagShort (expectedBits s auto) bits.length).finish .none) := by
  rw [execSyms2bits_ready hc, h]
  rfl

/-- Settles O36: the loop may stop before the last symbol, but only once the expected bits are there. -/
theorem symbolsBecomeExpectedCells : Obligations.SymbolsBecomeExpectedCells := by
  intro s k w codes all hc hw hmem hlen hall hend
  obtain ⟨-, hk, -⟩ := id hc
  rw [← widthOf_legal hk] at hw
  subst hw
  rw [← flatMap_symbolBits] at hall
  subst hall
  obtain ⟨bits, rest, hbits, hall, hstop⟩ := collectBits_expected (p := s.params) (d := s.draws) hmem hlen hend
  have htake : bits.take s.a3.toNat = (bits ++ rest).take s.a3.toNat := by
    rcases hstop with rfl | hle
    · rw [List.append_nil]
    · rw [List.take_append_of_le_length hle]
  have hshort : bits.length < s.a3.toNat ↔ (bits ++ rest).length < s.a3.toNat := by
    rw [List.length_append]
    rcases hstop with rfl | hle
    · rfl
    · omega
  change codes.flatMap (symbolBits s.act.icount.toNat (widthOf s k)) = _ at hall
  rw [hall]
  generalize bits ++ rest = all at *
  refine ⟨_, execSyms2bits_collected hc hbits, ?_, ?_, fun j hj hj' => ?_⟩
  · show (toReg (bits.take s.a3.toNat).length).toNat = _
    rw [htake, List.length_take]
    exact toReg_toNat ((min_le_left _ _).trans_lt s.a3.isLt)
  · simp [expectedBits, Status.ended, hshort]
  · show (s.dmem.writeBytes s.a2.toNat (bits.take s.a3.toNat)).read _ = _
    rw [htake]
    refine (read_stored rfl (by rw [List.length_take]; omega)).trans ?_
    rw [List.getElem_take]

/-- Settles O37: all symbols are collected, and whole bytes of their bits kept. -/
theorem autoKeepsWholeBytesOfCells : Obligations.AutoKeepsWholeBytesOfCells := by
  intro s k w codes all hp hc hw hmem hlen hall
  obtain ⟨-, hk, -, -, hr⟩ := id hc
  rw [← widthOf_legal hk] at hw
  subst hw
  rw [← flatMap_symbolBits] at hall
  have hbits := collectBits_auto (p := s.params) (d := s.draws) (ic := s.scheme.icount) (k := widthOf s k) hmem hlen
  change all = codes.flatMap (symbolBits s.scheme.icount (widthOf s k)) at hall
  rw [← hall] at hbits
  have hkept : (keptBits (expectedBits s true) all).length = all.length / 8 * 8 := by
    show (all.take (all.length / 8 * 8)).length = _
    rw [List.length_take]; omega
  refine ⟨_, execSyms2bits_collected hc hbits, ?_, rfl, fun j hj hj' => ?_⟩
  · exact (toReg_toNat (syms2bits_kept_lt hp hr hbits)).trans hkept
  · refine (read_stored (bs := keptBits (expectedBits s true) all) rfl (by omega)).trans ?_
    exact congrArg some List.getElem_take

/-! ## The laws (R128) -/

theorem bytesToBits_cells (bs : List Byte) : ∀ c ∈ bytesToBits bs, c = 0 ∨ c = 1 := by
  intro c hc
  simp only [bytesToBits, byteBits, bitCell, List.mem_flatMap, List.mem_map] at hc
  obtain ⟨_, _, _, _, rfl⟩ := hc
  split <;> simp

theorem bitsToBytes_bytesToBits (bs : List Byte) : bitsToBytes (bytesToBits bs) = bs := by
  refine List.ext_getElem (by simp [cdiv]; omega) fun g h₁ h₂ => ?_
  have hwindow : window 8 (bytesToBits bs) g = bs[g].toNat := by
    refine window_eq_of_bits (bytesToBits_cells bs) bs[g].isLt fun j hj => ?_
    rw [List.getD_eq_getElem _ _ (by simp; omega), bytesToBits_getElem h₂ hj]
    exact bitCell_eq_one _
  simp only [bitsToBytes, List.getElem_map, List.getElem_range, hwindow, BitVec.ofNat_toNat, BitVec.setWidth_eq]

/-- The stream that does not come back for a width k with IC < 2^k: the k bits of the number IC, whose symbol is 0. -/
def lostStream (ic k : Nat) : List Byte := expand (ic + 1) k (BitVec.ofNat 8 ic)

theorem window_lostStream {ic k : Nat} (hic : ic ≤ 255) (hk : ic < 2 ^ k) : window k (lostStream ic k) 0 = ic := by
  have htoNat : (BitVec.ofNat 8 ic).toNat = ic := by rw [BitVec.toNat_ofNat, Nat.mod_eq_of_lt (by omega)]
  rw [lostStream, window_expand (by omega) (by omega), htoNat]

/-- The k bits of IC become the symbol IC mod IC. -/
theorem bitsToSyms_lostStream {ic k : Nat} (hpos : 1 ≤ k) (hic : ic ≤ 255) (hk : ic < 2 ^ k) :
    bitsToSyms k ic (lostStream ic k) = [0] := by
  have hone : cdiv (lostStream ic k).length k = 1 := by
    rw [lostStream, expand_length, cdiv, show k + k - 1 = (k - 1) + k by omega, Nat.add_div_right _ (by omega),
      Nat.div_eq_of_lt (by omega)]
  rw [bitsToSyms, hone]
  simp [window_lostStream hic hk]

/-- Settles O38: bytes window by window, streams with the zeros of the last symbol cut off, and the lost stream. -/
theorem packingRoundTrips : Obligations.PackingRoundTrips := by
  refine ⟨bitsToBytes_bytesToBits, fun k ic bits hpos hk hic hb => ?_, fun k ic hpos _ hmin hic hk => ?_⟩
  · rw [flatMap_bitsToSyms hb hpos hk hic, keptBits, List.take_left']
    rfl
  · refine ⟨lostStream ic k, by simp [lostStream], expand_cells _ _ _, fun heq => ?_⟩
    have hzero : window k (expand ic k 0) 0 = 0 := window_expand (c := 0) (by simp; omega) (by simp)
    have hback : expand ic k 0 = lostStream ic k := by
      rw [bitsToSyms_lostStream hpos hic hk] at heq
      simpa [keptBits, symbolBits_eq, lostStream, List.take_of_length_le] using heq
    rw [hback, window_lostStream hic hk] at hzero
    omega

end Sys2Proof.Machine
end

section
/-! SUPPORT. 43_fec R140 to R153: the two FEC commands where DMEM holds their input, the closed form of a search, and the
round trip. -/

namespace Sys2Proof.Machine

/-! ## Encoding (R140 to R142) -/

theorem Memory.Holds.left {m : Memory} {a : Nat} {bs cs : List Byte} (h : m.Holds a (bs ++ cs)) : m.Holds a bs := by
  intro i hi
  rw [h i (by rw [List.length_append]; omega), List.getElem_append_left hi]

/-- A redundancy byte as the eight terms of R141. -/
theorem red_eq (p : List Byte) (f i : Nat) : red p f i =
    p.getD (i % p.length) 0 ^^^ p.getD ((f + i) % p.length) 0 ^^^ p.getD ((2 * f + i) % p.length) 0 ^^^
      p.getD ((3 * f + i) % p.length) 0 ^^^ p.getD ((4 * f + i) % p.length) 0 ^^^ p.getD ((5 * f + i) % p.length) 0 ^^^
      p.getD ((6 * f + i) % p.length) 0 ^^^ p.getD ((7 * f + i) % p.length) 0 := by
  simp only [red, contributor, List.range_succ, List.range_zero, List.foldl_append, List.foldl_nil, List.foldl_cons,
    List.nil_append, Nat.zero_mul, Nat.zero_add, Nat.one_mul, BitVec.ofNat_eq_ofNat, BitVec.zero_xor]

theorem execFecEnc_holds {s : State} {p : List Byte} (hmem : s.dmem.Holds s.a0.toNat p) (hlen : p.length = s.a1.toNat)
    (hc : ChecksPass .fecEnc s) : exec .fecEnc s = .next (((s.store s.a2.toNat (fecEncode s.act.ratio.toNat p)).setR0
      (toReg (s.a1.toNat + fecSize s.act.ratio.toNat s.a1.toNat))).finish .none) := by
  rw [execFecEnc_ready hc, withPlaces_input hmem hlen]

/-- Settles O39: what is stored is the payload followed by its redundancy bytes. -/
theorem fecEncAppendsRedundancy : Obligations.FecEncAppendsRedundancy := by
  rintro s p _ hp hc hmem hlen rfl
  obtain ⟨-, -, -, -, hr⟩ := id hc
  have hfits : s.a1.toNat + fecSize s.act.ratio.toNat s.a1.toNat < 2 ^ 32 := by
    rcases Nat.eq_zero_or_pos s.a1.toNat with hzero | hpos
    · simp [hzero, fecSize]
    · exact rangeOk_fits hp hr (g := ⟨s.a0.toNat, s.a1.toNat⟩)
        (o := ⟨s.a2.toNat, s.a1.toNat + fecSize s.act.ratio.toNat s.a1.toNat⟩) List.mem_cons_self List.mem_cons_self hpos
  have hstored : (s.dmem.writeBytes s.a2.toNat (fecEncode s.act.ratio.toNat p)).Holds s.a2.toNat
      (fecEncode s.act.ratio.toNat p) := Memory.holds_writeBytes _ _ _
  refine ⟨_, execFecEnc_holds hmem hlen hc, ?_, rfl, hstored.left, fun i hi => ?_⟩
  · exact (toReg_toNat hfits).trans (by rw [← hlen]; rfl)
  · rw [← red_eq]
    refine (read_stored (Nat.add_assoc _ _ _) (by simpa [fecSize] using hi)).trans ?_
    simp [fecEncode, redundancy, fecSize]

/-! ## Decoding (R143 to R150) -/

theorem execFecDec_holds {s : State} {buf : List Byte} (hmem : s.dmem.Holds s.a0.toNat buf)
    (hlen : buf.length = s.a1.toNat) (hc : ChecksPass .fecDec s) : exec .fecDec s =
      if fecCopies s.act.ratio.toNat buf.length then fecCopy buf s
      else fecRepair (fecPayload s.act.ratio.toNat buf.length) buf s := by
  rw [execFecDec_ready hc, withPlaces_input hmem hlen, hlen]

/-- The copy path is taken for a short buffer, and for one that is all payload (R143, R144). -/
theorem fecCopies_iff (r m : Nat) : fecCopies r m = true ↔ m < 5 ∨ m = fecPayload r m := by
  have := fecPayload_le r m
  simp only [fecCopies, fecRedundancy, Bool.or_eq_true, decide_eq_true_eq, beq_iff_eq]
  omega

/-- The correcting path is taken for a buffer of five bytes or more that has redundancy. -/
theorem fecCopies_eq_false {r m : Nat} (hlong : 5 ≤ m) (hlt : fecPayload r m < m) : fecCopies r m = false := by
  rw [← Bool.not_eq_true, fecCopies_iff]
  omega

/-- Settles O40: the copy path. -/
theorem fecDecCopiesShortBuffers : Obligations.FecDecCopiesShortBuffers := by
  intro s buf hc hmem hlen hshort
  have hcopies : fecCopies s.act.ratio.toNat buf.length = true := (fecCopies_iff _ _).2 hshort
  exact ⟨_, (execFecDec_holds hmem hlen hc).trans (if_pos hcopies), by simp, by simp, by simp [Status.ended],
    Memory.holds_writeBytes _ _ _⟩

/-- The correction pass works through the indices one after the other (R147, R148). -/
theorem correctionRun_foldl (recheck : Bool) (q : List Byte) (is : List Nat) (p : List Byte) :
    CorrectionRun recheck q is p (is.foldl (correctIndex recheck q) p) := by
  induction is generalizing p with
  | nil => rfl
  | cons i is ih => exact ⟨_, correctIndex_step recheck q p i, ih _⟩

theorem isEmpty_eq_decide (xs : List Nat) : xs.isEmpty = decide (xs = []) := by cases xs <;> rfl

theorem mismatches_eq (p q : List Byte) :
    mismatches p q = (List.range q.length).filter fun i => red p q.length i != q.getD i 0 := rfl

theorem mismatches_eq_nil {p q : List Byte} (h : ∀ i, i < q.length → red p q.length i = q.getD i 0) :
    mismatches p q = [] := by
  rw [mismatches_eq, List.filter_eq_nil_iff]
  intro i hi
  simp [h i (List.mem_range.1 hi)]

/-- A payload all of whose blocks verify is left alone. -/
theorem fecCorrect_of_verified {p q : List Byte} (recheck : Bool)
    (h : ∀ i, i < q.length → red p q.length i = q.getD i 0) : fecCorrect recheck p q = p := by
  rw [fecCorrect, mismatches_eq_nil h, List.foldl_nil]

/-- Where the payload and the diagnostics are stored one after the other, the payload stays, since their regions are apart. -/
theorem holds_payload {s : State} (hr : rangeOk .fecDec s = true)
    (hcp : fecCopies s.act.ratio.toNat s.a1.toNat = false) {m : Memory} {p entries : List Byte}
    (hp : p.length = fecPayload s.act.ratio.toNat s.a1.toNat)
    (hentries : entries.length ≤ 4 * min (fecRedundancy s.act.ratio.toNat s.a1.toNat) s.act.maxWarn.toNat) :
    ((m.writeBytes s.a2.toNat p).writeBytes s.a3.toNat entries).Holds s.a2.toNat p := by
  intro i hi
  have hapart := fecDec_outputs_apart hr hcp
  simp only [Region.has_iff, not_exists] at hapart
  have := hapart (s.a2.toNat + i)
  rw [Memory.read_writeBytes_outside _ _ _ (by omega), Memory.read_writeBytes_inside _ _ _ hi]

/-- Settles O41: the correcting path, whose pass is a run of correction steps. -/
theorem fecDecReportsWhatStillMismatches : Obligations.FecDecReportsWhatStillMismatches := by
  rintro s buf _ n f hc hmem hlen hlong hn hf hpos rfl
  obtain ⟨-, -, -, -, hr⟩ := id hc
  change n = fecPayload s.act.ratio.toNat buf.length at hn
  have hcopies := fecCopies_eq_false (r := s.act.ratio.toNat) hlong (by omega)
  have hq : (buf.drop n).length = f := by rw [List.length_drop, hf]
  have hexec := (execFecDec_holds hmem hlen hc).trans (if_neg (by rw [hcopies]; simp))
  rw [← hn] at hexec
  generalize hp : fecCorrect s.params.recheck (buf.take n) (buf.drop n) = p at hexec
  have hplen : p.length = n := by rw [← hp, fecCorrect_length, List.length_take]; omega
  have hleft := mismatches_eq p (buf.drop n)
  have hleftlen := mismatches_length_le p (buf.drop n)
  have hread := mismatches_eq (buf.take n) (buf.drop n)
  rw [hq] at hleft hleftlen hread
  rw [← hread]
  have hfits : min (mismatches p (buf.drop n)).length s.act.maxWarn.toNat < 2 ^ 32 :=
    (min_le_right _ _).trans_lt s.act.maxWarn.isLt
  simp only [fecRepair, hp, complete_eq] at hexec
  refine ⟨_, p, mismatches p (buf.drop n), hexec, hplen, hleft, ?_, ?_, toReg_toNat hfits, ?_, fun j hj hj' => ?_, rfl,
    hp ▸ correctionRun_foldl _ _ _ _, fun hverify => ?_⟩
  · refine holds_payload hr (hlen ▸ hcopies) (by rw [hplen, hn, hlen]) ?_
    rw [diagnostics_length, ← hlen, fecRedundancy, ← hn]
    omega
  · exact toReg_toNat (n := n) (by have := s.a1.isLt; omega)
  · simp [Status.ended, isEmpty_eq_decide]
  · refine holds_diagnostics _ _ _ _ ?_
    have hr1 : j < (toReg (min (mismatches p (buf.drop n)).length s.act.maxWarn.toNat)).toNat := hj
    rw [toReg_toNat hfits] at hr1
    omega
  · rw [← hq] at hverify
    have hp' : p = buf.take n := hp.symm.trans (fecCorrect_of_verified _ hverify)
    exact ⟨hp', hp' ▸ mismatches_eq_nil hverify⟩

/-! ## The closed form of a search (R151, R153) -/

theorem xor_mask_twice (x y mask : Byte) : x ^^^ mask ^^^ (y ^^^ mask) = x ^^^ y := by
  rw [BitVec.xor_assoc, BitVec.xor_comm y, ← BitVec.xor_assoc mask, BitVec.xor_self, BitVec.zero_xor]

theorem xor_mask_once (x y mask : Byte) : x ^^^ mask ^^^ y = x ^^^ y ^^^ mask := by
  rw [BitVec.xor_assoc, BitVec.xor_comm mask, ← BitVec.xor_assoc]

/-- An XOR over positions some of whose terms are changed by a mask: the mask stays where their number is odd. -/
theorem foldl_xor_masked (js : List Nat) (v : Nat → Byte) (hit : Nat → Bool) (mask : Byte) :
    js.foldl (fun x j => x ^^^ (if hit j then v j ^^^ mask else v j)) 0 =
      if js.countP hit % 2 = 1 then js.foldl (fun x j => x ^^^ v j) 0 ^^^ mask else js.foldl (fun x j => x ^^^ v j) 0 := by
  induction js with
  | nil => rfl
  | cons j js ih =>
    rw [List.foldl_cons, List.foldl_cons, foldl_xor_init, ih, foldl_xor_init js v (0 ^^^ v j), List.countP_cons]
    generalize js.foldl (fun x j => x ^^^ v j) 0 = y
    cases hit j with
    | false => by_cases hodd : js.countP hit % 2 = 1 <;> simp [hodd, BitVec.xor_assoc]
    | true =>
      by_cases hodd : js.countP hit % 2 = 1
      · have : ¬ (js.countP hit + 1) % 2 = 1 := by omega
        simp [hodd, this, xor_mask_twice]
      · have : (js.countP hit + 1) % 2 = 1 := by omega
        simp [hodd, this, xor_mask_once]

theorem flipBit_getD {p : List Byte} {x : Nat} (hx : x < p.length) (b y : Nat) :
    (flipBit p x b).getD y 0 = if y = x then p.getD y 0 ^^^ (1#8 <<< b) else p.getD y 0 := by
  simp only [flipBit, List.getD_eq_getElem?_getD, List.getElem?_set]
  by_cases hyx : y = x
  · subst hyx; simp [hx]
  · simp [hyx, Ne.symm hyx]

/-- A flip changes a block's redundancy by the flipped bit exactly if the position has odd multiplicity (R151). -/
theorem red_flipBit {p : List Byte} {x : Nat} (hx : x < p.length) (f i b : Nat) : red (flipBit p x b) f i =
    if blockMultiplicity p.length f i x % 2 = 1 then red p f i ^^^ (1#8 <<< b) else red p f i := by
  have h := foldl_xor_masked (List.range 8) (fun j => p.getD (contributor p.length f i j) 0)
    (fun j => decide (contributor p.length f i j = x)) (1#8 <<< b)
  simp only [decide_eq_true_eq] at h
  simp only [red, flipBit_length, flipBit_getD hx]
  exact h

/-- In a block that mismatches, a flip fits exactly if its position has odd multiplicity and its bit is the syndrome. -/
theorem verifies_flipBit_iff {p q : List Byte} {i x : Nat} (hx : x < p.length) (hbad : red p q.length i ≠ q.getD i 0)
    (b : Nat) : verifies (flipBit p x b) q i = true ↔
      blockMultiplicity p.length q.length i x % 2 = 1 ∧ red p q.length i ^^^ q.getD i 0 = 1#8 <<< b := by
  have hswap : red p q.length i ^^^ (1#8 <<< b) = q.getD i 0 ↔ red p q.length i ^^^ q.getD i 0 = 1#8 <<< b := by grind
  rw [verifies, beq_iff_eq, red_flipBit hx]
  split
  next hodd => rw [hswap]; exact (and_iff_right hodd).symm
  next heven => exact iff_of_false hbad fun h => heven h.1

theorem contributor_lt {p : List Byte} (hp : p ≠ []) (f i j : Nat) : contributor p.length f i j < p.length :=
  Nat.mod_lt _ (List.length_pos_iff.2 hp)

/-- The eight one-bit bytes are different. -/
theorem bit_injective {b c : Nat} (hb : b < 8) (hc : c < 8) (h : 1#8 <<< b = 1#8 <<< c) : b = c := by
  have hall : ∀ b < 8, ∀ c < 8, 1#8 <<< b = 1#8 <<< c → b = c := by decide
  exact hall b hb c hc h

/-- Settles O42: a flip fits where its bit is the syndrome and its position's multiplicity is odd, so the first that fits is
at the first such contributor. -/
theorem searchFlipsFirstOddContributor : Obligations.SearchFlipsFirstOddContributor := by
  refine ⟨fun p f i x b hx _ => red_flipBit hx f i b, fun p q i hp hbad => ?_⟩
  have hfits (j b : Nat) := verifies_flipBit_iff (contributor_lt hp q.length i j) hbad b
  rcases searchFlip_cases p q i with ⟨j₀, b₀, hj₀, hb₀, hfit, hfirst, hresult⟩ | ⟨hnone, hresult⟩
  · obtain ⟨hodd₀, hbit₀⟩ := (hfits j₀ b₀).1 hfit
    refine ⟨fun b j hb hj hbit hodd hmin => ?_, fun hno => ?_⟩
    · obtain rfl : b₀ = b := bit_injective hb₀ hb (hbit₀.symm.trans hbit)
      obtain rfl : j₀ = j := by
        rcases Nat.lt_trichotomy j₀ j with hlt | heq | hgt
        · have := hmin j₀ hlt; omega
        · exact heq
        · exact absurd ((hfits j b₀).2 ⟨hodd, hbit⟩) (by rw [hfirst j b₀ hj hb (.inl hgt)]; simp)
      exact hresult
    · rcases hno with hno | hno
      · exact absurd hbit₀ (hno b₀ hb₀)
      · have := hno j₀ hj₀; omega
  · refine ⟨fun b j hb hj hbit hodd _ => ?_, fun _ => hresult⟩
    exact absurd ((hfits j b).2 ⟨hodd, hbit⟩) (by rw [hnone j b hj hb]; simp)

/-- An XOR in which every position occurs an even number of times is 0: the occurrences cancel in pairs. -/
theorem foldl_xor_eq_zero (v : Nat → Byte) (xs : List Nat) (h : ∀ x ∈ xs, xs.count x % 2 = 0) :
    xs.foldl (fun y x => y ^^^ v x) 0 = 0 := by
  match xs with
  | [] => rfl
  | x :: xs =>
    have hcount := h x List.mem_cons_self
    rw [List.count_cons_self] at hcount
    have hmem : x ∈ xs := List.count_pos_iff.1 (by omega)
    have hperm := List.perm_cons_erase hmem
    have hrest : (xs.erase x).foldl (fun y x => y ^^^ v x) 0 = 0 := by
      refine foldl_xor_eq_zero v (xs.erase x) fun z hz => ?_
      have hz' := h z (List.mem_cons_of_mem _ (List.mem_of_mem_erase hz))
      by_cases hzx : z = x
      · subst hzx; rw [List.count_erase_self]; omega
      · rwa [List.count_erase_of_ne hzx, ← List.count_cons_of_ne (Ne.symm hzx)]
    rw [List.foldl_cons, foldl_xor_init,
      hperm.foldl_eq' (fun a _ b _ y => by rw [BitVec.xor_assoc, BitVec.xor_comm (v a), BitVec.xor_assoc]),
      List.foldl_cons, foldl_xor_init, hrest]
    simp
termination_by xs.length
decreasing_by
  have := List.length_erase_of_mem hmem
  have := List.length_pos_of_mem hmem
  simp only [List.length_cons]
  omega

/-- The multiplicity counts a position among the block's contributors. -/
theorem blockMultiplicity_eq_count (n f i x : Nat) :
    blockMultiplicity n f i x = ((List.range 8).map (contributor n f i)).count x := by
  rw [blockMultiplicity, List.count, List.countP_map]
  rfl

/-- A block all of whose contributors have even multiplicity has redundancy 0 (R153). -/
theorem red_eq_zero {p : List Byte} {f i : Nat}
    (h : ∀ j, j < 8 → blockMultiplicity p.length f i (contributor p.length f i j) % 2 = 0) : red p f i = 0 := by
  have hfold := foldl_xor_eq_zero (fun x => p.getD x 0) ((List.range 8).map (contributor p.length f i)) (by
    simp only [List.mem_map, List.mem_range]
    rintro _ ⟨j, hj, rfl⟩
    rw [← blockMultiplicity_eq_count]
    exact h j hj)
  rwa [List.foldl_map] at hfold

/-- Settles O44: such a block's syndrome has no contributor of odd multiplicity. -/
theorem evenBlocksDetectNothing : Obligations.EvenBlocksDetectNothing := by
  rintro _ f i hpos heven p rfl
  have hred := red_eq_zero heven
  refine ⟨hred, ?_⟩
  rintro q rfl hq
  have hp : p ≠ [] := List.length_pos_iff.1 hpos
  exact (searchFlipsFirstOddContributor.2 p q i hp (by rw [hred]; exact hq.symm)).2 (.inr heven)

/-! ## The round trip (R152) -/

/-- The redundancy part of an unmodified buffer is what its payload's blocks recompute. -/
theorem redundancy_getD (p : List Byte) {f i : Nat} (hi : i < f) : (redundancy p f).getD i 0 = red p f i := by
  rw [List.getD_eq_getElem _ _ (by simpa using hi)]
  simp [redundancy]

section
variable {s : State} {p : List Byte} (hv : s.status.cfgValid = true) (hr : rangeOk .fecDec s = true)
  (hlen : (fecEncode s.act.ratio.toNat p).length = s.a1.toNat)
  (hmem : s.dmem.Holds s.a0.toNat (fecEncode s.act.ratio.toNat p))
include hv hr hlen hmem

/-- A short buffer comes out whole. -/
theorem execFecDec_short (hshort : (fecEncode s.act.ratio.toNat p).length < 5) : ∃ t, exec .fecDec s = .next t ∧
    t.r0 = s.a1 ∧ t.r1 = 0 ∧ t.status = { s.status with busy := false, err := .none, allCorr := true } ∧
    t.dmem.Holds s.a2.toNat (fecEncode s.act.ratio.toNat p) :=
  fecDecCopiesShortBuffers s _ ⟨hv, trivial, trivial, .inl (hlen ▸ hshort), hr⟩ hmem hlen (.inl hshort)

/-- A long buffer whose split is right gives the payload back: by the copy path where it has no redundancy, and else by the
correcting path, which finds no mismatch. -/
theorem execFecDec_split (hlong : 5 ≤ (fecEncode s.act.ratio.toNat p).length)
    (hsplit : fecPayload s.act.ratio.toNat (fecEncode s.act.ratio.toNat p).length = p.length) :
    ∃ t, exec .fecDec s = .next t ∧ t.r0.toNat = p.length ∧ t.dmem.Holds s.a2.toNat p ∧
      t.status = { s.status with busy := false, err := .none, allCorr := true,
                                 omitted := if fecSize s.act.ratio.toNat p.length = 0 then s.status.omitted else false } := by
  have hbuf := fecEncode_length s.act.ratio.toNat p
  have hnonempty : p.length ≠ 0 := by
    intro hzero
    rw [hbuf, hzero, fecSize] at hlong
    simp at hlong
  have hc : ChecksPass .fecDec s := ⟨hv, trivial, trivial, .inr (by rw [← hlen, hsplit]; exact hnonempty), hr⟩
  by_cases hf : fecSize s.act.ratio.toNat p.length = 0
  · obtain ⟨t, ht, hr0, -, hstatus, hout⟩ := fecDecCopiesShortBuffers s _ hc hmem hlen
      (.inr (by show _ = fecPayload _ _; omega))
    refine ⟨t, ht, by rw [hr0]; omega, hout.left, ?_⟩
    rw [hstatus, if_pos hf]
  · obtain ⟨t, p', left, ht, -, -, hout, hr0, -, hstatus, -, -, -, hverified⟩ :=
      fecDecReportsWhatStillMismatches s _ _ p.length (fecSize s.act.ratio.toNat p.length) hc hmem hlen hlong hsplit.symm
        (by omega) (by omega) rfl
    have htake : (fecEncode s.act.ratio.toNat p).take p.length = p := List.take_left' rfl
    have hdrop : (fecEncode s.act.ratio.toNat p).drop p.length = redundancy p (fecSize s.act.ratio.toNat p.length) :=
      List.drop_left' rfl
    rw [htake, hdrop] at hverified
    obtain ⟨rfl, rfl⟩ := hverified fun i hi => (redundancy_getD p hi).symm
    refine ⟨t, ht, hr0, hout, ?_⟩
    rw [hstatus, if_neg hf]
    simp

omit hv hr in
/-- A completion whose length is the payload's has split the buffer right. -/
theorem split_of_execFecDec {t : State} (h : exec .fecDec s = .next t) (herr : t.status.err = .none)
    (hr0 : t.r0.toNat = p.length) (hlong : 5 ≤ (fecEncode s.act.ratio.toNat p).length) :
    fecPayload s.act.ratio.toNat (fecEncode s.act.ratio.toNat p).length = p.length := by
  have hc := checksPass_of_err_eq_none (by simp) h herr
  have hle := fecPayload_le s.act.ratio.toNat (fecEncode s.act.ratio.toNat p).length
  by_cases hall : (fecEncode s.act.ratio.toNat p).length =
      fecPayload s.act.ratio.toNat (fecEncode s.act.ratio.toNat p).length
  · obtain ⟨t', ht', hr0', -⟩ := fecDecCopiesShortBuffers s _ hc hmem hlen (.inr hall)
    cases ht'.symm.trans h
    rw [hr0'] at hr0
    omega
  · obtain ⟨t', _, _, ht', -, -, -, hr0', -⟩ :=
      fecDecReportsWhatStillMismatches s _ _ _ _ hc hmem hlen hlong rfl rfl
        (by change 0 < _ - fecPayload _ _; omega) rfl
    cases ht'.symm.trans h
    exact hr0'.symm.trans hr0

end

/-- Settles O43: the round trip succeeds by the copy of a short buffer without redundancy or by a right split, and by nothing
else. -/
theorem fecRoundTripExactly : Obligations.FecRoundTripExactly := by
  rintro s p _ m hv hr rfl hm hlen hmem
  have hbuf : (fecEncode s.act.ratio.toNat p).length = m := by rw [hm, fecEncode_length]; rfl
  rw [← hbuf] at hlen
  change m = p.length + fecSize s.act.ratio.toNat p.length at hm
  refine ⟨?_, fun t h herr hr0 => ?_, fun hshort => ?_⟩
  · rintro (⟨hshort, hf⟩ | ⟨hlong, hsplit⟩)
    · change fecSize s.act.ratio.toNat p.length = 0 at hf
      obtain ⟨t, ht, hr0, -, hstatus, hout⟩ := execFecDec_short hv hr hlen hmem (hbuf ▸ hshort)
      refine ⟨t, ht, by rw [hr0]; omega, hout.left, ?_⟩
      rw [hstatus, if_pos (.inl hshort)]
    · obtain ⟨t, ht, hr0, hout, hstatus⟩ := execFecDec_split hv hr hlen hmem (hbuf ▸ hlong) (hbuf ▸ hsplit)
      refine ⟨t, ht, hr0, hout, ?_⟩
      have hiff : (m < 5 ∨ m = p.length) ↔ fecSize s.act.ratio.toNat p.length = 0 := by omega
      simp only [hstatus, hiff]
  · by_cases hlong : 5 ≤ m
    · exact .inr ⟨hlong, hbuf ▸ split_of_execFecDec hlen hmem h herr hr0 (hbuf ▸ hlong)⟩
    · obtain ⟨t', ht', hr0', -⟩ := execFecDec_short hv hr hlen hmem (by omega)
      cases ht'.symm.trans h
      rw [hr0'] at hr0
      exact .inl ⟨by omega, show fecSize _ _ = 0 by omega⟩
  · obtain ⟨t, ht, hr0, -, hstatus, hout⟩ := execFecDec_short hv hr hlen hmem (by omega)
    exact ⟨t, ht, by rw [hr0]; omega, hout, by rw [hstatus]⟩

end Sys2Proof.Machine
end

section
/-! SUPPORT. 44_pixel_layout R170 to R175 and 46_flows R203: what LAYOUT and EXTRACT write where DMEM holds their input, and
that a grid carries its symbols. -/

namespace Sys2Proof.Machine

/-! ## A channel of the grid (R170, R171) -/

/-- Every code is one that LAYOUT takes: an interval index, or Filler (R171, 20_memory R55). -/
def CodesValid (q : Scheme) (syms : List Byte) : Prop := ∀ c ∈ syms, c.toNat < q.icount ∨ c = 0xFF

theorem CodesValid.any_codeOutOfRange {q : Scheme} {syms : List Byte} (h : CodesValid q syms) :
    syms.any (codeOutOfRange q.icount) = false := by
  rw [List.any_eq_false]
  intro c hc hbad
  obtain ⟨hge, hle⟩ := (codeOutOfRange_iff q.icount c).1 hbad
  rcases h c hc with hlt | rfl
  · omega
  · exact absurd hle (by decide)

/-- A code that is not Filler becomes its anchor, which is a byte. -/
theorem pixelByte_toNat {s : State} (hc : s.act.Committed) {c : Byte} (hvalid : c.toNat < s.scheme.icount ∨ c = 0xFF) :
    (pixelByte s.scheme c).toNat = if c = 0xFF then 0 else anchor s.scheme c.toNat := by
  by_cases hfiller : c = 0xFF
  · simp [pixelByte, Symbol.ofCode, hfiller]
  · have hanchor := anchor_le hc (hvalid.resolve_right hfiller)
    simp only [pixelByte, Symbol.ofCode, if_neg hfiller]
    rw [BitVec.toNat_ofNat, Nat.mod_eq_of_lt (by omega)]

/-- A data channel holds the pixel byte of its symbol, that of Filler where there is none. -/
theorem channelByte_eq (q : Scheme) (syms : List Byte) (x c : Nat) :
    channelByte q syms x c = if c < 3 then pixelByte q (syms.getD (3 * x + c) 0xFF) else 0 := by
  rw [channelByte, List.getD_eq_getElem?_getD]
  cases syms[3 * x + c]? <;> rfl

theorem CodesValid.getD {q : Scheme} {syms : List Byte} (h : CodesValid q syms) (i : Nat) :
    (syms.getD i 0xFF).toNat < q.icount ∨ syms.getD i 0xFF = 0xFF := by
  rcases Nat.lt_or_ge i syms.length with hi | hi
  · rw [List.getD_eq_getElem _ _ hi]; exact h _ (List.getElem_mem hi)
  · rw [List.getD_eq_default _ _ hi]; exact .inr rfl

/-- What a data channel holds decodes to its symbol, Filler where there is none (R175): an anchor decodes to its index, and
0 is at or below F. -/
theorem toSymbol_channelByte {s : State} (hc : s.act.Committed) {syms : List Byte} (hvalid : CodesValid s.scheme syms)
    (x : Nat) {c : Nat} (h3 : c < 3) :
    (toSymbol s.scheme (channelByte s.scheme syms x c).toNat).code = syms.getD (3 * x + c) 0xFF := by
  have hcode := hvalid.getD (3 * x + c)
  rw [channelByte_eq, if_pos h3, pixelByte_toNat hc hcode]
  split
  next hfiller => rw [hfiller, toSymbol_eq hc (by omega), if_pos (Nat.zero_le _)]; rfl
  next hdata =>
    rw [(anchorsDecodeToTheirIndex s hc _ (hcode.resolve_right hdata)).1]
    exact BitVec.eq_of_toNat_eq (Symbol.code_data_toNat (BitVec.isLt _))

/-! ## LAYOUT (R171) -/

theorem execLayout_holds {s : State} {ch : BitVec 4} {syms : List Byte} (hmem : s.dmem.Holds s.a0.toNat syms)
    (hlen : syms.length = s.a1.toNat) (hc : ChecksPass (.layout ch) s) (hvalid : CodesValid s.scheme syms) :
    exec (.layout ch) s = .next (((s.store s.a2.toNat (layoutBytes s.scheme ch.toNat (pixelCount s) syms)).setCount
      (pixelCount s * ch.toNat)).finish .none) := by
  rw [execLayout_ready hc, withPlaces_input hmem hlen, hvalid.any_codeOutOfRange]
  rfl

@[simp] theorem State.setCount_dmem (s : State) (n : Nat) : (s.setCount n).dmem = s.dmem := by
  obtain ⟨_, _, h⟩ := State.setCount_frame s n
  simp [h]

/-- Settles O45: each byte of the grid is a channel of a pixel. -/
theorem layoutWritesAnchorsInPixelOrder : Obligations.LayoutWritesAnchorsInPixelOrder := by
  intro s ch syms hc hcommitted hmem hlen hvalid
  have hpixels : s.a3.toNat * s.a4.toNat = pixelCount s := rfl
  rw [hpixels]
  refine ⟨_, execLayout_holds hmem hlen hc hvalid, fun hfits => ?_, by simp [Status.ended], fun x c hx hch => ?_⟩
  · rw [State.setCount_fits hfits]
    exact toReg_toNat hfits
  · refine ⟨channelByte s.scheme syms x c, ?_, ?_⟩
    · simp only [State.finish_dmem, State.setCount_dmem, State.store_dmem]
      rw [read_stored (Nat.add_assoc _ _ _) (by simpa using inGrid hx hch), layoutBytes_getElem _ _ hx hch]
    · have hcode := CodesValid.getD (q := s.scheme) hvalid (3 * x + c)
      have hpast : ¬ 3 * x + c < syms.length → syms.getD (3 * x + c) 0xFF = 0xFF := fun h =>
        List.getD_eq_default _ _ (Nat.le_of_not_lt h)
      rw [channelByte_eq]
      by_cases h3 : c < 3
      · rw [if_pos h3, pixelByte_toNat hcommitted hcode]
        by_cases hfiller : syms.getD (3 * x + c) 0xFF = 0xFF
        · rw [if_pos hfiller, if_neg fun h => h.2.2 hfiller]
        · rw [if_neg hfiller, if_pos ⟨h3, not_not.1 fun h => hfiller (hpast h), hfiller⟩]
      · rw [if_neg h3, if_neg fun h => h3 h.1]; rfl

/-! ## EXTRACT (R172 to R174) -/

/-- The whole-pixel test changes nothing, since each of its three channels is filler on its own. -/
theorem extractCodes_eq_map (q : Scheme) (n : Nat) {vs : List Byte} (h : vs.length = 3 * n) :
    extractCodes q vs = vs.map fun v => (toSymbol q v.toNat).code := by
  induction n generalizing vs with
  | zero => rw [List.length_eq_zero_iff.1 h]; rfl
  | succ n ih =>
    match vs, h with
    | v₀ :: v₁ :: v₂ :: rest, h =>
      rw [extractCodes, ih (vs := rest) (by simpa [Nat.mul_succ] using h)]
      split
      next hall =>
        simp only [Bool.and_eq_true] at hall
        obtain ⟨⟨h₀, h₁⟩, h₂⟩ := hall
        simp [toSymbol, h₀, h₁, h₂]
      next => rfl

/-- Settles O47: a list of whole pixels has three times as many values. -/
theorem wholePixelTestChangesNothing : Obligations.WholePixelTestChangesNothing :=
  fun q vs h => extractCodes_eq_map q (vs.length / 3) (by omega)

/-- The offsets EXTRACT looks at are the data channels of its pixels. -/
theorem mem_channelOffsets {ch n o : Nat} : o ∈ channelOffsets ch n ↔ ∃ x c, x < n ∧ c < 3 ∧ o = x * ch + c := by
  simp only [channelOffsets, List.mem_flatMap, List.mem_range, List.mem_cons, List.not_mem_nil, or_false]
  constructor
  · rintro ⟨x, hx, rfl | rfl | rfl⟩
    exacts [⟨x, 0, hx, by omega, rfl⟩, ⟨x, 1, hx, by omega, rfl⟩, ⟨x, 2, hx, by omega, rfl⟩]
  · rintro ⟨x, c, hx, hc, rfl⟩
    refine ⟨x, hx, ?_⟩
    omega

/-- The bytes EXTRACT works on, where DMEM holds those it reads: 0 past the bytes there are (R173). -/
theorem readPlaces_extract {p : Params} {m : Memory} {d base avail ch n : Nat} {pix : Nat → Byte}
    (h : ∀ o ∈ channelOffsets ch n, o < avail → m.read (base + o) = some (pix o)) :
    readPlaces p m d (extractPlaces base avail ch n) =
      .ok ((channelOffsets ch n).map fun o => if o < avail then pix o else 0, d) := by
  have hwritten : ∀ a, some a ∈ extractPlaces base avail ch n → m.read a = some (pix (a - base)) := by
    intro a ha
    simp only [extractPlaces, List.mem_map] at ha
    obtain ⟨o, ho, hoa⟩ := ha
    split at hoa
    next hlt => cases hoa; rw [Nat.add_sub_cancel_left]; exact h o ho hlt
    next => cases hoa
  rw [readPlaces_written hwritten, extractPlaces, List.map_map]
  congr 2
  refine List.map_congr_left fun o _ => ?_
  by_cases hlt : o < avail <;> simp [hlt]

theorem execExtract_holds {s : State} {ch : BitVec 4} {pix : Nat → Byte} (hc : ChecksPass (.extract ch) s)
    (h : ∀ o ∈ channelOffsets ch.toNat (pixelCount s), o < min s.a1.toNat (pixelCount s * ch.toNat) →
      s.dmem.read (s.a0.toNat + o) = some (pix o)) :
    exec (.extract ch) s = .next ((((s.store s.a2.toNat (((channelOffsets ch.toNat (pixelCount s)).map fun o =>
        if o < min s.a1.toNat (pixelCount s * ch.toNat) then pix o else 0).map fun v => (toSymbol s.scheme v.toNat).code)).setR0
      (toReg (3 * pixelCount s))).setAmbig (decide (s.a1.toNat ≠ pixelCount s * ch.toNat))).finish .none) := by
  rw [execExtract_ready hc, withPlaces, readPlaces_extract h, ← extractCodes_eq_map s.scheme (pixelCount s) (by simp)]
  rfl

theorem three_le_of_legalCh {ch : BitVec 4} (h : legalCh ch) : 3 ≤ ch.toNat := by
  rcases h with rfl | rfl <;> decide

/-- Settles O46: code 3x + c is that of the byte at the offset of channel c of pixel x, which lies in the grid. -/
theorem extractDecodesEveryPixel : Obligations.ExtractDecodesEveryPixel := by
  rintro s ch pix n _ hp hc hn rfl hread
  change n = pixelCount s at hn
  subst hn
  obtain ⟨-, hch, -, -, hr⟩ := id hc
  have h3 := three_le_of_legalCh hch
  have hfits : 3 * pixelCount s < 2 ^ 32 := by
    rcases Nat.eq_zero_or_pos (pixelCount s) with hzero | hpos
    · omega
    · have := rangeOk_inRange hr (g := ⟨s.a2.toNat, 3 * pixelCount s⟩) (.inr List.mem_cons_self)
        (show 0 < 3 * pixelCount s by omega)
      simp only at this
      have := hp.2
      omega
  have hin {x c : Nat} (hx : x < pixelCount s) (hc3 : c < 3) :
      x * ch.toNat + c < min s.a1.toNat (pixelCount s * ch.toNat) ↔ x * ch.toNat + c < s.a1.toNat := by
    have := inGrid hx (hc3.trans_le h3)
    omega
  have hbytes : ∀ o ∈ channelOffsets ch.toNat (pixelCount s), o < min s.a1.toNat (pixelCount s * ch.toNat) →
      s.dmem.read (s.a0.toNat + o) = some (pix o) := by
    intro o ho hlt
    obtain ⟨x, c, hx, hc3, rfl⟩ := mem_channelOffsets.1 ho
    exact hread x c hx hc3 ((hin hx hc3).1 hlt)
  refine ⟨_, execExtract_holds hc hbytes, toReg_toNat hfits, by simp [Status.ended], fun x c hx hc3 => ?_⟩
  refine (read_stored (Nat.add_assoc _ _ _) (by simp; omega)).trans ?_
  rw [List.getElem_map, List.getElem_map, channelOffsets_getElem hx hc3]
  simp only [hin hx hc3, apply_ite BitVec.toNat]
  rfl

/-! ## The grid carries its symbols (R175, R203) -/

/-- Every place below three per pixel is a channel of a pixel. -/
theorem exists_channel {i n : Nat} (hi : i < 3 * n) : ∃ x c, x < n ∧ c < 3 ∧ i = 3 * x + c :=
  ⟨i / 3, i % 3, by omega, by omega, by omega⟩

/-- Settles O48: EXTRACT reads what LAYOUT stored, and each channel decodes to its symbol. -/
theorem extractRecoversTheLayout : Obligations.ExtractRecoversTheLayout := by
  intro s t u ch syms hp hcs hcommitted hmem hlen hvalid hexec hdmem hact hparams hcu ha0 ha3 ha4 ha1
  have hlayout := execLayout_holds hmem hlen hcs hvalid
  cases hlayout.symm.trans hexec
  simp only [State.finish_dmem, State.setCount_dmem, State.store_dmem] at hdmem
  simp only [State.finish_act, State.setCount_act, State.store_act] at hact
  have hparams : u.params = s.params := hparams.trans (exec_frame hlayout).params
  have hscheme : u.scheme = s.scheme := by rw [State.scheme, hact]; rfl
  have hcount : pixelCount u = pixelCount s := by rw [pixelCount, ha3, ha4]; rfl
  obtain ⟨-, hch, -⟩ := id hcu
  have h3 := three_le_of_legalCh hch
  obtain ⟨v, hv, -, hstatus, hcodes⟩ := extractDecodesEveryPixel u ch
    (fun o => (layoutBytes s.scheme ch.toNat (pixelCount s) syms).getD o 0) (pixelCount s) _ (hparams ▸ hp) hcu
    hcount.symm rfl (by
      intro x c hx hc3 _
      have hlt : x * ch.toNat + c < (layoutBytes s.scheme ch.toNat (pixelCount s) syms).length := by
        rw [layoutBytes_length]; exact inGrid hx (hc3.trans_le h3)
      rw [hdmem, ha0, List.getD_eq_getElem _ _ hlt]
      exact read_stored rfl hlt)
  have hread : ∀ i, i < 3 * pixelCount s → v.dmem.read (u.a2.toNat + i) = some (syms.getD i 0xFF) := by
    intro i hi
    obtain ⟨x, c, hx, hc3, rfl⟩ := exists_channel hi
    have hin := inGrid hx (hc3.trans_le h3)
    have hlt : x * ch.toNat + c < u.a1.toNat := by rw [ha1]; exact hin
    rw [← Nat.add_assoc, hcodes x c hx hc3, if_pos hlt, hscheme, List.getD_eq_getElem _ _ (by simpa using hin),
      layoutBytes_getElem _ _ hx (hc3.trans_le h3), toSymbol_channelByte hcommitted hvalid x hc3]
  have hroom : syms.length ≤ pixelCount s * 3 := by
    obtain ⟨-, -, hcap, -⟩ := hcs
    rw [hlen, ← cdiv_le_iff (by decide)]; exact hcap
  refine ⟨v, hv, by rw [hstatus], ?_, fun i hi => ?_, fun i hi hi' => ?_⟩
  · rw [hstatus]; simp [ha1, pixelCount]
  · rw [hread i (by omega), List.getD_eq_getElem _ _ hi]
  · rw [hread i hi', List.getD_eq_default _ _ hi]

/-- The codes of a grid with room for its symbols: the symbols, and Filler after them. -/
theorem extractCodes_layoutBytes {s : State} (hc : s.act.Committed) {syms : List Byte} (hvalid : CodesValid s.scheme syms)
    {ch n : Nat} (hch : 3 ≤ ch) (hroom : syms.length ≤ 3 * n) :
    extractCodes s.scheme ((channelOffsets ch n).map fun o => (layoutBytes s.scheme ch n syms).getD o 0) =
      syms ++ List.replicate (3 * n - syms.length) 0xFF := by
  rw [extractCodes_eq_map s.scheme n (by simp)]
  refine List.ext_getElem (by simp; omega) fun i h₁ h₂ => ?_
  obtain ⟨x, c, hx, hc3, rfl⟩ := exists_channel (n := n) (by simpa using h₁)
  rw [List.getElem_map, List.getElem_map, channelOffsets_getElem hx hc3,
    List.getD_eq_getElem _ _ (by simpa using inGrid hx (hc3.trans_le hch)), layoutBytes_getElem _ _ hx (hc3.trans_le hch),
    toSymbol_channelByte hc hvalid x hc3]
  rcases Nat.lt_or_ge (3 * x + c) syms.length with h | h
  · rw [List.getElem_append_left h, List.getD_eq_getElem _ _ h]
  · rw [List.getElem_append_right h, List.getElem_replicate, List.getD_eq_default _ _ h]

theorem codesValid_bitsToSyms {q : Scheme} (hic : 0 < q.icount) (hic' : q.icount ≤ 255) (k : Nat) (bits : List Byte) :
    CodesValid q (bitsToSyms k q.icount bits) := by
  intro c hc
  simp only [bitsToSyms, List.mem_map] at hc
  obtain ⟨g, _, rfl⟩ := hc
  have := Nat.mod_lt (window k bits g) hic
  rw [BitVec.toNat_ofNat, Nat.mod_eq_of_lt (by omega)]
  exact .inl this

/-- Fewer than eight zeros fill the last symbol, so whole bytes of the collected bits are the bits themselves. -/
theorem keptBits_padded {bits : List Byte} {pad : Nat} (hbits : bits.length % 8 = 0) (hpad : pad < 8) :
    keptBits none (bits ++ List.replicate pad 0) = bits := by
  have hlen : (bits ++ List.replicate pad (0 : Byte)).length / 8 * 8 = bits.length := by
    rw [List.length_append, List.length_replicate]; omega
  rw [keptBits, List.take_left' hlen.symm]

/-- Settles O52: the symbols come back by the grid, their bits by AUTO, and the bytes by packing. -/
theorem pixelsCarryTheBuffer : Obligations.PixelsCarryTheBuffer := by
  rintro s buf _ _ _ n ch hc hch rfl hroom rfl rfl
  obtain ⟨-, -, hcount, -, -, hbps⟩ := hc.bounds
  have hic : s.scheme.icount ≤ 255 := Nat.le_of_lt_succ s.act.icount.isLt
  have hpos : 1 ≤ s.scheme.bps := hc.one_le_bps
  have hbps' : s.scheme.bps ≤ 7 := Nat.le_of_lt_succ s.act.bps.isLt
  have hwindows : 2 ^ s.scheme.bps ≤ s.scheme.icount := (le_floorLog2_iff (show 1 ≤ s.scheme.icount by
    change 1 ≤ s.act.icount.toNat; omega)).1 hbps.le
  have hvalid := codesValid_bitsToSyms (q := s.scheme) (by change 0 < s.act.icount.toNat; omega) hic s.scheme.bps
    (bytesToBits buf)
  have hcodes := extractCodes_layoutBytes hc hvalid (ch := ch) (n := n) (by omega)
    (by rw [Nat.mul_comm]; exact (cdiv_le_iff (by decide)).1 hroom)
  refine ⟨hcodes, ?_⟩
  have hfiller : (List.replicate (3 * n - (bitsToSyms s.scheme.bps s.scheme.icount (bytesToBits buf)).length)
      (0xFF : Byte)).flatMap (symbolBits s.scheme.icount s.scheme.bps) = [] := by
    simp [List.flatMap_replicate, symbolBits_eq]
  have hpad : s.scheme.bps * cdiv (bytesToBits buf).length s.scheme.bps - (bytesToBits buf).length < 8 := by
    have := Nat.mul_div_le ((bytesToBits buf).length + s.scheme.bps - 1) s.scheme.bps
    unfold cdiv
    omega
  rw [hcodes, List.flatMap_append, hfiller, List.append_nil, flatMap_bitsToSyms (bytesToBits_cells buf) hpos hwindows hic,
    keptBits_padded (by simp) hpad, bitsToBytes_bytesToBits]

end Sys2Proof.Machine
end
